-- ==== Sys2Proof/Word.lean ====
section
/-! DEFINITION. The words that travel on the four ports and the words the register cells hold
(00_scope.md R5 to R7, 30_encoding.md R80). Bit 0 is the least significant bit of every word. -/

namespace Sys2Proof

/-- A command word CW, CMD_W = 64 bits (30_encoding.md R81). -/
abbrev CmdWord := BitVec 64

/-- A response word RSP, RSP_W = 35 bits (30_encoding.md R88). -/
abbrev RspWord := BitVec 35

/-- A sink request word SRQ, SRQ_W = 16 bits (30_encoding.md R96). -/
abbrev SinkWord := BitVec 16

/-- A sink data word: one signed level, LEVEL_W = 6 bits, two's complement (30_encoding.md R97). -/
abbrev Level := BitVec 6

/-- A raw frequency F, FREQ_W = 32 bits, standing for F / 2^FREQ_FRAC Hz (00_scope.md R10, R12). -/
abbrev Freq := BitVec 32

/-- A duty value, DUTY_W = 32 bits (00_scope.md R5). -/
abbrev Duty := BitVec 32

/-- A resolution maximum, RESMAX_W = 16 bits (00_scope.md R6). -/
abbrev ResMax := BitVec 16

/-- A pin-map entry, PINMAP_W = 8 bits (00_scope.md R6). -/
abbrev PinEntry := BitVec 8

end Sys2Proof
end

