-- ==== Sys2Proof/Config.lean ====
section
/-! DEFINITION. What an implementation fixes (the configuration record of 00_scope.md R5, R6), the moves of the
environment (10_state.md R20 (c)), and the one free value of the model, the device's answer to a draw. -/

namespace Sys2Proof

/-- 20_memory.md R63: how the stores of one command to different cells become visible to other agents. -/
inductive Consistency where
  /-- One global order of single-cell steps, program order kept. -/
  | sc
  /-- Everything R62 allows: stores to different cells become visible to each other agent in an order of its own, and MIX
  makes its gate loads in any order. -/
  | perCell
  deriving DecidableEq, Repr

/-- The configuration record: every parameter of 00_scope.md R5, and those of R6 that are not widths. R6's widths are the
types of Word.lean. BUF_FRAMES is no field: every request carries its own n (log 8). -/
structure Config where
  /-- N_CH, the number of channel slots, 1 to 16. -/
  nCh : Nat
  /-- N_PIN, the number of pin-map entries. -/
  nPin : Nat
  /-- SAMPLE_RATE, frames per second. -/
  sampleRate : Nat
  /-- RES_MIN, the smallest resolution. -/
  resMin : Nat
  /-- RES_MAX, the largest resolution. -/
  resMax : Nat
  /-- DUTY_W, the width of a duty value; the type Duty has it. -/
  dutyW : Nat
  /-- N_NOTE, the number of entries of the note base table. -/
  nNote : Nat
  /-- OCT_MAX, the largest octave, which is the table's own. -/
  octMax : Nat
  /-- OUT_CHANNELS, the levels of one frame of the output stream, which is mono. -/
  outChannels : Nat
  /-- FREQ_FRAC, fractional bits of a frequency. -/
  freqFrac : Nat
  /-- AMP, the amplitude of one channel as a part of full scale. -/
  amp : Rat
  /-- NOTE_BASE, the octave-8 frequencies in Hz. -/
  noteBase : List Nat
  /-- N_CTRL, the number of control agents. -/
  nCtrl : Nat
  /-- CONSISTENCY. -/
  consistency : Consistency
  deriving DecidableEq, Repr

/-- The defaults of 00_scope.md R5, R6 and 20_memory.md R63. The note table is 41_mutators.md R140's, of which only the
entry 7040 is the document's (PRESUMED, log 9); one control agent is a DESIGN CHOICE (log 8). -/
def Config.default : Config where
  nCh := 16
  nPin := 256
  sampleRate := 48000
  resMin := 1
  resMax := 16
  dutyW := 32
  nNote := 12
  octMax := 8
  outChannels := 1
  freqFrac := 8
  amp := ⟨1, 8, by decide, by decide⟩
  noteBase := [4186, 4435, 4699, 4978, 5274, 5588, 5920, 6272, 6645, 7040, 7459, 7902]
  nCtrl := 1
  consistency := .sc

/-- The phase modulus M = SAMPLE_RATE * 2^FREQ_FRAC (00_scope.md R6). -/
def Config.modulus (cfg : Config) : Nat := cfg.sampleRate * 2 ^ cfg.freqFrac

/-- The six parameters to which 00_scope.md R5 gives a value and no range have that value. -/
abbrev Config.fixedValues (cfg : Config) : Prop :=
  cfg.resMin = 1 ∧ cfg.resMax = 16 ∧ cfg.dutyW = 32 ∧ cfg.nNote = 12 ∧ cfg.octMax = 8 ∧ cfg.outChannels = 1

/-- The ranges 00_scope.md R5, R6 and 41_mutators.md R140 give the parameters. A note's frequency fits a frequency cell
in every octave, as R11 says of the rules' integers. -/
abbrev Config.wf (cfg : Config) : Prop :=
  (1 ≤ cfg.nCh ∧ cfg.nCh ≤ 16) ∧ 1 ≤ cfg.nPin ∧ 1 ≤ cfg.sampleRate ∧ cfg.fixedValues ∧ 0 < cfg.amp ∧ 1 ≤ cfg.nCtrl ∧
  cfg.noteBase.length = cfg.nNote ∧ 7040 ∈ cfg.noteBase ∧ ∀ b ∈ cfg.noteBase, b * 2 ^ cfg.freqFrac < 2 ^ 32

/-- MIX's three gate loads of a channel (42_mixing_engine.md R160 step 2). -/
inductive Gate where
  | attached
  | duty
  | freq
  deriving DecidableEq, Repr

/-- One move of the environment: it delivers a word on a port, or lets one agent take one step (20_memory.md R61).
The first two moves are a whole operation taken by its agent with no other agent's step in between (log 2). -/
inductive Event where
  /-- Delivers command word w to idle control agent k, which runs it to its response at once. -/
  | command (k : Nat) (w : CmdWord)
  /-- Delivers request n to idle MIX, which runs it to the delivery at once. -/
  | request (n : SinkWord)
  /-- Delivers command word w to idle control agent k, and nothing else yet. -/
  | issue (k : Nat) (w : CmdWord)
  /-- Delivers request n to idle MIX, and nothing else yet. -/
  | ask (n : SinkWord)
  /-- Control agent k takes its next step. -/
  | ctrl (k : Nat)
  /-- CONSISTENCY = PerCell: the n-th store still held by its agent reaches its cell. -/
  | drain (n : Nat)
  /-- CONSISTENCY = PerCell: the n-th store some agent has not seen yet is seen by that agent. -/
  | see (n : Nat)
  /-- MIX takes its next step; under PerCell the gate load g, if it is still to be made. -/
  | mix (g : Gate)
  deriving DecidableEq, Repr

/-- FREE VALUE: the device's answer to the k-th draw of the run that State.answers does not answer
(43_backend_stream.md R189; log 3). It has no body: no proof knows it. -/
opaque Config.freeAnswer : Nat → Bool

end Sys2Proof
end

