-- ==== Sys2Proof/Syntax.lean ====
section
/-! DEFINITION. The instructions: the ten commands of the command port and the one operation of the sink port, one
constructor per row of the opcode table (30_encoding.md R83, R96), operands in the order of R98. -/

namespace Sys2Proof

/-- Pins, channels, resolutions, notes, octaves and frame counts are plain numbers, as R98 writes them; a frequency is the
raw word F and a duty the duty word. What no word can carry (R99) is refused by WellFormed.lean. -/
inductive Instr where
  /-- ATTACH pin, freq, res (40_attach_detach.md R110). -/
  | attach (pin : Nat) (freq : Freq) (res : Nat)
  /-- ATTACHCH pin, freq, res, ch (40_attach_detach.md R115). -/
  | attachch (pin : Nat) (freq : Freq) (res : Nat) (ch : Nat)
  /-- WRITE pin, duty (41_mutators.md R133). -/
  | write (pin : Nat) (duty : Duty)
  /-- WRITECH ch, duty (41_mutators.md R131). -/
  | writech (ch : Nat) (duty : Duty)
  /-- TONE pin, freq (41_mutators.md R135). -/
  | tone (pin : Nat) (freq : Freq)
  /-- NOTE pin, note, octave (41_mutators.md R138). -/
  | note (pin : Nat) (note : Nat) (octave : Nat)
  /-- READ pin (41_mutators.md R142). -/
  | read (pin : Nat)
  /-- READF pin (41_mutators.md R143). -/
  | readf (pin : Nat)
  /-- DETACH pin (40_attach_detach.md R118). -/
  | detach (pin : Nat)
  /-- CHFREQ pin, freq, res (41_mutators.md R144). -/
  | chfreq (pin : Nat) (freq : Freq) (res : Nat)
  /-- BUFREQ n, on the sink port (42_mixing_engine.md R160). -/
  | bufreq (n : Nat)
  deriving DecidableEq, Repr

end Sys2Proof
end

