-- ==== Sys2Proof/Machine/State.lean ====
section
/-! DEFINITION. The state of the machine (10_state.md R20 to R38), its reset value, and the reasons a step can stop. -/

namespace Sys2Proof.Machine

open Sys2Proof

/-- BACKEND, the one control and status cell (10_state.md R31). -/
inductive Backend where
  | uninit
  | ready
  | running
  | failed
  deriving DecidableEq, Repr

/-- The five cells of one channel (10_state.md R21). A phase is an integer of 0..M-1, never seen as a word by any port;
that it is below M is an invariant, not its type (log 12). -/
structure Channel where
  freq : Freq
  phase : Nat
  duty : Duty
  resmax : ResMax
  attached : Bool
  deriving DecidableEq, Repr

/-- A channel at reset (10_state.md R28, R38). -/
def Channel.reset : Channel := { freq := 0, phase := 0, duty := 0, resmax := 0, attached := false }

/-- The names of the register cells (20_memory.md R50). -/
inductive Cell where
  | freq (c : Nat)
  | phase (c : Nat)
  | duty (c : Nat)
  | resmax (c : Nat)
  | attached (c : Nat)
  | pinmap (p : Nat)
  | backend
  deriving DecidableEq, Repr

/-- UNASSIGNED, the pin map's sentinel (10_state.md R29, D30). -/
def unassigned : PinEntry := 0xFF

/-- A command in progress at a control agent (10_state.md R34 (a), R35 (e)). -/
structure CtrlJob where
  /-- The command. -/
  instr : Instr
  /-- The value each access it has made so far moved, oldest first: what its loads and draws returned are the agent's
  private temporaries. -/
  moved : List Nat
  deriving DecidableEq, Repr

/-- The agents that load and store cells (10_state.md R20 (a), (b)). -/
inductive Agent where
  | ctrl (k : Nat)
  | mix
  deriving DecidableEq, Repr

/-- CONSISTENCY = PerCell: a store control agent `agent` has made and alone sees (20_memory.md R62, R63; log 15). -/
structure Held where
  agent : Nat
  cell : Cell
  value : Nat
  deriving DecidableEq, Repr

/-- CONSISTENCY = PerCell: a store that has reached `cell` and that `agent` does not see yet; until it does, its loads of
the cell return `value`, which the cell held before (20_memory.md R62 (d), R63; log 28). -/
structure Unseen where
  agent : Agent
  cell : Cell
  value : Nat
  deriving DecidableEq, Repr

/-- A buffer in progress at MIX (10_state.md R34 (b), R35). -/
structure MixJob where
  /-- The frames requested. -/
  n : Nat
  /-- The channel index of the position, 0..N_CH. -/
  c : Nat
  /-- The frame index of the position, 0..n. -/
  i : Nat
  /-- The gate values of channel c loaded so far; `freq` is the latched copy f. -/
  attached : Option Nat
  duty : Option Nat
  freq : Option Nat
  /-- The working copy of the phase of channel c, once its frames are done. -/
  p : Option Nat
  /-- OUT[0..n-1]. -/
  out : List Int
  deriving DecidableEq, Repr

/-- Why the machine stops. -/
inductive Fault where
  /-- PhaseOverrange(c, i) (42_mixing_engine.md R167, 60_exceptions.md R194): raised by MIX at frame i of channel c when the
  phase is still at or above M after the one subtraction. SAFE: the model stops where the document gives no value. -/
  | phaseOverrange (c i : Nat)
  /-- The model's own: an access to a cell whose index lies outside its space (20_memory.md R50), raised by any agent.
  SAFE: no step from a state that meets State.Inv raises it (log 6). -/
  | noSuchCell (x : Cell)
  deriving DecidableEq, Repr

/-- Why an instruction or a move of the environment has no meaning. -/
inductive Refusal where
  /-- An instruction not modelled yet, raised by its arm of exec. SAFE. No arm raises it. -/
  | notModelled (mnemonic : String)
  /-- The environment addressed a control agent that does not exist (10_state.md R20), raised by step. SAFE. -/
  | noSuchAgent (k : Nat)
  /-- The environment delivered a command to an agent that has not answered the one before, which the host table says it
  never does (60_exceptions.md R196), raised by step. SAFE. -/
  | agentBusy (k : Nat)
  /-- The environment delivered a buffer request while BACKEND was not RUNNING or a buffer was in progress, which it never
  does (43_backend_stream.md R185, 60_exceptions.md R196), raised by BUFREQ and by step. SAFE. -/
  | requestNotAllowed
  deriving DecidableEq, Repr

/-- The whole state. -/
structure State where
  /-- The configuration, fixed for the machine. -/
  cfg : Config
  /-- CH[0..N_CH-1]. -/
  chans : List Channel
  /-- PINMAP[0..N_PIN-1]. -/
  pins : List PinEntry
  /-- BACKEND. -/
  backend : Backend
  /-- CTRL[0..N_CTRL-1]: the command each control agent has in progress, none when it is idle. -/
  ctrls : List (Option CtrlJob)
  /-- MIX: the buffer in progress, none when it is idle. -/
  mix : Option MixJob
  /-- CONSISTENCY = PerCell: the stores made and not yet in their cells, oldest first. Under SC there are none. -/
  held : List Held
  /-- CONSISTENCY = PerCell: the stores in their cells that some agent does not see yet, in the order of the cells' own
  stores. Under SC there are none. -/
  unseen : List Unseen
  /-- The response words emitted so far, oldest first, each with the number of the agent whose port it left on. -/
  rsps : List (Nat × RspWord)
  /-- The buffers delivered to the sink so far, oldest first. -/
  sink : List (List Level)
  /-- The model's fault field (60_exceptions.md R194). -/
  fault : Option Fault
  /-- The model's own: the control agent whose step this is. -/
  cur : Nat
  /-- The environment's coming moves. -/
  events : List Event
  /-- The device's coming answers to draws. -/
  answers : List Bool
  /-- How many draws were answered by the free value Config.freeAnswer. -/
  drawn : Nat
  deriving DecidableEq, Repr

/-- The state right after reset of a machine with configuration cfg (10_state.md R38, 70_reset_and_hazards.md R220). -/
def State.resetOf (cfg : Config) : State where
  cfg := cfg
  chans := List.replicate cfg.nCh Channel.reset
  pins := List.replicate cfg.nPin unassigned
  backend := .uninit
  ctrls := List.replicate cfg.nCtrl none
  mix := none
  held := []
  unseen := []
  rsps := []
  sink := []
  fault := none
  cur := 0
  events := []
  answers := []
  drawn := 0

/-- The state right after reset, with the default parameters. -/
def State.reset : State := State.resetOf Config.default

end Sys2Proof.Machine
end

