-- ==== Sys2Proof/Machine/Ops.lean ====
section
/-! DEFINITION. The named operations over the cells: one atomic load, one atomic store (20_memory.md R56), a draw, a
response, a delivery, recording the model fault; the programs the commands are written as (00_scope.md R8, R9), and what
running one without interruption does. -/

namespace Sys2Proof.Machine

open Sys2Proof

/-! ## Responses and causes -/

/-- The cause names of 60_exceptions.md R190. -/
inductive Cause where
  | none
  | resourceExhausted
  | invalidChannel
  | invalidPin
  | deviceUnavailable
  | pinNotAttached
  | invalidNote
  | illegalCommand
  deriving DecidableEq, Repr

/-- The cause codes of 60_exceptions.md R190. -/
def Cause.code : Cause → BitVec 3
  | .none => 0
  | .resourceExhausted => 1
  | .invalidChannel => 2
  | .invalidPin => 3
  | .deviceUnavailable => 4
  | .pinNotAttached => 5
  | .invalidNote => 6
  | .illegalCommand => 7

/-- What a command completes with: `return (v, k)` (00_scope.md R8). -/
structure Reply where
  result : BitVec 32
  cause : Cause
  deriving DecidableEq, Repr

/-- The response word cause ‖ result (30_encoding.md R88). -/
def Reply.word (r : Reply) : RspWord := r.cause.code ++ r.result

/-- Success with result v: `return (v, None)`. -/
def Reply.ok (v : BitVec 32) : Reply := ⟨v, .none⟩

/-- The failure of every command but DETACH: failure value 0 and the cause (60_exceptions.md R191). -/
def Reply.fail (k : Cause) : Reply := ⟨0, k⟩

/-- The end of DETACH, whose result is 1 on every path (40_attach_detach.md R118). -/
def Reply.detached (k : Cause) : Reply := ⟨1, k⟩

/-! ## Cells -/

/-- The value of BACKEND as a number (10_state.md R31). -/
def Backend.code : Backend → Nat
  | .uninit => 0
  | .ready => 1
  | .running => 2
  | .failed => 3

/-- The BACKEND value a number stands for (10_state.md R31); two bits, so 3 and above is FAILED. -/
def Backend.ofCode : Nat → Backend
  | 0 => .uninit
  | 1 => .ready
  | 2 => .running
  | _ => .failed

/-- `ld X` (20_memory.md R56): the cell's value as an unsigned integer (00_scope.md R7); none where no such cell exists. -/
def State.load (s : State) : Cell → Option Nat
  | .freq c => s.chans[c]?.map fun ch => ch.freq.toNat
  | .phase c => s.chans[c]?.map fun ch => ch.phase
  | .duty c => s.chans[c]?.map fun ch => ch.duty.toNat
  | .resmax c => s.chans[c]?.map fun ch => ch.resmax.toNat
  | .attached c => s.chans[c]?.map fun ch => ch.attached.toNat
  | .pinmap p => s.pins[p]?.map fun m => m.toNat
  | .backend => some s.backend.code

/-- Replaces channel c's cells. -/
def State.putChan (s : State) (c : Nat) (ch : Channel) : State := { s with chans := s.chans.set c ch }

/-- Replaces one pin-map entry. -/
def State.putPin (s : State) (p : Nat) (m : PinEntry) : State := { s with pins := s.pins.set p m }

/-- Replaces BACKEND. -/
def State.putBackend (s : State) (b : Backend) : State := { s with backend := b }

/-- `X <- v` (20_memory.md R56): replaces the whole cell; none where no such cell exists. -/
def State.store (s : State) (x : Cell) (v : Nat) : Option State :=
  match x with
  | .freq c => s.chans[c]?.map fun ch => s.putChan c { ch with freq := BitVec.ofNat 32 v }
  | .phase c => s.chans[c]?.map fun ch => s.putChan c { ch with phase := v }
  | .duty c => s.chans[c]?.map fun ch => s.putChan c { ch with duty := BitVec.ofNat 32 v }
  | .resmax c => s.chans[c]?.map fun ch => s.putChan c { ch with resmax := BitVec.ofNat 16 v }
  | .attached c => s.chans[c]?.map fun ch => s.putChan c { ch with attached := v != 0 }
  | .pinmap p => s.pins[p]?.map fun _ => s.putPin p (BitVec.ofNat 8 v)
  | .backend => some (s.putBackend (Backend.ofCode v))

/-- What a cell keeps of a value stored to it: the bits of its width (10_state.md R21, R29, R31). -/
def Cell.kept : Cell → Nat → Nat
  | .freq _, v => v % 2 ^ 32
  | .phase _, v => v
  | .duty _, v => v % 2 ^ 32
  | .resmax _, v => v % 2 ^ 16
  | .attached _, v => (v != 0).toNat
  | .pinmap _, v => v % 2 ^ 8
  | .backend, v => (Backend.ofCode v).code

/-- `raise F` (00_scope.md R8): the model records the fault (60_exceptions.md R194). -/
def State.raise (s : State) (f : Fault) : State := { s with fault := some f }

/-! ## What each agent sees of the cells (20_memory.md R62, R63) -/

/-- What agent a sees in cell x: the value from before the first store to x it has not seen, else the cell. Under SC every
agent sees the cells. An agent's view of a cell moves along the cell's own stores and never back (R62 (c)), and its views
of two cells move apart (R62 (d)). -/
def State.view (s : State) (a : Agent) (x : Cell) : Option Nat :=
  match s.unseen.find? fun u => u.agent == a && u.cell == x with
  | some u => some u.value
  | none => s.load x

/-- The agents of the machine. -/
def allAgents (cfg : Config) : List Agent := .mix :: (List.range cfg.nCtrl).map .ctrl

/-- A held store reaches its cell: there it follows every store made to the cell before (20_memory.md R62 (c)), of which its
own agent sees none any more (R62 (b); DEDUCED, log 28), and no other agent sees it yet (R62 (d)). -/
def State.commit (s : State) (h : Held) : State :=
  match s.load h.cell, s.store h.cell h.value with
  | some old, some t =>
    { t with
      unseen :=
        (s.unseen.filter fun u => !(u.agent == .ctrl h.agent && u.cell == h.cell)) ++
          ((allAgents s.cfg).filter fun a => a != .ctrl h.agent).map fun a => ⟨a, h.cell, old⟩ }
  | _, _ => s.raise (.noSuchCell h.cell)

/-- Every store agent a holds has reached its cell, and a has seen every store: where a whole operation of a starts from
(log 2). Under SC nothing is held or unseen, and this is the state itself. -/
def State.settled (s : State) (a : Agent) : State :=
  let t := (s.held.filter fun h => Agent.ctrl h.agent == a).foldl State.commit s
  { t with
    held := s.held.filter fun h => Agent.ctrl h.agent != a
    unseen := t.unseen.filter fun u => u.agent != a }

/-! ## Ports and draws -/

/-- Control agent k emits its response word (30_encoding.md R80 (b), R91). -/
def State.reply (s : State) (k : Nat) (r : Reply) : State := { s with rsps := s.rsps ++ [(k, r.word)] }

/-- A level as the sink's word: two's complement (30_encoding.md R97). -/
def levelWord (x : Int) : Level := BitVec.ofInt 6 x

/-- The sink data words of a buffer of n frames: OUT_CHANNELS for each frame (00_scope.md R5, 20_memory.md R53), which is
one, the frame's level (30_encoding.md R97). -/
def sinkWords (cfg : Config) (n : Nat) : Nat := n * cfg.outChannels

/-- MIX delivers the buffer whole, one word for each frame (20_memory.md R53; log 8). -/
def State.deliver (s : State) (out : List Int) : State := { s with sink := s.sink ++ [out.map levelWord] }

/-- 42_mixing_engine.md R169: the sample value of a level, L * AMP, an exact part of full scale. -/
def sampleValue (cfg : Config) (l : Level) : Rat := l.toInt * cfg.amp

/-- `draw` (43_backend_stream.md R189): the device's next answer, a free value where the environment has given none. -/
def State.answer (s : State) : Bool :=
  match s.answers with
  | b :: _ => b
  | [] => Config.freeAnswer s.drawn

/-- The state after a draw. -/
def State.answered (s : State) : State :=
  match s.answers with
  | _ :: bs => { s with answers := bs }
  | [] => { s with drawn := s.drawn + 1 }

/-! ## Programs -/

/-- A rule's pseudocode (00_scope.md R8): each `ld`, store and draw is one step of the agent that runs it, everything
else is local computation; a procedure takes the rest of the command as its last argument, so that `return` inside it
completes the whole command (R9). -/
inductive Prog (α : Type) where
  /-- The operation is complete. -/
  | done (a : α)
  /-- `ld x`. -/
  | ld (x : Cell) (k : Nat → Prog α)
  /-- `x <- v`. -/
  | st (x : Cell) (v : Nat) (k : Prog α)
  /-- `draw`. -/
  | draw (k : Bool → Prog α)
  /-- `raise`. -/
  | raise (f : Fault)

/-- Runs a program with no other agent's step in between; `fin` is what the agent does at the end. -/
def Prog.run {α : Type} (fin : α → State → State) : Prog α → State → State
  | .done a, s => fin a s
  | .ld x k, s =>
    match s.load x with
    | some v => (k v).run fin s
    | none => s.raise (.noSuchCell x)
  | .st x v k, s =>
    match s.store x v with
    | some t => k.run fin t
    | none => s.raise (.noSuchCell x)
  | .draw k, s => (k s.answer).run fin s.answered
  | .raise f, s => s.raise f

/-- What is left of a program after accesses that moved these values. -/
def Prog.resume {α : Type} : Prog α → List Nat → Prog α
  | p, [] => p
  | .ld _ k, v :: vs => (k v).resume vs
  | .st _ _ k, _ :: vs => k.resume vs
  | .draw k, v :: vs => (k (v != 0)).resume vs
  | .done a, _ :: _ => .done a
  | .raise f, _ :: _ => .raise f

/-- The program of a command. -/
abbrev CmdProg := Prog Reply

/-- Runs a command for the agent State.cur: its program, then its one response word. -/
def State.runCommand (s : State) (p : CmdProg) : State := p.run (fun r t => t.reply s.cur r) s

end Sys2Proof.Machine
end

