-- ==== Sys2Proof/Machine/Flags.lean ====
section
/-! DEFINITION. The flag-like state: the procedures through which commands read and write BACKEND
(43_backend_stream.md R180 to R184). The `attached` flag is stored by the commands of Machine/Attach.lean alone. -/

namespace Sys2Proof.Machine

open Sys2Proof

/-- `gate()` (43_backend_stream.md R180). -/
def gate (k : CmdProg) : CmdProg :=
  .ld .backend fun b =>
  if b = Backend.failed.code then .done (.fail .deviceUnavailable) else k

/-- `gate_attach()` (43_backend_stream.md R181): the gate of the attach path, with the lazy initialisation, which stays
made when the command then fails on its operands (log 31). -/
def gateAttach (k : CmdProg) : CmdProg :=
  .ld .backend fun b =>
  if b = Backend.failed.code then .done (.fail .deviceUnavailable)
  else if b = Backend.uninit.code then
    .draw fun ok =>
    if ok then .st .backend Backend.ready.code k
    else .st .backend Backend.failed.code (.done (.fail .deviceUnavailable))
  else k

/-- `activate()` (43_backend_stream.md R183): starts the stream if it is not started. -/
def activate (k : CmdProg) : CmdProg :=
  .ld .backend fun b =>
  if b = Backend.ready.code then
    .draw fun ok =>
    if ok then .st .backend Backend.running.code k
    else .st .backend Backend.failed.code (.done (.fail .deviceUnavailable))
  else if b = Backend.failed.code then .done (.fail .deviceUnavailable)
  else k

/-- A write path's last step (43_backend_stream.md R184): `activate` when the value this command wrote is nonzero. -/
def activateWhen (nonzero : Bool) (k : CmdProg) : CmdProg := if nonzero then activate k else k

end Sys2Proof.Machine
end

