-- ==== Sys2Proof/Machine/Operands.lean ====
section
/-! DEFINITION. The operand forms: a pin through the pin router (20_memory.md R58, R59), the allocator's scan
(40_attach_detach.md R111), a resolution (00_scope.md R11), a note (41_mutators.md R139). -/

namespace Sys2Proof.Machine

open Sys2Proof

/-- `resolve(pin)` (41_mutators.md R130): the channel the pin names, or the end of the command with failure value 0. -/
def resolve (cfg : Config) (pin : Nat) (k : Nat → CmdProg) : CmdProg :=
  if cfg.nPin ≤ pin then .done (.fail .invalidPin)
  else
    .ld (.pinmap pin) fun m =>
    if m = unassigned.toNat then .done (.fail .pinNotAttached)
    else
      .ld (.attached m) fun a =>
      if a = 0 then .done (.fail .invalidChannel) else k m

/-- The scan of ATTACH (40_attach_detach.md R110, R111): `left` channels from index c up, one atomic load each, up to the
first loaded as Free. -/
def scanFree (found : Nat → CmdProg) (full : CmdProg) : (left c : Nat) → CmdProg
  | 0, _ => full
  | left + 1, c => .ld (.attached c) fun a => if a = 0 then found c else scanFree found full left (c + 1)

/-- `2^res - 1` (00_scope.md R11 (a)). -/
def resmaxOf (res : Nat) : Nat := 2 ^ res - 1

/-- The 50% duty of a resmax, its half rounded down (00_scope.md R11 (b)). -/
def halfDuty (resmax : Nat) : Nat := resmax / 2

/-- `note >= 12 or octave > 8` (41_mutators.md R138), 12 and 8 being N_NOTE and OCT_MAX (00_scope.md R5). -/
def noteInvalid (cfg : Config) (nt oct : Nat) : Bool := decide (cfg.nNote ≤ nt ∨ cfg.octMax < oct)

/-- The whole Hz of a note, `NOTE_BASE[note] >> (8 - octave)` (41_mutators.md R138, R139), 8 being OCT_MAX, the table's own
octave (00_scope.md R5). -/
def noteHz (cfg : Config) (nt oct : Nat) : Nat := cfg.noteBase.getD nt 0 >>> (cfg.octMax - oct)

/-- The raw frequency of a note, `hz << FREQ_FRAC` (41_mutators.md R138). -/
def noteFreq (cfg : Config) (nt oct : Nat) : Freq := BitVec.ofNat 32 (noteHz cfg nt oct <<< cfg.freqFrac)

end Sys2Proof.Machine
end

