-- ==== Sys2Proof/Machine/Attach.lean ====
section
/-! DEFINITION. The allocator and pin router commands ATTACH, ATTACHCH, DETACH (40_attach_detach.md). -/

namespace Sys2Proof.Machine

open Sys2Proof

/-- The four stores of ATTACH and ATTACHCH, in the order of 40_attach_detach.md R112, and their success. Duty and phase
are not stored (R113); a pin that is mapped already is not looked at (R114). -/
def attachStores (pin : Nat) (freq : Freq) (res c : Nat) : CmdProg :=
  .st (.freq c) freq.toNat <|
  .st (.resmax c) (resmaxOf res) <|
  .st (.attached c) 1 <|
  .st (.pinmap pin) c <|
  .done (.ok 1)

/-- The program of ATTACH (40_attach_detach.md R110). -/
def progAttach (cfg : Config) (pin : Nat) (freq : Freq) (res : Nat) : CmdProg :=
  gateAttach <|
  if cfg.nPin ≤ pin then .done (.fail .invalidPin)
  else scanFree (attachStores pin freq res) (.done (.fail .resourceExhausted)) cfg.nCh 0

/-- The program of ATTACHCH (40_attach_detach.md R115): no `attached` cell is loaded. -/
def progAttachch (cfg : Config) (pin : Nat) (freq : Freq) (res ch : Nat) : CmdProg :=
  gateAttach <|
  if cfg.nPin ≤ pin then .done (.fail .invalidPin)
  else if cfg.nCh ≤ ch then .done (.fail .invalidChannel)
  else attachStores pin freq res ch

/-- The program of DETACH (40_attach_detach.md R118): its own form of the gate, result 1 on every path, no ownership and no
`attached` test (R119). -/
def progDetach (cfg : Config) (pin : Nat) : CmdProg :=
  .ld .backend fun b =>
  if b = Backend.failed.code then .done (.detached .deviceUnavailable)
  else if cfg.nPin ≤ pin then .done (.detached .invalidPin)
  else
    .ld (.pinmap pin) fun m =>
    if m = unassigned.toNat then .done (.detached .none)
    else
      .st (.duty m) 0 <|
      .st (.attached m) 0 <|
      .st (.pinmap pin) unassigned.toNat <|
      .done (.detached .none)

/-- ATTACH pin, freq, res (40_attach_detach.md R110). -/
def execAttach (pin : Nat) (freq : Freq) (res : Nat) (s : State) : Host.Outcome State Fault Refusal :=
  .next (s.runCommand (progAttach s.cfg pin freq res))

/-- ATTACHCH pin, freq, res, ch (40_attach_detach.md R115). -/
def execAttachch (pin : Nat) (freq : Freq) (res ch : Nat) (s : State) : Host.Outcome State Fault Refusal :=
  .next (s.runCommand (progAttachch s.cfg pin freq res ch))

/-- DETACH pin (40_attach_detach.md R118). -/
def execDetach (pin : Nat) (s : State) : Host.Outcome State Fault Refusal :=
  .next (s.runCommand (progDetach s.cfg pin))

end Sys2Proof.Machine
end

