-- ==== Sys2Proof/Machine/Mixer.lean ====
section
/-! DEFINITION. The mixing engine: BUFREQ as one uninterrupted operation (42_mixing_engine.md R160), and MIX's steps one
cell access at a time from the position of 10_state.md R34 (b). -/

namespace Sys2Proof.Machine

open Sys2Proof

/-! ## One channel's frames -/

/-- The square wave (42_mixing_engine.md R164): +1 in the first half of the period, -1 in the second. -/
def squareWave (m p : Nat) : Int := if 2 * p < m then 1 else -1

/-- Advance and wrap (42_mixing_engine.md R166): one conditional subtraction. -/
def advancePhase (m p f : Nat) : Nat := if m ≤ p + f then p + f - m else p + f

/-- What the frames of one channel leave: the frame index reached, the working phase, OUT, and whether the phase was still
at or above M after the one subtraction (42_mixing_engine.md R167). -/
structure Frames where
  i : Nat
  p : Nat
  out : List Int
  overrange : Bool
  deriving DecidableEq, Repr

/-- Step 4 of 42_mixing_engine.md R160 from frame i on: emit and accumulate, advance, wrap, test. -/
def mixFrames (m f : Nat) : (i p : Nat) → (out : List Int) → Frames
  | i, p, [] => ⟨i, p, [], false⟩
  | i, p, x :: xs =>
    let y := x + squareWave m p
    let q := advancePhase m p f
    if m ≤ q then ⟨i, q, y :: xs, true⟩
    else
      let r := mixFrames m f (i + 1) q xs
      { r with out := y :: r.out }

/-! ## The whole buffer -/

/-- Step 2 of 42_mixing_engine.md R160: `left` channels from index c up, ascending (R161). -/
def mixChannels (m : Nat) : (left c : Nat) → (out : List Int) → Prog (List Int)
  | 0, _, out => .done out
  | left + 1, c, out =>
    .ld (.attached c) fun a =>
    if a = 0 then mixChannels m left (c + 1) out else
    .ld (.duty c) fun d =>
    if d = 0 then mixChannels m left (c + 1) out else
    .ld (.freq c) fun f =>
    if f = 0 then mixChannels m left (c + 1) out else
    .ld (.phase c) fun p =>
    let r := mixFrames m f 0 p out
    if r.overrange then .raise (.phaseOverrange c r.i)
    else .st (.phase c) r.p (mixChannels m left (c + 1) r.out)

/-- The program of BUFREQ (42_mixing_engine.md R160): OUT is zero-filled, then mixed; it ends with the buffer. -/
def progBufreq (cfg : Config) (n : Nat) : Prog (List Int) :=
  mixChannels cfg.modulus cfg.nCh 0 (List.replicate n 0)

/-- When the environment may deliver a request (43_backend_stream.md R185): BACKEND = RUNNING, by
the cell itself (under PerCell a DESIGN CHOICE, log 15), and MIX idle. -/
def requestAllowed (s : State) : Bool := decide (s.backend = .running ∧ s.mix = none)

/-- BUFREQ n (42_mixing_engine.md R160): fills and delivers one buffer of n frames. Outside R160's precondition no request
exists: refused. -/
def execBufreq (n : Nat) (s : State) : Host.Outcome State Fault Refusal :=
  if requestAllowed s then .next ((progBufreq s.cfg n).run (fun out t => t.deliver out) s)
  else .refused .requestNotAllowed

/-! ## One step of MIX -/

/-- MIX has taken request n: OUT is zero-filled, channel 0 is next. -/
def MixJob.start (n : Nat) : MixJob :=
  { n := n, c := 0, i := 0, attached := none, duty := none, freq := none, p := none, out := List.replicate n 0 }

/-- MIX goes on to the next channel; its latched copies are discarded (20_memory.md R69). -/
def MixJob.nextChannel (j : MixJob) : MixJob :=
  { j with c := j.c + 1, i := 0, attached := none, duty := none, freq := none, p := none }

/-- The gate value g of the channel, if it is latched. -/
def MixJob.latched (j : MixJob) : Gate → Option Nat
  | .attached => j.attached
  | .duty => j.duty
  | .freq => j.freq

/-- Latches a gate value (42_mixing_engine.md R163); a zero skips the channel (R162). -/
def MixJob.latch (j : MixJob) (g : Gate) (v : Nat) : MixJob :=
  if v = 0 then j.nextChannel
  else
    match g with
    | .attached => { j with attached := some v }
    | .duty => { j with duty := some v }
    | .freq => { j with freq := some v }

/-- The cell of a gate load. -/
def gateCell (c : Nat) : Gate → Cell
  | .attached => .attached c
  | .duty => .duty c
  | .freq => .freq c

/-- The gate load MIX makes next: in the order attached, duty, freq (42_mixing_engine.md R161), or, under PerCell, the one
the environment picks among those still to be made (20_memory.md R63); none when all three are latched. -/
def MixJob.nextGate (j : MixJob) (cons : Consistency) (pick : Gate) : Option Gate :=
  let inOrder := [Gate.attached, .duty, .freq].find? fun g => (j.latched g).isNone
  match cons with
  | .sc => inOrder
  | .perCell => if (j.latched pick).isNone then some pick else inOrder

/-- MIX loads the phase and runs its channel's frames, which take no step (00_scope.md R8; log 16): the working copy is
kept for the store, or PhaseOverrange is raised and the buffer abandoned. -/
def State.runFrames (s : State) (j : MixJob) (f p : Nat) : State :=
  let r := mixFrames s.cfg.modulus f 0 p j.out
  if r.overrange then { s with mix := none }.raise (.phaseOverrange j.c r.i)
  else { s with mix := some { j with i := r.i, p := some r.p, out := r.out } }

/-- One step of MIX: a gate load, the phase load with the frames, the phase store, or the delivery. An idle MIX takes
no step. A gate load returns what MIX sees in its cell at that step (20_memory.md R63, R64 (a), (c)), the phase load what
MIX stored last, since no other agent stores phases (R62 (b)). So a command that
completes while MIX is inside a channel's loads is seen by the loads still to come and can change the buffer being filled;
70_reset_and_hazards.md R226 says of such a command that it changes nothing in that buffer, and the model does not follow it
there (DESIGN CHOICE, safe; log 30). -/
def mixTick (pick : Gate) (s : State) : State :=
  match s.mix with
  | none => s
  | some j =>
    if s.cfg.nCh ≤ j.c then { s with mix := none }.deliver j.out
    else
      match j.p with
      | some p =>
        match s.store (.phase j.c) p with
        | some t => { t with mix := some j.nextChannel }
        | none => s.raise (.noSuchCell (.phase j.c))
      | none =>
        match j.nextGate s.cfg.consistency pick with
        | some g =>
          match s.view .mix (gateCell j.c g) with
          | some v => { s with mix := some (j.latch g v) }
          | none => s.raise (.noSuchCell (gateCell j.c g))
        | none =>
          match s.load (.phase j.c) with
          | some p => s.runFrames j (j.freq.getD 0) p
          | none => s.raise (.noSuchCell (.phase j.c))

end Sys2Proof.Machine
end

