-- ==== Sys2Proof/Machine/Mutate.lean ====
section
/-! DEFINITION. The channel state mutators and readers WRITE, WRITECH, TONE, NOTE, READ, READF, CHFREQ
(41_mutators.md). -/

namespace Sys2Proof.Machine

open Sys2Proof

/-- The duty store of WRITE and WRITECH, unclamped (41_mutators.md R132), and what follows it. -/
def storeDuty (c : Nat) (duty : Duty) : CmdProg :=
  .st (.duty c) duty.toNat <|
  activateWhen (duty != 0) <|
  .done (.ok 1)

/-- The program of WRITE (41_mutators.md R133). -/
def progWrite (cfg : Config) (pin : Nat) (duty : Duty) : CmdProg :=
  gate <| resolve cfg pin fun c => storeDuty c duty

/-- The program of WRITECH (41_mutators.md R131): the pin map is not consulted. -/
def progWritech (cfg : Config) (ch : Nat) (duty : Duty) : CmdProg :=
  gate <|
  if cfg.nCh ≤ ch then .done (.fail .invalidChannel)
  else
    .ld (.attached ch) fun a =>
    if a = 0 then .done (.fail .invalidChannel) else storeDuty ch duty

/-- `tone_body(pin, freq)` (41_mutators.md R136), shared by TONE and NOTE. -/
def toneBody (cfg : Config) (pin : Nat) (freq : Freq) : CmdProg :=
  resolve cfg pin fun c =>
  .st (.freq c) freq.toNat <|
  if freq != 0 then
    .ld (.resmax c) fun r =>
    .st (.duty c) (halfDuty r) <|
    activate <|
    .done (.ok freq)
  else
    .st (.duty c) 0 <|
    .done (.ok freq)

/-- The program of TONE (41_mutators.md R135). -/
def progTone (cfg : Config) (pin : Nat) (freq : Freq) : CmdProg :=
  gate <| toneBody cfg pin freq

/-- The program of NOTE (41_mutators.md R138): the note is tested before the pin. A frequency that the table makes 0 is
tone_body's to test (log 32). -/
def progNote (cfg : Config) (pin nt oct : Nat) : CmdProg :=
  gate <|
  if noteInvalid cfg nt oct then .done (.fail .invalidNote)
  else toneBody cfg pin (noteFreq cfg nt oct)

/-- The program of READ (41_mutators.md R142). -/
def progRead (cfg : Config) (pin : Nat) : CmdProg :=
  gate <| resolve cfg pin fun c =>
  .ld (.duty c) fun d => .done (.ok (BitVec.ofNat 32 d))

/-- The program of READF (41_mutators.md R143). -/
def progReadf (cfg : Config) (pin : Nat) : CmdProg :=
  gate <| resolve cfg pin fun c =>
  .ld (.freq c) fun f => .done (.ok (BitVec.ofNat 32 f))

/-- The program of CHFREQ (41_mutators.md R144): duty and phase are kept (R145). -/
def progChfreq (cfg : Config) (pin : Nat) (freq : Freq) (res : Nat) : CmdProg :=
  gate <| resolve cfg pin fun c =>
  .st (.freq c) freq.toNat <|
  .st (.resmax c) (resmaxOf res) <|
  activateWhen (freq != 0) <|
  .done (.ok freq)

/-- WRITE pin, duty (41_mutators.md R133). -/
def execWrite (pin : Nat) (duty : Duty) (s : State) : Host.Outcome State Fault Refusal :=
  .next (s.runCommand (progWrite s.cfg pin duty))

/-- WRITECH ch, duty (41_mutators.md R131). -/
def execWritech (ch : Nat) (duty : Duty) (s : State) : Host.Outcome State Fault Refusal :=
  .next (s.runCommand (progWritech s.cfg ch duty))

/-- TONE pin, freq (41_mutators.md R135). -/
def execTone (pin : Nat) (freq : Freq) (s : State) : Host.Outcome State Fault Refusal :=
  .next (s.runCommand (progTone s.cfg pin freq))

/-- NOTE pin, note, octave (41_mutators.md R138). -/
def execNote (pin nt oct : Nat) (s : State) : Host.Outcome State Fault Refusal :=
  .next (s.runCommand (progNote s.cfg pin nt oct))

/-- READ pin (41_mutators.md R142). -/
def execRead (pin : Nat) (s : State) : Host.Outcome State Fault Refusal :=
  .next (s.runCommand (progRead s.cfg pin))

/-- READF pin (41_mutators.md R143). -/
def execReadf (pin : Nat) (s : State) : Host.Outcome State Fault Refusal :=
  .next (s.runCommand (progReadf s.cfg pin))

/-- CHFREQ pin, freq, res (41_mutators.md R144). -/
def execChfreq (pin : Nat) (freq : Freq) (res : Nat) (s : State) : Host.Outcome State Fault Refusal :=
  .next (s.runCommand (progChfreq s.cfg pin freq res))

end Sys2Proof.Machine
end

