-- ==== Sys2Proof/Machine/Dispatch.lean ====
section
/-! DEFINITION. exec: one arm per instruction. -/

namespace Sys2Proof.Machine

open Sys2Proof

def exec (i : Instr) (s : State) : Host.Outcome State Fault Refusal :=
  match i with
  | .attach pin freq res => Sys2Proof.Machine.execAttach pin freq res s
  | .attachch pin freq res ch => Sys2Proof.Machine.execAttachch pin freq res ch s
  | .write pin duty => Sys2Proof.Machine.execWrite pin duty s
  | .writech ch duty => Sys2Proof.Machine.execWritech ch duty s
  | .tone pin freq => Sys2Proof.Machine.execTone pin freq s
  | .note pin nt oct => Sys2Proof.Machine.execNote pin nt oct s
  | .read pin => Sys2Proof.Machine.execRead pin s
  | .readf pin => Sys2Proof.Machine.execReadf pin s
  | .detach pin => Sys2Proof.Machine.execDetach pin s
  | .chfreq pin freq res => Sys2Proof.Machine.execChfreq pin freq res s
  | .bufreq n => Sys2Proof.Machine.execBufreq n s

end Sys2Proof.Machine
end

