-- ==== Sys2Proof/WellFormed.lean ====
section
/-! DEFINITION. The operands a word can carry: 30_encoding.md R99 lists what the assembler refuses because no command
word can carry it. Frequencies and duties are words already. -/

namespace Sys2Proof

/-- `pin` above 65535 is refused (R99). -/
abbrev pinFits (pin : Nat) : Prop := pin < 65536

/-- `ch` above 255 is refused (R99). -/
abbrev chFits (ch : Nat) : Prop := ch < 256

/-- `res` outside RES_MIN..RES_MAX is refused (R99; 00_scope.md R5). -/
abbrev resFits (cfg : Config) (res : Nat) : Prop := cfg.resMin ≤ res ∧ res ≤ cfg.resMax

/-- `note` or `octave` above 15 is refused (R99). -/
abbrev nibbleFits (v : Nat) : Prop := v < 16

/-- `n` above 65535 is refused (R99). -/
abbrev framesFit (n : Nat) : Prop := n < 65536

/-- An instruction some word encodes. -/
def Instr.wf (cfg : Config) : Instr → Bool
  | .attach pin _ res => decide (pinFits pin ∧ resFits cfg res)
  | .attachch pin _ res ch => decide (pinFits pin ∧ resFits cfg res ∧ chFits ch)
  | .write pin _ => decide (pinFits pin)
  | .writech ch _ => decide (chFits ch)
  | .tone pin _ => decide (pinFits pin)
  | .note pin nt oct => decide (pinFits pin ∧ nibbleFits nt ∧ nibbleFits oct)
  | .read pin => decide (pinFits pin)
  | .readf pin => decide (pinFits pin)
  | .detach pin => decide (pinFits pin)
  | .chfreq pin _ res => decide (pinFits pin ∧ resFits cfg res)
  | .bufreq n => decide (framesFit n)

end Sys2Proof
end

