-- ==== Sys2Proof/Decode.lean ====
section
/-! DEFINITION. The command word (30_encoding.md R81 to R87), the opcode table (R83), the total decoder (R86, R92), the
encoder, the sink request word (R96), and the assembler's refusals and pseudo-instructions (R98 to R101). -/

namespace Sys2Proof

/-! ## The fields of a command word -/

/-- The command word op ‖ rn ‖ ch ‖ pin ‖ imm (R81). -/
def packFields (op rn : BitVec 4) (ch : BitVec 8) (pin : BitVec 16) (imm : BitVec 32) : CmdWord :=
  op ++ (rn ++ (ch ++ (pin ++ imm)))

/-- CW[63:60], the opcode (R81). -/
def opField (w : CmdWord) : BitVec 4 := w.extractLsb' 60 4

/-- CW[59:56]: res_m1 or note (R81). -/
def rnField (w : CmdWord) : BitVec 4 := w.extractLsb' 56 4

/-- CW[55:48], the channel (R81). -/
def chField (w : CmdWord) : BitVec 8 := w.extractLsb' 48 8

/-- CW[51:48], the octave of format PN (R81). -/
def octaveField (w : CmdWord) : BitVec 4 := w.extractLsb' 48 4

/-- CW[47:32], the pin (R81). -/
def pinField (w : CmdWord) : BitVec 16 := w.extractLsb' 32 16

/-- CW[31:0], the frequency or the duty (R81). -/
def immField (w : CmdWord) : BitVec 32 := w.extractLsb' 0 32

/-! ## The opcode table -/

/-- The ten commands of the command port. -/
inductive Opcode where
  | attach
  | attachch
  | write
  | writech
  | tone
  | note
  | read
  | readf
  | detach
  | chfreq
  deriving DecidableEq, Repr

/-- One row of spec/opcode_table.json: a word w selects it iff `w AND mask = match` (R83). -/
structure OpRow where
  op : Opcode
  pattern : CmdWord
  mask : CmdWord
  deriving DecidableEq, Repr

/-- The ten command rows of spec/opcode_table.json. Each mask includes the opcode and the row's reserved fields (R85). -/
def opcodeTable : List OpRow :=
  [⟨.attach,   0x1000000000000000#64, 0xF0FF000000000000#64⟩,
   ⟨.attachch, 0x2000000000000000#64, 0xF000000000000000#64⟩,
   ⟨.write,    0x3000000000000000#64, 0xFFFF000000000000#64⟩,
   ⟨.writech,  0x4000000000000000#64, 0xFF00FFFF00000000#64⟩,
   ⟨.tone,     0x5000000000000000#64, 0xFFFF000000000000#64⟩,
   ⟨.note,     0x6000000000000000#64, 0xF0F00000FFFFFFFF#64⟩,
   ⟨.read,     0x7000000000000000#64, 0xFFFF0000FFFFFFFF#64⟩,
   ⟨.readf,    0x8000000000000000#64, 0xFFFF0000FFFFFFFF#64⟩,
   ⟨.detach,   0x9000000000000000#64, 0xFFFF0000FFFFFFFF#64⟩,
   ⟨.chfreq,   0xA000000000000000#64, 0xF0FF000000000000#64⟩]

/-- R83: a word w selects a row iff `w AND mask = match`. -/
def OpRow.selects (r : OpRow) (w : CmdWord) : Bool := w &&& r.mask == r.pattern

/-- R84: the operands of a word that selected a row, each used as it stands, none extended or scaled. -/
def assembleOperands (op : Opcode) (w : CmdWord) : Instr :=
  let pin := (pinField w).toNat
  let ch := (chField w).toNat
  let res := (rnField w).toNat + 1
  match op with
  | .attach => .attach pin (immField w) res
  | .attachch => .attachch pin (immField w) res ch
  | .write => .write pin (immField w)
  | .writech => .writech ch (immField w)
  | .tone => .tone pin (immField w)
  | .note => .note pin (rnField w).toNat (octaveField w).toNat
  | .read => .read pin
  | .readf => .readf pin
  | .detach => .detach pin
  | .chfreq => .chfreq pin (immField w) res

/-- Why a word is an illegal command (R86). -/
inductive DecodeError where
  /-- Opcode 0x0 or 0xB to 0xF. -/
  | reservedOpcode
  /-- A defined opcode with a nonzero reserved field (R85). -/
  | reservedField
  deriving DecidableEq, Repr

/-- R86, R92: every 64-bit word either selects one row or is illegal; the answer depends on the word alone. -/
def decodeCommand (w : CmdWord) : Except DecodeError Instr :=
  match opcodeTable.find? (fun r => r.selects w) with
  | some r => .ok (assembleOperands r.op w)
  | none =>
    if opField w = 0x0#4 ∨ 0xB#4 ≤ opField w then .error .reservedOpcode else .error .reservedField

/-- R96: a sink request word is the frame count n, and nothing else arrives on that port. -/
def decodeRequest (w : SinkWord) : Instr := .bufreq w.toNat

/-- A word on one of the two input ports (R80). -/
inductive PortWord where
  | command (w : CmdWord)
  | request (w : SinkWord)
  deriving DecidableEq, Repr

/-- The decoder of both input ports. -/
def decode : PortWord → Except DecodeError Instr
  | .command w => decodeCommand w
  | .request w => .ok (decodeRequest w)

/-! ## The encoder -/

/-- The word of a well-formed instruction, from the formats of R82 and the opcode map of R83; reserved fields are zero. -/
def encode : Instr → PortWord
  | .attach pin freq res =>
    .command (packFields 0x1#4 (BitVec.ofNat 4 (res - 1)) 0#8 (BitVec.ofNat 16 pin) freq)
  | .attachch pin freq res ch =>
    .command (packFields 0x2#4 (BitVec.ofNat 4 (res - 1)) (BitVec.ofNat 8 ch) (BitVec.ofNat 16 pin) freq)
  | .write pin duty => .command (packFields 0x3#4 0#4 0#8 (BitVec.ofNat 16 pin) duty)
  | .writech ch duty => .command (packFields 0x4#4 0#4 (BitVec.ofNat 8 ch) 0#16 duty)
  | .tone pin freq => .command (packFields 0x5#4 0#4 0#8 (BitVec.ofNat 16 pin) freq)
  | .note pin note octave =>
    .command (packFields 0x6#4 (BitVec.ofNat 4 note) (BitVec.ofNat 8 octave) (BitVec.ofNat 16 pin) 0#32)
  | .read pin => .command (packFields 0x7#4 0#4 0#8 (BitVec.ofNat 16 pin) 0#32)
  | .readf pin => .command (packFields 0x8#4 0#4 0#8 (BitVec.ofNat 16 pin) 0#32)
  | .detach pin => .command (packFields 0x9#4 0#4 0#8 (BitVec.ofNat 16 pin) 0#32)
  | .chfreq pin freq res =>
    .command (packFields 0xA#4 (BitVec.ofNat 4 (res - 1)) 0#8 (BitVec.ofNat 16 pin) freq)
  | .bufreq n => .request (BitVec.ofNat 16 n)

/-- The instruction the decoder reads from the table's numbering of an instruction's bits: a row of 16 bits is the sink
request word, every other row a command word whose bits above nbits are zero. -/
def decodeTableWord (nbits w : Nat) : Option Instr :=
  if nbits = 16 then some (decodeRequest (BitVec.ofNat 16 w))
  else
    match decodeCommand (BitVec.ofNat 64 (w % 2 ^ nbits)) with
    | .ok i => some i
    | .error _ => none

/-! ## The assembler -/

/-- R98, R99: the raw frequency of num / den Hz; refused when negative, not a multiple of 1/2^FREQ_FRAC Hz, or too large
for the word. -/
def asmFreq (freqFrac : Nat) (num : Int) (den : Nat) : Option Freq :=
  let raw := num * 2 ^ freqFrac
  if 0 ≤ num ∧ 0 < den ∧ raw % den = 0 ∧ raw / den < 2 ^ 32 then some (BitVec.ofInt 32 (raw / den)) else none

/-- R99: the word of a duty; refused when it does not fit DUTY_W bits (00_scope.md R5). -/
def asmDuty (cfg : Config) (duty : Nat) : Option Duty := if duty < 2 ^ cfg.dutyW then some (BitVec.ofNat 32 duty) else none

/-- R99: the assembler emits a word for the instructions a word can carry and refuses the others. -/
def assemble (cfg : Config) (i : Instr) : Option PortWord := if i.wf cfg then some (encode i) else none

/-- A line of a consumer's program: a command, or the wait of R100, which is no command. -/
inductive AsmLine where
  | instr (i : Instr)
  | wait (ms : Nat)
  deriving DecidableEq, Repr

/-- R100: PLAYTONE pin, freq, ms = TONE pin, freq ; WAIT ms ; TONE pin, 0. -/
def playTone (pin : Nat) (freq : Freq) (ms : Nat) : List AsmLine :=
  [.instr (.tone pin freq), .wait ms, .instr (.tone pin 0)]

/-- R100: MELODY pin, (f1, ms1), ... = PLAYTONE of each pair in order; a rest is a pair of frequency 0. -/
def melody (pin : Nat) (notes : List (Freq × Nat)) : List AsmLine :=
  notes.flatMap fun p => playTone pin p.1 p.2

/-- R101, R140: the note names the assembler of this spec numbers 0 to 11 (PRESUMED, log 9). -/
def noteNames : List String := ["C", "Cs", "D", "Eb", "E", "F", "Fs", "G", "Gs", "A", "Bb", "B"]

end Sys2Proof
end

