-- ==== Sys2Proof/Machine/Agents.lean ====
section
/-! DEFINITION. The control agents one step at a time (20_memory.md R61): a command's program resumed after the accesses it
has made, each step one load, one store, one draw or the response; and, under CONSISTENCY = PerCell, the stores held by
their agent and those not yet seen by every agent (R62, R63). -/

namespace Sys2Proof.Machine

open Sys2Proof

/-- The program of a command; BUFREQ is no command (30_encoding.md R96). -/
def commandProgram (cfg : Config) : Instr → Option CmdProg
  | .attach pin freq res => some (progAttach cfg pin freq res)
  | .attachch pin freq res ch => some (progAttachch cfg pin freq res ch)
  | .write pin duty => some (progWrite cfg pin duty)
  | .writech ch duty => some (progWritech cfg ch duty)
  | .tone pin freq => some (progTone cfg pin freq)
  | .note pin nt oct => some (progNote cfg pin nt oct)
  | .read pin => some (progRead cfg pin)
  | .readf pin => some (progReadf cfg pin)
  | .detach pin => some (progDetach cfg pin)
  | .chfreq pin freq res => some (progChfreq cfg pin freq res)
  | .bufreq _ => none

/-- What is left of the command a control agent has in progress. -/
def CtrlJob.rest (cfg : Config) (j : CtrlJob) : Option CmdProg :=
  (commandProgram cfg j.instr).map fun p => p.resume j.moved

/-- A control agent that has just taken a command. -/
def CtrlJob.start (i : Instr) : CtrlJob := { instr := i, moved := [] }

/-- The agent's command in progress, if the agent exists and is not idle. -/
def State.jobOf (s : State) (k : Nat) : Option CtrlJob := (s.ctrls[k]?).join

/-- Control agent k's command in progress becomes j. -/
def State.putJob (s : State) (k : Nat) (j : Option CtrlJob) : State := { s with ctrls := s.ctrls.set k j }

/-- What control agent k's load of x returns: its own latest store to x where that is still held (20_memory.md R62 (b)),
else what it sees in the cell. -/
def State.loadFor (s : State) (k : Nat) (x : Cell) : Option Nat :=
  match s.held.reverse.find? fun h => h.agent == k && h.cell == x with
  | some h => some h.value
  | none => s.view (.ctrl k) x

/-- The value moved is kept, and the agent stands before its next access. -/
def CtrlJob.advance (j : CtrlJob) (v : Nat) : CtrlJob := { j with moved := j.moved ++ [v] }

/-- The agent's store: into the cell at once under SC, held under PerCell (20_memory.md R63; log 15). -/
def State.storeFor (s : State) (k : Nat) (j : CtrlJob) (x : Cell) (v : Nat) : State :=
  match s.cfg.consistency with
  | .sc =>
    match s.store x v with
    | some t => t.putJob k (some (j.advance v))
    | none => s.raise (.noSuchCell x)
  | .perCell => { s.putJob k (some (j.advance v)) with held := s.held ++ [⟨k, x, x.kept v⟩] }

/-- One step of control agent k with job j, whose program still to run is p. The response follows the last cell access
(30_encoding.md R91; log 14); under PerCell it waits for no store to become visible (log 15). -/
def State.stepProgram (s : State) (k : Nat) (j : CtrlJob) : CmdProg → State
  | .done r => (s.putJob k none).reply k r
  | .ld x _ =>
    match s.loadFor k x with
    | some v => s.putJob k (some (j.advance v))
    | none => s.raise (.noSuchCell x)
  | .st x v _ => s.storeFor k j x v
  | .draw _ => s.answered.putJob k (some (j.advance s.answer.toNat))
  | .raise f => s.raise f

/-- One step of control agent k; an idle agent takes none. -/
def ctrlTick (k : Nat) (s : State) : State :=
  match s.jobOf k with
  | none => s
  | some j =>
    match j.rest s.cfg with
    | some p => s.stepProgram k j p
    | none => s

/-- The n-th held store, if no older store of its agent to the same cell is held (20_memory.md R62 (b), (c)). -/
def State.drainable (s : State) (n : Nat) : Option Held :=
  s.held[n]?.filter fun h => !(s.held.take n).any fun o => o.agent == h.agent && o.cell == h.cell

/-- The n-th held store reaches its cell, if it may (20_memory.md R63: in any order). -/
def drainTick (n : Nat) (s : State) : State :=
  match s.drainable n with
  | some h => { s.commit h with held := s.held.eraseIdx n }
  | none => s

/-- The n-th unseen store is seen by its agent, in any order (20_memory.md R62 (d), R63). Where an older store to the cell is
unseen by the agent still, it will never see the one in between. -/
def seeTick (n : Nat) (s : State) : State := { s with unseen := s.unseen.eraseIdx n }

end Sys2Proof.Machine
end

