-- ==== Sys2Proof/Machine/Fetch.lean ====
section
/-! DEFINITION. What the next move of the environment is (10_state.md R20 (c), 60_exceptions.md R196): a word delivered on a
port, decoded, or one step of one agent. Machine/Step.lean hands the instruction found here to exec. -/

namespace Sys2Proof.Machine

open Sys2Proof

/-- What the next move comes to. -/
inductive Fetched where
  /-- Instruction i is executed whole in state s. -/
  | run (i : Instr) (s : State)
  /-- The step is complete. -/
  | settled (o : Host.Outcome State Fault Refusal)

/-- The answer to a word that decodes to no command (30_encoding.md R86): no cell is loaded or stored. -/
def answerIllegal (k : Nat) (s : State) : State := s.reply k (.fail .illegalCommand)

/-- Delivery of command word w to control agent k: the agent exists and is idle (60_exceptions.md R196, D32), and the word
is decoded before anything else (30_encoding.md R92). -/
def deliverCommand (k : Nat) (w : CmdWord) (s : State) (accept : Instr → Fetched) : Fetched :=
  if s.cfg.nCtrl ≤ k then .settled (.refused (.noSuchAgent k))
  else if (s.jobOf k).isSome then .settled (.refused (.agentBusy k))
  else
    match decodeCommand w with
    | .ok i => accept i
    | .error _ => .settled (.next (answerIllegal k s))

/-- One move of the environment, in any order (20_memory.md R61): requests and MIX's steps are taken also while a command is
between two of its stores. So any number of whole buffers may be mixed with the mismatched frequency and duty of a TONE,
where 70_reset_and_hazards.md R227 speaks of at most one; the model follows R61 and decision D29, no fairness (DESIGN
CHOICE, safe; log 29). -/
def handleEvent (s : State) : Event → Fetched
  | .command k w =>
    let t := { s with cur := k }
    deliverCommand k w t fun i => .run i (t.settled (.ctrl k))
  | .request n => .run (decodeRequest n) (s.settled .mix)
  | .issue k w =>
    let t := { s with cur := k }
    deliverCommand k w t fun i => .settled (.next (t.putJob k (some (.start i))))
  | .ask n =>
    if requestAllowed s then .settled (.next { s with mix := some (.start n.toNat) })
    else .settled (.refused .requestNotAllowed)
  | .ctrl k => .settled (.next (ctrlTick k { s with cur := k }))
  | .drain n => .settled (.next (drainTick n s))
  | .see n => .settled (.next (seeTick n s))
  | .mix g => .settled (.next (mixTick g s))

/-- The next move. A recorded fault stops the machine (60_exceptions.md R194). With no move given nothing happens: nothing
executes until the environment delivers a command (70_reset_and_hazards.md R221). -/
def fetch (s : State) : Fetched :=
  match s.fault with
  | some f => .settled (.fault f)
  | none =>
    match s.events with
    | [] => .settled (.next s)
    | e :: es => handleEvent { s with events := es } e

/-- The state in which the next step runs the instruction of these bits (log 25): a row of 16 bits is a sink request, for
which BACKEND is RUNNING and MIX idle; every other row a command word for control agent 0, which is idle. -/
def placeWord (s : State) (nbits w : Nat) : State :=
  if nbits = 16 then
    { s with fault := none, backend := .running, mix := none, events := .request (BitVec.ofNat 16 w) :: s.events }
  else
    { s with
      fault := none
      ctrls := s.ctrls.set 0 none
      events := .command 0 (BitVec.ofNat 64 (w % 2 ^ nbits)) :: s.events }

end Sys2Proof.Machine
end

