-- ==== Sys2Proof/Safety.lean ====
section
/-! DEFINITION. The terms claims use: the invariant of every state (10_state.md R27 and the shape of the cells), what a safe
run is, and the document's words for a channel's sound (42_mixing_engine.md). -/

namespace Sys2Proof.Machine

open Sys2Proof

/-! ## Cells and programs that stay inside the machine -/

/-- The cell exists (20_memory.md R50). -/
def Cell.inRange (cfg : Config) : Cell → Prop
  | .freq c | .phase c | .duty c | .resmax c | .attached c => c < cfg.nCh
  | .pinmap p => p < cfg.nPin
  | .backend => True

/-- The cell may hold the value: a phase is below M (10_state.md R27 (a)), an entry is UNASSIGNED or a channel (R27 (b)). -/
def Cell.mayHold (cfg : Config) : Cell → Nat → Prop
  | .phase _, v => v < cfg.modulus
  | .pinmap _, v => v = unassigned.toNat ∨ v < cfg.nCh
  | _, _ => True

/-- Whatever values its loads return, the program touches only cells that exist and stores only values they may hold. -/
def Prog.staysIn (cfg : Config) {α : Type} : Prog α → Prop
  | .done _ => True
  | .ld x k => x.inRange cfg ∧ ∀ v, x.mayHold cfg v → (k v).staysIn cfg
  | .st x v k => x.inRange cfg ∧ x.mayHold cfg v ∧ k.staysIn cfg
  | .draw k => ∀ b, (k b).staysIn cfg
  | .raise f => ∃ c i, f = .phaseOverrange c i

/-- A cell control agents write: every cell but the phases (10_state.md R33, 60_exceptions.md R205). -/
def Cell.controlOwned : Cell → Bool
  | .phase _ => false
  | _ => true

/-- The program stores to cells of control agents alone, and raises no fault: PhaseOverrange is MIX's
(60_exceptions.md R194). -/
def Prog.storesOwned {α : Type} : Prog α → Prop
  | .done _ => True
  | .ld _ k => ∀ v, (k v).storesOwned
  | .st x _ k => x.controlOwned = true ∧ k.storesOwned
  | .draw k => ∀ b, (k b).storesOwned
  | .raise _ => False

/-- A command in progress: the rest of it stays in the machine and stores to control agents' cells alone. -/
def CtrlJob.sound (cfg : Config) (j : CtrlJob) : Prop :=
  ∃ p, j.rest cfg = some p ∧ p.staysIn cfg ∧ p.storesOwned

/-- A store on its way: to a cell control agents write, of a value it may hold. -/
def Cell.sound (cfg : Config) (x : Cell) (v : Nat) : Prop := x.inRange cfg ∧ x.mayHold cfg v ∧ x.controlOwned = true

/-- A buffer in progress (10_state.md R34 (b), R35): the position is inside the loops, OUT holds n levels, each at most the
number of channels mixed so far, and the working phase is below M. -/
def MixJob.sound (cfg : Config) (j : MixJob) : Prop :=
  j.c ≤ cfg.nCh ∧ j.i ≤ j.n ∧ j.out.length = j.n ∧
  (∀ p, j.p = some p → p < cfg.modulus ∧ j.c < cfg.nCh) ∧
  ∀ x ∈ j.out, x.natAbs ≤ j.c + (if j.p.isSome then 1 else 0)

/-- The invariant of every state, mid-command and mid-buffer states included. -/
structure State.Inv (s : State) : Prop where
  /-- The parameters are in their ranges (00_scope.md R5, R6). -/
  config : s.cfg.wf
  /-- N_CH channels, N_PIN entries, N_CTRL agents: never resized (10_state.md R21, R29). -/
  channels : s.chans.length = s.cfg.nCh
  entries : s.pins.length = s.cfg.nPin
  agents : s.ctrls.length = s.cfg.nCtrl
  /-- Every phase is below M (10_state.md R27 (a)). -/
  phases : ∀ ch ∈ s.chans, ch.phase < s.cfg.modulus
  /-- Every entry is UNASSIGNED or a channel index (10_state.md R27 (b)). -/
  pinmap : ∀ m ∈ s.pins, m = unassigned ∨ m.toNat < s.cfg.nCh
  /-- Commands in progress. -/
  commands : ∀ j, some j ∈ s.ctrls → j.sound s.cfg
  /-- The buffer in progress. -/
  buffer : ∀ j, s.mix = some j → j.sound s.cfg
  /-- Stores not yet in their cells, and the values agents see that have not seen a store yet (20_memory.md R62, R63). -/
  held : ∀ h ∈ s.held, h.cell.sound s.cfg h.value
  unseen : ∀ u ∈ s.unseen, u.cell.sound s.cfg u.value
  /-- Under SC every store is in its cell and seen by all (20_memory.md R63). -/
  inOrder : s.cfg.consistency = .sc → s.held = [] ∧ s.unseen = []
  /-- Every level delivered lies in -N_CH..+N_CH (42_mixing_engine.md R168). -/
  levels : ∀ b ∈ s.sink, ∀ l ∈ b, l.toInt.natAbs ≤ s.cfg.nCh
  /-- No cell outside the machine was touched. -/
  noWildAccess : ∀ x, s.fault ≠ some (.noSuchCell x)

/-- Everything but the cells, the responses and the draws: what no command touches (20_memory.md R50, R56). -/
def State.sameOutside (s t : State) : Prop :=
  t.cfg = s.cfg ∧ t.ctrls = s.ctrls ∧ t.mix = s.mix ∧ t.sink = s.sink ∧ t.cur = s.cur ∧ t.events = s.events ∧
  t.held = s.held ∧ t.unseen = s.unseen

/-- A move that is one step of one agent, not a whole operation (20_memory.md R61). -/
def isSingleStep : Event → Bool
  | .command _ _ => false
  | .request _ => false
  | _ => true

/-- The cell and the value a single step stores (20_memory.md R61, R63): a control agent's store under SC, a store held until
now under PerCell, or the phase MIX stores; none for every other step. -/
def State.storeMade (s : State) : Event → Option (Cell × Nat)
  | .ctrl k =>
    (s.jobOf k).bind fun j =>
      match j.rest s.cfg with
      | some (.st x v _) => if s.cfg.consistency = .sc then some (x, v) else none
      | _ => none
  | .drain n => (s.drainable n).map fun h => (h.cell, h.value)
  | .mix _ =>
    s.mix.bind fun j => if s.cfg.nCh ≤ j.c then none else j.p.map fun p => (.phase j.c, p)
  | _ => none

/-- What a load of cell x by agent a returns. -/
def State.seenBy (s : State) : Agent → Cell → Option Nat
  | .ctrl k, x => s.loadFor k x
  | .mix, x => s.view .mix x

/-- The agent exists (10_state.md R20). -/
def Agent.exists (cfg : Config) : Agent → Prop
  | .ctrl k => k < cfg.nCtrl
  | .mix => True

/-- A move of MIX: its steps, and a whole buffer. -/
def isMixMove : Event → Bool
  | .mix _ => true
  | .request _ => true
  | _ => false

/-- A safe state: no fault is recorded (60_exceptions.md R194). -/
def State.safe (s : State) : Prop := s.fault = none

/-- A run of n steps, which ends early at a fault or a refusal. -/
def runSteps : Nat → State → Host.Outcome State Fault Refusal
  | 0, s => .next s
  | n + 1, s =>
    match step s with
    | .next t => runSteps n t
    | o => o

/-! ## What a channel is to MIX -/

/-- An audible channel: attached, duty and frequency nonzero (00_scope.md glossary; 42_mixing_engine.md R162). -/
def Channel.audible (ch : Channel) : Bool := ch.attached && ch.duty != 0 && ch.freq != 0

/-- The contribution to frame i of a buffer, from the phase the channel has at its start (42_mixing_engine.md R171). -/
def Channel.contribution (m : Nat) (ch : Channel) (i : Nat) : Int :=
  if ch.audible then squareWave m ((ch.phase + i * ch.freq.toNat) % m) else 0

/-- The channel after k frames (42_mixing_engine.md R171): only an audible channel's phase has moved (R162). -/
def Channel.afterFrames (m k : Nat) (ch : Channel) : Channel :=
  if ch.audible then { ch with phase := (ch.phase + k * ch.freq.toNat) % m } else ch

/-- The level of frame i: the sum over the channels (42_mixing_engine.md R168). -/
def levelAt (m : Nat) (chans : List Channel) (i : Nat) : Int := (chans.map fun ch => ch.contribution m i).sum

/-- Every audible channel's frequency is at most SAMPLE_RATE (42_mixing_engine.md R166, 70_reset_and_hazards.md R233). -/
def State.tuned (s : State) : Prop := ∀ ch ∈ s.chans, ch.audible → ch.freq.toNat ≤ s.cfg.modulus

/-- 10_state.md R27 (d): a Free channel has duty 0. -/
def State.freeIsSilent (s : State) : Prop := ∀ ch ∈ s.chans, ch.attached = false → ch.duty = 0

/-! ## What a command meets -/

/-- The entry of a pin as a number; UNASSIGNED where there is no such entry. -/
def State.entry (s : State) (pin : Nat) : Nat := (s.pins.getD pin unassigned).toNat

/-- The pin router translates the pin to Attached channel c, whose cells are ch (20_memory.md R58, R59). -/
def State.resolves (s : State) (pin c : Nat) (ch : Channel) : Prop :=
  pin < s.cfg.nPin ∧ pin < s.pins.length ∧ s.entry pin = c ∧ c ≠ unassigned.toNat ∧ s.chans[c]? = some ch ∧
  ch.attached = true

/-- `gate_attach` lets the command proceed (43_backend_stream.md R181): not inert, and a first attach finds the device. -/
def State.deviceThere (s : State) : Prop := s.backend ≠ .failed ∧ (s.backend = .uninit → s.answer = true)

/-- The state `gate_attach` leaves when the command proceeds: BACKEND has left UNINIT. -/
def State.opened (s : State) : State := if s.backend = .uninit then s.answered.putBackend .ready else s

/-- `activate` lets the command succeed (43_backend_stream.md R183): not inert, and a start the device accepts. -/
def State.streamStarts (s : State) : Prop := s.backend ≠ .failed ∧ (s.backend = .ready → s.answer = true)

/-- The state `activate` leaves when the command succeeds: the stream runs if it was ready. -/
def State.started (s : State) : State := if s.backend = .ready then s.answered.putBackend .running else s

/-- The state a write path with a value that is or is not zero leaves (43_backend_stream.md R184). -/
def State.startedWhen (s : State) (nonzero : Bool) : State := if nonzero then s.started else s

/-- The index of the lowest Free channel; the number of channels when there is none (40_attach_detach.md R111). -/
def State.lowestFree (s : State) : Nat := s.chans.findIdx fun ch => !ch.attached

/-- The cells a command may store to, by 10_state.md R37's W entries; which channel is computed as the command does. -/
def cellsWritten (s : State) : Instr → List Cell
  | .attach pin _ _ =>
    [.backend, .freq s.lowestFree, .resmax s.lowestFree, .attached s.lowestFree, .pinmap pin]
  | .attachch pin _ _ ch => [.backend, .freq ch, .resmax ch, .attached ch, .pinmap pin]
  | .write pin _ => [.backend, .duty (s.entry pin)]
  | .writech ch _ => [.backend, .duty ch]
  | .tone pin _ => [.backend, .freq (s.entry pin), .duty (s.entry pin)]
  | .note pin _ _ => [.backend, .freq (s.entry pin), .duty (s.entry pin)]
  | .read _ => []
  | .readf _ => []
  | .detach pin => [.duty (s.entry pin), .attached (s.entry pin), .pinmap pin]
  | .chfreq pin _ _ => [.backend, .freq (s.entry pin), .resmax (s.entry pin)]
  | .bufreq _ => (List.range s.chans.length).map .phase

/-- The ten commands; BUFREQ is no command (30_encoding.md R96). -/
def isCommand : Instr → Bool
  | .bufreq _ => false
  | _ => true

/-- A command that runs `activate` where it reaches its stores (43_backend_stream.md R184): WRITE and WRITECH of a nonzero
duty, TONE and CHFREQ of a nonzero frequency, NOTE of a note it accepts. -/
def activates (cfg : Config) : Instr → Bool
  | .write _ duty => duty != 0
  | .writech _ duty => duty != 0
  | .tone _ freq => freq != 0
  | .note _ nt oct => !noteInvalid cfg nt oct
  | .chfreq _ freq _ => freq != 0
  | _ => false

/-- A pin-indexed command that runs `resolve`, and its pin (20_memory.md R58). -/
def routedPin : Instr → Option Nat
  | .write pin _ => some pin
  | .tone pin _ => some pin
  | .note pin _ _ => some pin
  | .read pin => some pin
  | .readf pin => some pin
  | .chfreq pin _ _ => some pin
  | _ => none

/-- A NOTE whose note and octave the command takes; every other instruction has none to reject (41_mutators.md R138). -/
def noteAccepted (cfg : Config) : Instr → Bool
  | .note _ nt oct => !noteInvalid cfg nt oct
  | _ => true

/-- The channel ATTACH and ATTACHCH leave (40_attach_detach.md R110): duty and phase are kept (R113). -/
def Channel.taken (ch : Channel) (freq : Freq) (res : Nat) : Channel :=
  { ch with freq := freq, resmax := BitVec.ofNat 16 (2 ^ res - 1), attached := true }

/-- The channel TONE and NOTE leave (41_mutators.md R136): half the resolution maximum as the duty, or 0. -/
def Channel.toned (ch : Channel) (freq : Freq) : Channel :=
  { ch with freq := freq, duty := if freq = 0 then 0 else BitVec.ofNat 32 (ch.resmax.toNat / 2) }

/-- The channel CHFREQ leaves (41_mutators.md R144): duty and phase are kept (R145). -/
def Channel.retuned (ch : Channel) (freq : Freq) (res : Nat) : Channel :=
  { ch with freq := freq, resmax := BitVec.ofNat 16 (2 ^ res - 1) }

/-- The steps MIX still takes at most: five accesses for each channel from the position on, less those made for this one,
and the delivery (42_mixing_engine.md R161). -/
def MixJob.stepsLeft (cfg : Config) (j : MixJob) : Nat :=
  5 * (cfg.nCh - j.c) + 1 -
    (j.attached.isSome.toNat + j.duty.isSome.toNat + j.freq.isSome.toNat + j.p.isSome.toNat)

/-- The accesses of the longest command: ATTACH's three to BACKEND, one for each channel of its scan and four stores, or
TONE's nine. -/
def longestCommand (cfg : Config) : Nat := cfg.nCh + 8

/-- The steps a control agent still takes at most for its command: its accesses and the response (20_memory.md R61). -/
def CtrlJob.stepsLeft (cfg : Config) (j : CtrlJob) : Nat := longestCommand cfg - j.moved.length + 1

/-- The failure a command answers with: DETACH's result is 1, every other command's 0 (60_exceptions.md R191). -/
def failureOf (i : Instr) (k : Cause) : Reply :=
  match i with
  | .detach _ => .detached k
  | _ => .fail k

end Sys2Proof.Machine
end

