-- ==== Sys2Proof/Certificates/Slice0/Obligations.lean ====
section
/-! DEFINITION. The statements about the machine, from the numbered rules of spec/. -/

open Sys2Proof Sys2Proof.Machine

/-! ## Delivery and decoding -/

/-- R91, R92, R196: a command word delivered whole to an idle agent runs the instruction it decodes to, on that agent, whose
own stores have reached their cells and who has seen every store (log 2); where it holds no store and has seen every store,
as always under SC, that is the state itself. -/
def Obligations.DeliveredCommandRunsInstruction : Prop :=
  ∀ (s : State) (k : Nat) (w : CmdWord) (i : Instr) (es : List Event),
    s.fault = none → s.events = .command k w :: es → k < s.cfg.nCtrl → s.jobOf k = none → decodeCommand w = .ok i →
      step s = exec i (State.settled { s with events := es, cur := k } (.ctrl k)) ∧
      ((∀ h ∈ s.held, h.agent ≠ k) → (∀ u ∈ s.unseen, u.agent ≠ .ctrl k) →
        step s = exec i { s with events := es, cur := k })

/-- R96, R160: a request delivered whole runs BUFREQ, MIX having seen every store (log 2); where it has, as always under SC,
that is the state itself. -/
def Obligations.DeliveredRequestRunsBufreq : Prop :=
  ∀ (s : State) (n : SinkWord) (es : List Event),
    s.fault = none → s.events = .request n :: es →
      step s = exec (.bufreq n.toNat) (State.settled { s with events := es } .mix) ∧
      ((∀ u ∈ s.unseen, u.agent ≠ .mix) → step s = exec (.bufreq n.toNat) { s with events := es })

/-- R86: every word selects exactly one row and decodes to an instruction, or selects none; then, in every state of BACKEND
and whether an idle agent takes it whole or step by step, it is answered (0, IllegalCommand) and nothing else changes. -/
def Obligations.IllegalWordIsAnswered : Prop :=
  ∀ w : CmdWord,
    ((∃ r ∈ opcodeTable, r.selects w = true ∧ ∀ q ∈ opcodeTable, q.selects w = true → q = r) ∧
      ∃ i, decodeCommand w = .ok i) ∨
    ((∀ r ∈ opcodeTable, r.selects w = false) ∧
      ∀ (s : State) (k : Nat) (e : Event) (es : List Event),
        s.fault = none → s.events = e :: es → (e = .command k w ∨ e = .issue k w) → k < s.cfg.nCtrl →
        s.jobOf k = none → step s = .next ({ s with events := es, cur := k }.reply k ⟨0, .illegalCommand⟩))

/-- R92: what a word does is decided by the word alone, in every state, whether an idle agent takes it whole or step by
step: it is one instruction, which is executed, or it is illegal, which is answered. -/
def Obligations.DecodingReadsTheWordAlone : Prop :=
  ∀ w : CmdWord,
    (∃ i : Instr, ∀ (s : State) (k : Nat) (es : List Event), s.fault = none → k < s.cfg.nCtrl → s.jobOf k = none →
      (s.events = .command k w :: es → step s = exec i (State.settled { s with events := es, cur := k } (.ctrl k))) ∧
      (s.events = .issue k w :: es →
        step s = .next (State.putJob { s with events := es, cur := k } k (some (.start i))))) ∨
    ∀ (s : State) (k : Nat) (e : Event) (es : List Event),
      s.fault = none → s.events = e :: es → (e = .command k w ∨ e = .issue k w) → k < s.cfg.nCtrl →
      s.jobOf k = none → step s = .next ({ s with events := es, cur := k }.reply k ⟨0, .illegalCommand⟩)

/-- R84: every operand is the field of the word, unsigned, used as it stands; a resolution is its field plus one. -/
def Obligations.OperandsAreTheWordsFields : Prop :=
  ∀ (w : CmdWord) (i : Instr), decodeCommand w = .ok i →
    let pin := (w.extractLsb' 32 16).toNat
    let ch := (w.extractLsb' 48 8).toNat
    let imm := w.extractLsb' 0 32
    let rn := (w.extractLsb' 56 4).toNat
    let op := (w.extractLsb' 60 4).toNat
    (op = 1 ∧ i = .attach pin imm (rn + 1)) ∨ (op = 2 ∧ i = .attachch pin imm (rn + 1) ch) ∨
    (op = 3 ∧ i = .write pin imm) ∨ (op = 4 ∧ i = .writech ch imm) ∨ (op = 5 ∧ i = .tone pin imm) ∨
    (op = 6 ∧ i = .note pin rn (w.extractLsb' 48 4).toNat) ∨ (op = 7 ∧ i = .read pin) ∨
    (op = 8 ∧ i = .readf pin) ∨ (op = 9 ∧ i = .detach pin) ∨ (op = 10 ∧ i = .chfreq pin imm (rn + 1))

/-- R81 to R85, R96: decoding the word of a well-formed instruction gives it back, for every configuration in range. -/
def Obligations.DecodeOfEncodeIsTheInstruction : Prop :=
  ∀ (cfg : Config) (i : Instr), cfg.wf → i.wf cfg = true → decode (encode i) = .ok i

/-- R81 to R86, R96: a word that decodes is the word of a well-formed instruction: each word has one meaning, the same for every
configuration in range. -/
def Obligations.EncodeOfDecodeIsTheWord : Prop :=
  ∀ (cfg : Config) (w : PortWord) (i : Instr), cfg.wf → decode w = .ok i → i.wf cfg = true ∧ encode i = w

/-- Words written out from the spec's encodings (95_test_vectors.md V2, V6, V10, V13, V14). -/
def Obligations.SpecWordsDecode : Prop :=
  decodeCommand 0x270300010001B800 = .ok (.attachch 1 112640 8 3) ∧
  decodeCommand 0x6904000200000000 = .ok (.note 2 9 4) ∧
  decodeCommand 0xAB000004002EE000 = .ok (.chfreq 4 3072000 12) ∧
  decodeCommand 0x6910000200000000 = .error .reservedField ∧
  decodeCommand 0xB000000000000000 = .error .reservedOpcode

/-! ## Reset, silence, faults -/

/-- R38: the complete reset state, for every configuration. -/
def Obligations.ResetStateIsTheSpecs : Prop :=
  ∀ cfg : Config,
    let s := State.resetOf cfg
    (∀ c < cfg.nCh, s.load (.freq c) = some 0 ∧ s.load (.phase c) = some 0 ∧ s.load (.duty c) = some 0 ∧
      s.load (.resmax c) = some 0 ∧ s.load (.attached c) = some 0) ∧
    (∀ p < cfg.nPin, s.load (.pinmap p) = some 0xFF) ∧
    s.backend = .uninit ∧ s.mix = none ∧ (∀ k, s.jobOf k = none) ∧ s.sink = [] ∧
    State.reset = State.resetOf Config.default

/-- The invariant holds after reset, for every configuration in range; the defaults are in range. -/
def Obligations.ResetMeetsInvariant : Prop :=
  Config.default.wf ∧ ∀ cfg : Config, cfg.wf → (State.resetOf cfg).Inv

/-- R221: with no move from the environment nothing executes. -/
def Obligations.SilentEnvironmentChangesNothing : Prop :=
  ∀ s : State, s.fault = none → s.events = [] → step s = .next s

/-- R194: a recorded fault is cleared by no step: the run stops there. -/
def Obligations.RecordedFaultStopsTheRun : Prop :=
  ∀ (s : State) (f : Fault), s.fault = some f → step s = .fault f

/-! ## Whole-machine rules -/

/-- R21, R27 (a), R27 (b), R29, R168: every step, of a whole operation or of one agent, keeps the invariant. -/
def Obligations.EveryStepKeepsInvariant : Prop :=
  ∀ s t : State, s.Inv → step s = .next t → t.Inv

/-- R5, R32: no step changes the configuration. -/
def Obligations.NoStepChangesConfiguration : Prop :=
  ∀ s t : State, step s = .next t → t.cfg = s.cfg

/-- R23, R33, R205: whatever the interleaving, no move but MIX's changes a phase, and MIX's moves change no other cell. -/
def Obligations.PhasesBelongToTheMixer : Prop :=
  ∀ (s t : State) (e : Event) (es : List Event), s.Inv → s.events = e :: es → step s = .next t →
    (isMixMove e = false → ∀ c, t.load (.phase c) = s.load (.phase c)) ∧
    (isMixMove e = true → ∀ x : Cell, x.controlOwned = true → t.load x = s.load x)

/-- R56, R61: a single step of an agent changes no cell but the one it stores to, which then holds what that store leaves: a
control agent's store under SC, under PerCell a held store that reaches its cell, MIX's phase store. A step that stores to
none, taking a word among them, changes no cell. R62, R63: under PerCell an agent sees its own store at once; and what an
agent sees of a control agents' cell changes only by its own step, by its own held store reaching that cell, or by its
seeing one store to that cell, whatever the other agents have seen (log 15, log 28). -/
def Obligations.SingleStepTouchesOneCell : Prop :=
  ∀ (s t : State) (e : Event) (es : List Event), s.events = e :: es → isSingleStep e = true → step s = .next t →
    (match s.storeMade e with
    | none => ∀ y : Cell, t.load y = s.load y
    | some (x, v) =>
      (∀ y : Cell, y ≠ x → t.load y = s.load y) ∧ ∀ u : State, s.store x v = some u → t.load x = u.load x) ∧
    (s.cfg.consistency = .perCell →
      (∀ (k : Nat) (j : CtrlJob) (x : Cell) (v : Nat) (p : CmdProg), e = .ctrl k → s.jobOf k = some j →
        j.rest s.cfg = some (.st x v p) → t.seenBy (.ctrl k) x = some (x.kept v)) ∧
      ∀ (a : Agent) (x : Cell), a.exists s.cfg → x.controlOwned = true → t.seenBy a x ≠ s.seenBy a x →
        (∃ k, e = .ctrl k ∧ a = .ctrl k) ∨
        (∃ n h, e = .drain n ∧ s.held[n]? = some h ∧ a = .ctrl h.agent ∧ x = h.cell) ∨
        ∃ n u, e = .see n ∧ s.unseen[n]? = some u ∧ a = u.agent ∧ x = u.cell)

/-- R27 (d): whole commands and whole buffers keep a Free channel's duty 0. -/
def Obligations.FreeChannelsStaySilent : Prop :=
  ∀ (i : Instr) (s t : State), s.freeIsSilent → exec i s = .next t → t.freeIsSilent

/-- R31, R181, R183, R184, R187, of operations taken whole (log 2; log 27 says what racing agents can do): BACKEND leaves
UNINIT only by ATTACH or ATTACHCH and READY only by an activating write, each as the device answers, and moves no other
way. -/
def Obligations.BackendMovesAsTheLifecycle : Prop :=
  ∀ (i : Instr) (s t : State), exec i s = .next t →
    t.backend = s.backend ∨
    (s.backend = .uninit ∧ (∃ p f r, i = .attach p f r ∨ ∃ c, i = .attachch p f r c) ∧
      t.backend = if s.answer then .ready else .failed) ∨
    (s.backend = .ready ∧ activates s.cfg i = true ∧ t.backend = if s.answer then .running else .failed)

/-- R187, of operations taken whole (the model's reading, log 2 and log 27: racing agents can leave RUNNING): no operation
moves BACKEND from RUNNING; when every channel is silent the stream goes on: a request is taken, zeros are delivered, and
the next request can be taken. -/
def Obligations.StreamNeverStops : Prop :=
  ∀ s : State, s.Inv → s.backend = .running →
    (∀ (i : Instr) (t : State), exec i s = .next t → t.backend = .running) ∧
    ∀ n, s.mix = none → (∀ ch ∈ s.chans, ch.audible = false) →
      ∃ t, exec (.bufreq n) s = .next t ∧ t.sink = s.sink ++ [List.replicate n 0] ∧ requestAllowed t = true

/-- R88, R91, R191, R193: from every state that meets the invariant each of the ten commands completes with exactly one
response word on its agent's port and no fault. -/
def Obligations.EveryCommandAnswersOnce : Prop :=
  ∀ (i : Instr) (s : State), s.Inv → isCommand i = true →
    ∃ (t : State) (r : Reply), exec i s = .next t ∧ t.rsps = s.rsps ++ [(s.cur, r.word)] ∧ t.fault = s.fault

/-- R186, of operations taken whole (log 2, log 27): in the inert state every command is a no-op with its failure value and
cause DeviceUnavailable. That a request there is refused as requestNotAllowed is the model's choice (log 7): the spec says
only that none arrives. -/
def Obligations.InertStateAnswersDeviceUnavailable : Prop :=
  ∀ (i : Instr) (s : State), s.backend = .failed →
    (isCommand i = true → exec i s = .next (s.reply s.cur (failureOf i .deviceUnavailable))) ∧
    ∀ n, exec (.bufreq n) s = .refused .requestNotAllowed

/-! ## Frames -/

/-- R37: ATTACH, ATTACHCH and DETACH store to no cell but those of their columns, and touch nothing else of the state but
the response and the draws. -/
def Obligations.AttachFamilyFrame : Prop :=
  ∀ (s t : State) (i : Instr) (pin res ch : Nat) (freq : Freq),
    (i = .attach pin freq res ∨ i = .attachch pin freq res ch ∨ i = .detach pin) → exec i s = .next t →
      s.sameOutside t ∧ ∀ x : Cell, x ∉ cellsWritten s i → t.load x = s.load x

/-- R37: WRITE, WRITECH, TONE, NOTE and CHFREQ store to no cell but those of their columns. -/
def Obligations.MutatorsFrame : Prop :=
  ∀ (s t : State) (i : Instr) (pin res ch nt oct : Nat) (freq : Freq) (duty : Duty),
    (i = .write pin duty ∨ i = .writech ch duty ∨ i = .tone pin freq ∨ i = .note pin nt oct ∨ i = .chfreq pin freq res) →
    exec i s = .next t →
      s.sameOutside t ∧ ∀ x : Cell, x ∉ cellsWritten s i → t.load x = s.load x

/-- R142, R143, R37: READ and READF store to no cell at all and draw nothing. -/
def Obligations.ReadersFrame : Prop :=
  ∀ (s t : State) (i : Instr) (pin : Nat), (i = .read pin ∨ i = .readf pin) → exec i s = .next t →
    s.sameOutside t ∧ t.answers = s.answers ∧ t.drawn = s.drawn ∧ ∀ x : Cell, t.load x = s.load x

/-- R160, R37: BUFREQ stores to no cell but phases, of channels that are audible, and touches nothing else of the state but
the sink's port and the fault field. -/
def Obligations.BufreqFrame : Prop :=
  ∀ (s t : State) (n : Nat), exec (.bufreq n) s = .next t →
    t.cfg = s.cfg ∧ t.ctrls = s.ctrls ∧ t.mix = s.mix ∧ t.rsps = s.rsps ∧ t.cur = s.cur ∧ t.events = s.events ∧
    t.answers = s.answers ∧ t.drawn = s.drawn ∧ t.held = s.held ∧ t.unseen = s.unseen ∧
    ∀ x : Cell, (∀ c ch, x = .phase c → s.chans[c]? = some ch → ch.audible = false) → t.load x = s.load x

/-! ## Attach and detach -/

/-- R110, R111, R113: ATTACH takes the lowest Free channel, configures it, maps the pin and answers 1. -/
def Obligations.AttachTakesLowestFreeChannel : Prop :=
  ∀ (s : State) (pin res c : Nat) (freq : Freq) (ch : Channel),
    s.deviceThere → pin < s.cfg.nPin → pin < s.pins.length → c < s.cfg.nCh →
    (∀ j < c, ∃ d, s.chans[j]? = some d ∧ d.attached = true) → s.chans[c]? = some ch → ch.attached = false →
      exec (.attach pin freq res) s =
        .next (((s.opened.putChan c (ch.taken freq res)).putPin pin (BitVec.ofNat 8 c)).reply s.cur ⟨1, .none⟩)

/-- R110: with no Free channel ATTACH answers (0, ResourceExhausted) and stores to no channel and no entry. -/
def Obligations.AttachFailsOnFullPool : Prop :=
  ∀ (s : State) (pin res : Nat) (freq : Freq),
    s.deviceThere → pin < s.cfg.nPin → (∀ j < s.cfg.nCh, ∃ d, s.chans[j]? = some d ∧ d.attached = true) →
      exec (.attach pin freq res) s = .next (s.opened.reply s.cur ⟨0, .resourceExhausted⟩)

/-- R115: ATTACHCH takes the named channel, Free or busy, and answers 1. -/
def Obligations.AttachchTakesNamedChannel : Prop :=
  ∀ (s : State) (pin res c : Nat) (freq : Freq) (ch : Channel),
    s.deviceThere → pin < s.cfg.nPin → pin < s.pins.length → c < s.cfg.nCh → s.chans[c]? = some ch →
      exec (.attachch pin freq res c) s =
        .next (((s.opened.putChan c (ch.taken freq res)).putPin pin (BitVec.ofNat 8 c)).reply s.cur ⟨1, .none⟩)

/-- R181, R197: what the attach path answers when the device fails to initialise, and for operands out of range: the
device is initialised first. -/
def Obligations.AttachPathFailures : Prop :=
  ∀ (s : State) (pin res ch : Nat) (freq : Freq),
    (s.backend = .uninit → s.answer = false →
      exec (.attach pin freq res) s = .next ((s.answered.putBackend .failed).reply s.cur ⟨0, .deviceUnavailable⟩) ∧
      exec (.attachch pin freq res ch) s =
        .next ((s.answered.putBackend .failed).reply s.cur ⟨0, .deviceUnavailable⟩)) ∧
    (s.deviceThere → s.cfg.nPin ≤ pin →
      exec (.attach pin freq res) s = .next (s.opened.reply s.cur ⟨0, .invalidPin⟩) ∧
      exec (.attachch pin freq res ch) s = .next (s.opened.reply s.cur ⟨0, .invalidPin⟩)) ∧
    (s.deviceThere → pin < s.cfg.nPin → s.cfg.nCh ≤ ch →
      exec (.attachch pin freq res ch) s = .next (s.opened.reply s.cur ⟨0, .invalidChannel⟩))

/-- R118, R119: DETACH on every path: result 1 always; a mapped pin's channel is silenced and freed, its entry cleared, and
freq, resmax and phase kept. -/
def Obligations.DetachFreesTheMappedChannel : Prop :=
  ∀ (s : State) (pin : Nat),
    (s.backend = .failed → exec (.detach pin) s = .next (s.reply s.cur ⟨1, .deviceUnavailable⟩)) ∧
    (s.backend ≠ .failed → s.cfg.nPin ≤ pin → exec (.detach pin) s = .next (s.reply s.cur ⟨1, .invalidPin⟩)) ∧
    (s.backend ≠ .failed → pin < s.cfg.nPin → pin < s.pins.length → s.entry pin = 0xFF →
      exec (.detach pin) s = .next (s.reply s.cur ⟨1, .none⟩)) ∧
    ∀ ch, s.backend ≠ .failed → pin < s.cfg.nPin → pin < s.pins.length → s.entry pin ≠ 0xFF →
      s.chans[s.entry pin]? = some ch →
      exec (.detach pin) s =
        .next (((s.putChan (s.entry pin) { ch with duty := 0, attached := false }).putPin pin unassigned).reply
          s.cur ⟨1, .none⟩)

/-- R118 (E2): a second DETACH of the pin returns success and changes no state but the response port. -/
def Obligations.DetachIsIdempotent : Prop :=
  ∀ (s t : State) (pin : Nat), s.Inv → exec (.detach pin) s = .next t →
    ∃ k, exec (.detach pin) t = .next (t.reply t.cur ⟨1, k⟩)

/-- R116: after the override both pins name the channel, its duty and phase are the old occupant's, and READ through either
pin returns the same duty. -/
def Obligations.OverrideLeavesAStaleMapping : Prop :=
  ∀ (s : State) (p q res c : Nat) (freq : Freq) (ch : Channel),
    s.Inv → s.deviceThere → p ≠ q → p < s.cfg.nPin → s.resolves q c ch →
      ∃ t, exec (.attachch p freq res c) s = .next t ∧
        t.resolves p c (ch.taken freq res) ∧ t.resolves q c (ch.taken freq res) ∧
        exec (.read p) t = .next (t.reply t.cur ⟨ch.duty, .none⟩) ∧
        exec (.read q) t = .next (t.reply t.cur ⟨ch.duty, .none⟩)

/-- R119 (a): DETACH through a stale mapping frees the channel under the other pin, whose commands then fail with
InvalidChannel. -/
def Obligations.StaleDetachFreesTheOtherPinsChannel : Prop :=
  ∀ (s : State) (p q c : Nat) (ch : Channel) (duty : Duty),
    s.Inv → s.backend ≠ .failed → p ≠ q → s.resolves p c ch → s.resolves q c ch →
      ∃ t, exec (.detach q) s = .next t ∧ t.entry p = c ∧ t.entry q = 0xFF ∧
        t.chans[c]? = some { ch with duty := 0, attached := false } ∧
        exec (.write p duty) t = .next (t.reply t.cur ⟨0, .invalidChannel⟩)

/-- R111 (E1): from the state after reset with the device initialised, in which every channel is Free, ATTACHs of as many
distinct pins as there are channels succeed and take the channels in order, and the next one fails with ResourceExhausted,
for every pool size. -/
def Obligations.PoolFillsInOrder : Prop :=
  ∀ (cfg : Config) (pins : List Nat) (freq : Freq) (res : Nat),
    cfg.wf → pins.Nodup → (∀ p ∈ pins, p < cfg.nPin) → pins.length ≤ cfg.nCh →
      let s := (State.resetOf cfg).putBackend .ready
      ∃ t : State,
        pins.foldl (fun (o : Host.Outcome State Fault Refusal) p =>
          match o with
          | .next u => exec (.attach p freq res) u
          | o => o) (.next s) = .next t ∧
        t.rsps = List.replicate pins.length (0, (Reply.mk 1 .none).word) ∧
        (∀ j (h : j < pins.length), t.entry pins[j] = j) ∧
        (pins.length = cfg.nCh → ∀ p < cfg.nPin,
          exec (.attach p freq res) t = .next (t.reply 0 ⟨0, .resourceExhausted⟩))

/-! ## Mutators and readers -/

/-- R133, R132: WRITE stores the duty unclamped and answers 1; a nonzero duty starts the stream. -/
def Obligations.WriteStoresDuty : Prop :=
  ∀ (s : State) (pin c : Nat) (duty : Duty) (ch : Channel),
    s.backend ≠ .failed → s.resolves pin c ch → (duty ≠ 0 → s.streamStarts) →
      exec (.write pin duty) s =
        .next (((s.putChan c { ch with duty := duty }).startedWhen (duty != 0)).reply s.cur ⟨1, .none⟩)

/-- R131: WRITECH stores the duty of an Attached channel by number; an index out of range or a Free channel is answered
(0, InvalidChannel) and stores nothing. -/
def Obligations.WritechStoresDutyOrFails : Prop :=
  ∀ (s : State) (c : Nat) (duty : Duty),
    s.backend ≠ .failed →
    (s.cfg.nCh ≤ c → exec (.writech c duty) s = .next (s.reply s.cur ⟨0, .invalidChannel⟩)) ∧
    (∀ ch, c < s.cfg.nCh → s.chans[c]? = some ch → ch.attached = false →
      exec (.writech c duty) s = .next (s.reply s.cur ⟨0, .invalidChannel⟩)) ∧
    (∀ ch, c < s.cfg.nCh → s.chans[c]? = some ch → ch.attached = true → (duty ≠ 0 → s.streamStarts) →
      exec (.writech c duty) s =
        .next (((s.putChan c { ch with duty := duty }).startedWhen (duty != 0)).reply s.cur ⟨1, .none⟩))

/-- R136, R137: TONE stores the frequency and half the resolution maximum, or 0 and 0, and answers its operand. -/
def Obligations.ToneSetsFrequencyAndHalfDuty : Prop :=
  ∀ (s : State) (pin c : Nat) (freq : Freq) (ch : Channel),
    s.backend ≠ .failed → s.resolves pin c ch → (freq ≠ 0 → s.streamStarts) →
      exec (.tone pin freq) s =
        .next (((s.putChan c (ch.toned freq)).startedWhen (freq != 0)).reply s.cur ⟨freq, .none⟩)

/-- R138, R139: NOTE rejects octaves above OCT_MAX and notes from N_NOTE on, before it looks at the pin, and is otherwise
TONE at the table's entry divided by 2^(OCT_MAX - octave), rounded down, in whole Hz; OCT_MAX is 8 and N_NOTE is 12 in every
configuration in range (R5). -/
def Obligations.NoteSetsTheTablesFrequency : Prop :=
  ∀ (s : State) (pin nt oct c : Nat) (ch : Channel), s.backend ≠ .failed →
    (s.cfg.wf → s.cfg.nNote = 12 ∧ s.cfg.octMax = 8) ∧
    (s.cfg.nNote ≤ nt ∨ s.cfg.octMax < oct → exec (.note pin nt oct) s = .next (s.reply s.cur ⟨0, .invalidNote⟩)) ∧
    ∀ b, nt < s.cfg.nNote → oct ≤ s.cfg.octMax → s.cfg.noteBase[nt]? = some b → s.resolves pin c ch →
      let freq : Freq := BitVec.ofNat 32 (b / 2 ^ (s.cfg.octMax - oct) * 2 ^ s.cfg.freqFrac)
      (freq ≠ 0 → s.streamStarts) →
      exec (.note pin nt oct) s =
        .next (((s.putChan c (ch.toned freq)).startedWhen (freq != 0)).reply s.cur ⟨freq, .none⟩)

/-- R141: the Hz of every note in every octave, with the default table (all rows but A's rest on general knowledge, log 9),
and that each fits a frequency cell. -/
def Obligations.NoteTableResults : Prop :=
  (List.range 12).map (fun nt => (List.range 9).map (noteHz Config.default nt)) =
    [[16, 32, 65, 130, 261, 523, 1046, 2093, 4186], [17, 34, 69, 138, 277, 554, 1108, 2217, 4435],
     [18, 36, 73, 146, 293, 587, 1174, 2349, 4699], [19, 38, 77, 155, 311, 622, 1244, 2489, 4978],
     [20, 41, 82, 164, 329, 659, 1318, 2637, 5274], [21, 43, 87, 174, 349, 698, 1397, 2794, 5588],
     [23, 46, 92, 185, 370, 740, 1480, 2960, 5920], [24, 49, 98, 196, 392, 784, 1568, 3136, 6272],
     [25, 51, 103, 207, 415, 830, 1661, 3322, 6645], [27, 55, 110, 220, 440, 880, 1760, 3520, 7040],
     [29, 58, 116, 233, 466, 932, 1864, 3729, 7459], [30, 61, 123, 246, 493, 987, 1975, 3951, 7902]] ∧
  ∀ nt < 12, ∀ oct < 9, (noteFreq Config.default nt oct).toNat = noteHz Config.default nt oct * 256

/-- R142: READ answers the stored duty and changes nothing but the response port. -/
def Obligations.ReadAnswersTheDuty : Prop :=
  ∀ (s : State) (pin c : Nat) (ch : Channel), s.backend ≠ .failed → s.resolves pin c ch →
    exec (.read pin) s = .next (s.reply s.cur ⟨ch.duty, .none⟩)

/-- R143: READF answers the stored frequency and changes nothing but the response port. -/
def Obligations.ReadfAnswersTheFrequency : Prop :=
  ∀ (s : State) (pin c : Nat) (ch : Channel), s.backend ≠ .failed → s.resolves pin c ch →
    exec (.readf pin) s = .next (s.reply s.cur ⟨ch.freq, .none⟩)

/-- R144, R145: CHFREQ stores frequency and resolution maximum, keeps duty and phase, and answers the frequency. -/
def Obligations.ChfreqKeepsDutyAndPhase : Prop :=
  ∀ (s : State) (pin res c : Nat) (freq : Freq) (ch : Channel),
    s.backend ≠ .failed → s.resolves pin c ch → (freq ≠ 0 → s.streamStarts) →
      exec (.chfreq pin freq res) s =
        .next (((s.putChan c (ch.retuned freq res)).startedWhen (freq != 0)).reply s.cur ⟨freq, .none⟩)

/-- R59: the failures of the translation from pin to channel, in their order, for every command that runs `resolve`; none
touches a cell. -/
def Obligations.PinRouterFailsInOrder : Prop :=
  ∀ (i : Instr) (s : State) (pin : Nat),
    routedPin i = some pin → noteAccepted s.cfg i = true → s.backend ≠ .failed →
    (s.cfg.nPin ≤ pin → exec i s = .next (s.reply s.cur ⟨0, .invalidPin⟩)) ∧
    (pin < s.cfg.nPin → pin < s.pins.length → s.entry pin = 0xFF →
      exec i s = .next (s.reply s.cur ⟨0, .pinNotAttached⟩)) ∧
    ∀ ch, pin < s.cfg.nPin → pin < s.pins.length → s.entry pin ≠ 0xFF → s.chans[s.entry pin]? = some ch →
      ch.attached = false → exec i s = .next (s.reply s.cur ⟨0, .invalidChannel⟩)

/-- R183, R146: a stream start the device refuses: the stores have been made, BACKEND is FAILED, and the command answers
(0, DeviceUnavailable). -/
def Obligations.FailedStartKeepsTheStores : Prop :=
  ∀ (s : State) (pin res c : Nat) (freq : Freq) (duty : Duty) (ch : Channel),
    s.backend = .ready → s.answer = false → s.resolves pin c ch →
    let dead (u : State) : Host.Outcome State Fault Refusal :=
      .next ((u.answered.putBackend .failed).reply s.cur ⟨0, .deviceUnavailable⟩)
    (duty ≠ 0 → exec (.write pin duty) s = dead (s.putChan c { ch with duty := duty })) ∧
    (duty ≠ 0 → c < s.cfg.nCh → exec (.writech c duty) s = dead (s.putChan c { ch with duty := duty })) ∧
    (freq ≠ 0 → exec (.tone pin freq) s = dead (s.putChan c (ch.toned freq))) ∧
    (freq ≠ 0 → exec (.chfreq pin freq res) s = dead (s.putChan c (ch.retuned freq res))) ∧
    ∀ nt oct, nt < s.cfg.nNote → oct ≤ s.cfg.octMax → noteFreq s.cfg nt oct ≠ 0 →
      exec (.note pin nt oct) s = dead (s.putChan c (ch.toned (noteFreq s.cfg nt oct)))

/-- R135, R142, R143 (E3): after TONE, READF returns the frequency and READ half the resolution maximum; after TONE with
frequency 0, READ returns 0. -/
def Obligations.ToneReadsBack : Prop :=
  ∀ (s : State) (pin c : Nat) (freq : Freq) (ch : Channel),
    s.backend ≠ .failed → s.resolves pin c ch → (freq ≠ 0 → s.streamStarts) →
      ∃ t, exec (.tone pin freq) s = .next t ∧
        exec (.readf pin) t = .next (t.reply t.cur ⟨freq, .none⟩) ∧
        exec (.read pin) t =
          .next (t.reply t.cur ⟨if freq = 0 then 0 else BitVec.ofNat 32 (ch.resmax.toNat / 2), .none⟩)

/-! ## The mixing engine -/

/-- R160, R164, R166, R168, R171: with every audible frequency at most SAMPLE_RATE, BUFREQ delivers in frame i the sum over
the audible channels of the square wave at phase (P + i F) mod M, and leaves each audible phase at (P + n F) mod M. -/
def Obligations.BufreqDeliversTheSumOfSquareWaves : Prop :=
  ∀ (s : State) (n : Nat), s.Inv → s.tuned → s.backend = .running → s.mix = none →
    exec (.bufreq n) s =
      .next ({ s with chans := s.chans.map (Channel.afterFrames s.cfg.modulus n) }.deliver
        ((List.range n).map (levelAt s.cfg.modulus s.chans)))

/-- R97, R168: whatever the frequencies, a buffer that is delivered has n levels, which is OUT_CHANNELS for each frame (R5,
R53), each as a two's complement word a sum of
as many signs as there are audible channels: at most that number in size, and of its parity. -/
def Obligations.LevelsAreSumsOfSigns : Prop :=
  ∀ (s t : State) (n : Nat), s.Inv → s.fault = none → exec (.bufreq n) s = .next t → t.fault = none →
    ∃ b : List Level, t.sink = s.sink ++ [b] ∧ b.length = n ∧ b.length = sinkWords s.cfg n ∧
      ∀ l ∈ b, l.toInt.natAbs ≤ s.chans.countP Channel.audible ∧
        l.toInt.natAbs % 2 = s.chans.countP Channel.audible % 2

/-- R162 (E5): a buffer of inaudible channels is all zeros, and no phase is stored. -/
def Obligations.InaudibleChannelsAreFrozen : Prop :=
  ∀ (s : State) (n : Nat), s.Inv → s.backend = .running → s.mix = none →
    (∀ ch ∈ s.chans, ch.attached = false ∨ ch.duty = 0 ∨ ch.freq = 0) →
      exec (.bufreq n) s = .next (s.deliver (List.replicate n 0))

/-- R165, R24: the duty enters the mixer only through its test for zero: two machines whose channels differ in nothing else
but resolution maxima and in nonzero duties deliver the same buffer. -/
def Obligations.DutyIsOnlyAGate : Prop :=
  ∀ (s t s' : State) (n : Nat), exec (.bufreq n) s = .next s' →
    t.cfg = s.cfg → t.backend = s.backend → t.mix = s.mix → t.fault = s.fault → t.sink = s.sink →
    List.Forall₂ (fun a b : Channel => a.freq = b.freq ∧ a.phase = b.phase ∧ a.attached = b.attached ∧
      (a.duty = 0 ↔ b.duty = 0)) s.chans t.chans →
      ∃ t', exec (.bufreq n) t = .next t' ∧ t'.sink = s'.sink ∧ t'.fault = s'.fault ∧
        ∀ c, t'.load (.phase c) = s'.load (.phase c)

/-- R170: buffers join without a jump: a buffer of n1 frames and then one of n2 are together the buffer of n1 + n2. -/
def Obligations.BuffersConcatenate : Prop :=
  ∀ (s t u : State) (n₁ n₂ : Nat), s.Inv → s.fault = none → exec (.bufreq n₁) s = .next t → t.fault = none →
    exec (.bufreq n₂) t = .next u → u.fault = none →
      ∃ (v : State) (b₁ b₂ : List Level), exec (.bufreq (n₁ + n₂)) s = .next v ∧ v.fault = none ∧ v.chans = u.chans ∧
        t.sink = s.sink ++ [b₁] ∧ u.sink = t.sink ++ [b₂] ∧ v.sink = s.sink ++ [b₁ ++ b₂]

/-- R167, R194, R160, R161: MIX faults at the first frame at which the phase is still at or above M after one subtraction,
which for a latched frequency F is frame i with P + i (F - M) < M ≤ P + (i + 1) (F - M) (F - M is 0 up to M). Where channel
c is the first audible one with such a frame in the buffer, the fault names c and i, the channels before c have stored their
phases, every other cell is kept, no buffer is delivered, and the next step stops (the fault field is log 5). -/
def Obligations.OverrangeFaultsAtItsFrame : Prop :=
  ∀ (s : State) (n c i : Nat) (ch : Channel), s.Inv → s.fault = none → s.backend = .running → s.mix = none →
    s.chans[c]? = some ch → ch.audible = true →
    (∀ d < c, ∀ e, s.chans[d]? = some e → e.audible = true →
      e.phase + n * (e.freq.toNat - s.cfg.modulus) < s.cfg.modulus) →
    i < n →
    ch.phase + i * (ch.freq.toNat - s.cfg.modulus) < s.cfg.modulus →
    s.cfg.modulus ≤ ch.phase + (i + 1) * (ch.freq.toNat - s.cfg.modulus) →
      let t := { s with
        chans := (s.chans.take c).map (Channel.afterFrames s.cfg.modulus n) ++ s.chans.drop c
        fault := some (.phaseOverrange c i) }
      exec (.bufreq n) s = .next t ∧ step t = .fault (.phaseOverrange c i)

/-- R174: an empty request delivers an empty buffer and changes no cell, whatever the frequencies. -/
def Obligations.EmptyRequestChangesNoCell : Prop :=
  ∀ s : State, s.Inv → s.backend = .running → s.mix = none → exec (.bufreq 0) s = .next (s.deliver [])

/-- R185: a request is taken only while BACKEND is RUNNING and MIX is idle. The refusal by name is the model's choice
(log 7): the spec says that no other request arrives. -/
def Obligations.RequestsOnlyWhileRunning : Prop :=
  ∀ (s : State) (n : SinkWord) (es : List Event), s.fault = none → ¬ (s.backend = .running ∧ s.mix = none) →
    exec (.bufreq n.toNat) s = .refused .requestNotAllowed ∧
    step { s with events := .ask n :: es } = .refused .requestNotAllowed

/-! ## Agents step by step -/

/-- R61, R63: under SC and under PerCell, an agent that takes a command and then all its steps with no other agent's between
leaves exactly what the command delivered whole leaves (log 2): under SC its steps alone do; under PerCell some order of
moves does that lets stores reach their cells and be seen, before the command and during it (log 15). -/
def Obligations.UninterruptedCommandIsExec : Prop :=
  ∀ (s : State) (k : Nat) (w : CmdWord) (i : Instr) (es : List Event),
    s.Inv → s.fault = none → k < s.cfg.nCtrl → s.jobOf k = none → decodeCommand w = .ok i →
      let quiet (e : Event) : Prop := s.cfg.consistency = .perCell ∧ ∃ n, e = .drain n ∨ e = .see n
      ∃ (ps ms : List Event) (t : State), (∀ e ∈ ps, quiet e) ∧ (∀ e ∈ ms, e = .ctrl k ∨ quiet e) ∧
        exec i (State.settled { s with events := es, cur := k } (.ctrl k)) = .next t ∧
        runSteps (ps.length + (ms.length + 1)) { s with events := ps ++ .issue k w :: (ms ++ es) } = .next t

/-- R161, R163: under SC and under PerCell, MIX taking a request and then all its steps with no other agent's between leaves
exactly what the request delivered whole leaves, whichever gate loads the environment picks, once MIX has seen every store,
which some moves let it do (log 2: exec is the whole operation; log 16: frames take no step). -/
def Obligations.UninterruptedBufferIsExec : Prop :=
  ∀ (s : State) (n : SinkWord) (gs : List Gate) (es : List Event),
    s.Inv → s.fault = none → s.backend = .running → s.mix = none → gs.length = 5 * s.cfg.nCh + 1 →
      ∃ (ps : List Nat) (m : Nat) (t : State), m ≤ gs.length ∧ ((∀ u ∈ s.unseen, u.agent ≠ .mix) → ps = []) ∧
        exec (.bufreq n.toNat) (State.settled { s with events := es } .mix) = .next t ∧
        runSteps (ps.length + (m + 1))
          { s with events := ps.map .see ++ .ask n :: ((gs.take m).map .mix ++ es) } = .next t

/-- R61, R161, R196: a buffer in progress always has a next step and ends after at most 5 N_CH + 1 of them, whatever other
agents do in between: where no fault is recorded, each of MIX's steps answers a next state, in which the buffer is closer
to its end, or has been delivered with all its levels, or has recorded PhaseOverrange at its channel; no other move touches
it. -/
def Obligations.BuffersEndInBoundedSteps : Prop :=
  ∀ (s : State) (j : MixJob), s.Inv → s.mix = some j →
    j.stepsLeft s.cfg ≤ 5 * s.cfg.nCh + 1 ∧
    (∀ (g : Gate) (es : List Event), s.fault = none → s.events = .mix g :: es → ∃ t, step s = .next t ∧
      ((∃ j', t.mix = some j' ∧ j'.n = j.n ∧ j'.stepsLeft s.cfg < j.stepsLeft s.cfg ∧ t.fault = none ∧ t.sink = s.sink) ∨
        (t.mix = none ∧ t.fault = none ∧ ∃ b : List Level, t.sink = s.sink ++ [b] ∧ b.length = j.n) ∨
        (t.mix = none ∧ t.sink = s.sink ∧ ∃ i, t.fault = some (.phaseOverrange j.c i)))) ∧
    ∀ (t : State) (e : Event) (es : List Event), s.events = e :: es → (∀ g, e ≠ .mix g) → step s = .next t →
      t.mix = some j

/-- A small machine: two channels, sixteen pins, two control agents, the stream running or ready. -/
def smallMachine (cons : Consistency) (b : Backend) (nCtrl : Nat) : State :=
  (State.resetOf { Config.default with nCh := 2, nPin := 16, nCtrl := nCtrl, consistency := cons }).putBackend b

/-- R65, R232 (a) (95_test_vectors.md V61): the allocator's scan is not atomic: two agents' ATTACHs, interleaved, both
succeed on channel 0. -/
def Obligations.TwoAttachesMayTakeOneChannel : Prop :=
  ∃ t : State,
    runSteps 17
      { smallMachine .sc .ready 2 with
        events := [.issue 0 0x1700000A00006400, .issue 1 0x1900000B0000C800, .ctrl 0, .ctrl 0, .ctrl 1, .ctrl 1,
          .ctrl 0, .ctrl 0, .ctrl 0, .ctrl 0, .ctrl 0, .ctrl 1, .ctrl 1, .ctrl 1, .ctrl 1, .ctrl 1] } = .next t ∧
    t.rsps = [(0, (Reply.mk 1 .none).word), (1, (Reply.mk 1 .none).word)] ∧ t.entry 10 = 0 ∧ t.entry 11 = 0 ∧
    t.chans = [{ freq := 51200, phase := 0, duty := 0, resmax := 1023, attached := true }, Channel.reset]

/-- R62 (d), R63, R227 (95_test_vectors.md V62): under PerCell the duty of a TONE may become visible before its frequency,
so that MIX mixes one buffer of the old frequency with the new duty; under SC the same moves show MIX both. And two other
control agents may see the two stores in different orders: one the new duty with the old frequency, the other the new
frequency with the old duty, while the command has been answered (log 15, log 28). That R227 allows at
most one such buffer is not said here, and the model does not have that bound (log 29). -/
def Obligations.PerCellShowsDutyBeforeFrequency : Prop :=
  let busy (cons : Consistency) : State :=
    { (smallMachine cons .running 1).putPin 9 0 with
      chans := [{ freq := 256000, phase := 0, duty := 0, resmax := 1023, attached := true }, Channel.reset],
      events := [.issue 0 0x500000090007D000, .ctrl 0, .ctrl 0, .ctrl 0, .ctrl 0, .ctrl 0, .ctrl 0, .drain 1,
        .request 2] }
  (∃ t : State, runSteps 9 (busy .perCell) = .next t ∧ t.load (.freq 0) = some 256000 ∧
    t.load (.duty 0) = some 511 ∧ t.load (.phase 0) = some 512000 ∧ t.sink = [[1, 1]]) ∧
  (∃ t : State, runSteps 9 (busy .sc) = .next t ∧ t.load (.freq 0) = some 512000 ∧
    t.load (.phase 0) = some 1024000) ∧
  ∃ t : State,
    runSteps 13
      { (smallMachine .perCell .running 3).putPin 9 0 with
        chans := [{ freq := 256000, phase := 0, duty := 0, resmax := 1023, attached := true }, Channel.reset],
        events := [.issue 0 0x500000090007D000, .ctrl 0, .ctrl 0, .ctrl 0, .ctrl 0, .ctrl 0, .ctrl 0, .ctrl 0, .ctrl 0,
          .drain 0, .drain 0, .see 4, .see 2] } = .next t ∧
    t.rsps = [(0, (Reply.mk 512000 .none).word)] ∧
    t.seenBy (.ctrl 1) (.duty 0) = some 511 ∧ t.seenBy (.ctrl 1) (.freq 0) = some 256000 ∧
    t.seenBy (.ctrl 2) (.duty 0) = some 0 ∧ t.seenBy (.ctrl 2) (.freq 0) = some 512000

/-- R236 (95_test_vectors.md V64): a DETACH that lands after MIX has latched the channel does not cut the buffer short, and
MIX stores the phase of a channel that is by then Free. -/
def Obligations.DetachDoesNotCutABufferShort : Prop :=
  ∃ t : State,
    runSteps 11
      { (smallMachine .sc .running 1).putPin 9 0 with
        chans := [{ freq := 256000, phase := 0, duty := 511, resmax := 1023, attached := true }, Channel.reset],
        events := [.ask 2, .mix .attached, .mix .attached, .mix .attached, .mix .attached,
          .command 0 0x9000000900000000, .mix .attached, .mix .attached, .mix .attached] } = .next t ∧
    t.sink = [[1, 1]] ∧ t.load (.phase 0) = some 512000 ∧ t.load (.attached 0) = some 0 ∧ t.mix = none

/-! ## Every command ends -/

/-- R61, R91, R196: a command in progress always has a next step and is answered after at most N_CH + 9 steps of its
agent, under SC and under PerCell, whatever other agents do in between: where no fault is recorded, each of the agent's
steps answers a next state, in which the command is closer to its end or has been answered, once, and no other move touches
it. -/
def Obligations.CommandsEndInBoundedSteps : Prop :=
  ∀ (s : State) (k : Nat) (j : CtrlJob), s.Inv → s.jobOf k = some j →
    (∀ i : Instr, (CtrlJob.start i).stepsLeft s.cfg = s.cfg.nCh + 9) ∧
    (∀ es : List Event, s.fault = none → s.events = .ctrl k :: es → ∃ t, step s = .next t ∧ t.fault = none ∧
      ((∃ j', t.jobOf k = some j' ∧ j'.instr = j.instr ∧ j'.stepsLeft s.cfg < j.stepsLeft s.cfg ∧ t.rsps = s.rsps) ∨
        (t.jobOf k = none ∧ ∃ r : Reply, t.rsps = s.rsps ++ [(k, r.word)]))) ∧
    ∀ (t : State) (e : Event) (es : List Event), s.events = e :: es → e ≠ .ctrl k → step s = .next t →
      t.jobOf k = some j
end

