-- ==== Sys2Proof/Laws/State.lean ====
section
/-! SUPPORT. One lemma per field per update of the state: later proofs unfold no record update. -/

namespace Sys2Proof.Machine

open Sys2Proof

variable (s : State)

/-! ### putChan -/

@[simp] theorem State.putChan_cfg (c : Nat) (ch : Channel) : (s.putChan c ch).cfg = s.cfg := rfl
@[simp] theorem State.putChan_chans (c : Nat) (ch : Channel) : (s.putChan c ch).chans = s.chans.set c ch := rfl
@[simp] theorem State.putChan_pins (c : Nat) (ch : Channel) : (s.putChan c ch).pins = s.pins := rfl
@[simp] theorem State.putChan_backend (c : Nat) (ch : Channel) : (s.putChan c ch).backend = s.backend := rfl
@[simp] theorem State.putChan_ctrls (c : Nat) (ch : Channel) : (s.putChan c ch).ctrls = s.ctrls := rfl
@[simp] theorem State.putChan_mix (c : Nat) (ch : Channel) : (s.putChan c ch).mix = s.mix := rfl
@[simp] theorem State.putChan_held (c : Nat) (ch : Channel) : (s.putChan c ch).held = s.held := rfl
@[simp] theorem State.putChan_unseen (c : Nat) (ch : Channel) : (s.putChan c ch).unseen = s.unseen := rfl
@[simp] theorem State.putChan_rsps (c : Nat) (ch : Channel) : (s.putChan c ch).rsps = s.rsps := rfl
@[simp] theorem State.putChan_sink (c : Nat) (ch : Channel) : (s.putChan c ch).sink = s.sink := rfl
@[simp] theorem State.putChan_fault (c : Nat) (ch : Channel) : (s.putChan c ch).fault = s.fault := rfl
@[simp] theorem State.putChan_cur (c : Nat) (ch : Channel) : (s.putChan c ch).cur = s.cur := rfl
@[simp] theorem State.putChan_events (c : Nat) (ch : Channel) : (s.putChan c ch).events = s.events := rfl
@[simp] theorem State.putChan_answers (c : Nat) (ch : Channel) : (s.putChan c ch).answers = s.answers := rfl
@[simp] theorem State.putChan_drawn (c : Nat) (ch : Channel) : (s.putChan c ch).drawn = s.drawn := rfl

/-! ### putPin -/

@[simp] theorem State.putPin_cfg (p : Nat) (m : PinEntry) : (s.putPin p m).cfg = s.cfg := rfl
@[simp] theorem State.putPin_chans (p : Nat) (m : PinEntry) : (s.putPin p m).chans = s.chans := rfl
@[simp] theorem State.putPin_pins (p : Nat) (m : PinEntry) : (s.putPin p m).pins = s.pins.set p m := rfl
@[simp] theorem State.putPin_backend (p : Nat) (m : PinEntry) : (s.putPin p m).backend = s.backend := rfl
@[simp] theorem State.putPin_ctrls (p : Nat) (m : PinEntry) : (s.putPin p m).ctrls = s.ctrls := rfl
@[simp] theorem State.putPin_mix (p : Nat) (m : PinEntry) : (s.putPin p m).mix = s.mix := rfl
@[simp] theorem State.putPin_held (p : Nat) (m : PinEntry) : (s.putPin p m).held = s.held := rfl
@[simp] theorem State.putPin_unseen (p : Nat) (m : PinEntry) : (s.putPin p m).unseen = s.unseen := rfl
@[simp] theorem State.putPin_rsps (p : Nat) (m : PinEntry) : (s.putPin p m).rsps = s.rsps := rfl
@[simp] theorem State.putPin_sink (p : Nat) (m : PinEntry) : (s.putPin p m).sink = s.sink := rfl
@[simp] theorem State.putPin_fault (p : Nat) (m : PinEntry) : (s.putPin p m).fault = s.fault := rfl
@[simp] theorem State.putPin_cur (p : Nat) (m : PinEntry) : (s.putPin p m).cur = s.cur := rfl
@[simp] theorem State.putPin_events (p : Nat) (m : PinEntry) : (s.putPin p m).events = s.events := rfl
@[simp] theorem State.putPin_answers (p : Nat) (m : PinEntry) : (s.putPin p m).answers = s.answers := rfl
@[simp] theorem State.putPin_drawn (p : Nat) (m : PinEntry) : (s.putPin p m).drawn = s.drawn := rfl

/-! ### putBackend -/

@[simp] theorem State.putBackend_cfg (b : Backend) : (s.putBackend b).cfg = s.cfg := rfl
@[simp] theorem State.putBackend_chans (b : Backend) : (s.putBackend b).chans = s.chans := rfl
@[simp] theorem State.putBackend_pins (b : Backend) : (s.putBackend b).pins = s.pins := rfl
@[simp] theorem State.putBackend_backend (b : Backend) : (s.putBackend b).backend = b := rfl
@[simp] theorem State.putBackend_ctrls (b : Backend) : (s.putBackend b).ctrls = s.ctrls := rfl
@[simp] theorem State.putBackend_mix (b : Backend) : (s.putBackend b).mix = s.mix := rfl
@[simp] theorem State.putBackend_held (b : Backend) : (s.putBackend b).held = s.held := rfl
@[simp] theorem State.putBackend_unseen (b : Backend) : (s.putBackend b).unseen = s.unseen := rfl
@[simp] theorem State.putBackend_rsps (b : Backend) : (s.putBackend b).rsps = s.rsps := rfl
@[simp] theorem State.putBackend_sink (b : Backend) : (s.putBackend b).sink = s.sink := rfl
@[simp] theorem State.putBackend_fault (b : Backend) : (s.putBackend b).fault = s.fault := rfl
@[simp] theorem State.putBackend_cur (b : Backend) : (s.putBackend b).cur = s.cur := rfl
@[simp] theorem State.putBackend_events (b : Backend) : (s.putBackend b).events = s.events := rfl
@[simp] theorem State.putBackend_answers (b : Backend) : (s.putBackend b).answers = s.answers := rfl
@[simp] theorem State.putBackend_drawn (b : Backend) : (s.putBackend b).drawn = s.drawn := rfl

/-! ### raise -/

@[simp] theorem State.raise_cfg (f : Fault) : (s.raise f).cfg = s.cfg := rfl
@[simp] theorem State.raise_chans (f : Fault) : (s.raise f).chans = s.chans := rfl
@[simp] theorem State.raise_pins (f : Fault) : (s.raise f).pins = s.pins := rfl
@[simp] theorem State.raise_backend (f : Fault) : (s.raise f).backend = s.backend := rfl
@[simp] theorem State.raise_ctrls (f : Fault) : (s.raise f).ctrls = s.ctrls := rfl
@[simp] theorem State.raise_mix (f : Fault) : (s.raise f).mix = s.mix := rfl
@[simp] theorem State.raise_held (f : Fault) : (s.raise f).held = s.held := rfl
@[simp] theorem State.raise_unseen (f : Fault) : (s.raise f).unseen = s.unseen := rfl
@[simp] theorem State.raise_rsps (f : Fault) : (s.raise f).rsps = s.rsps := rfl
@[simp] theorem State.raise_sink (f : Fault) : (s.raise f).sink = s.sink := rfl
@[simp] theorem State.raise_fault (f : Fault) : (s.raise f).fault = some f := rfl
@[simp] theorem State.raise_cur (f : Fault) : (s.raise f).cur = s.cur := rfl
@[simp] theorem State.raise_events (f : Fault) : (s.raise f).events = s.events := rfl
@[simp] theorem State.raise_answers (f : Fault) : (s.raise f).answers = s.answers := rfl
@[simp] theorem State.raise_drawn (f : Fault) : (s.raise f).drawn = s.drawn := rfl

/-! ### reply -/

@[simp] theorem State.reply_cfg (k : Nat) (r : Reply) : (s.reply k r).cfg = s.cfg := rfl
@[simp] theorem State.reply_chans (k : Nat) (r : Reply) : (s.reply k r).chans = s.chans := rfl
@[simp] theorem State.reply_pins (k : Nat) (r : Reply) : (s.reply k r).pins = s.pins := rfl
@[simp] theorem State.reply_backend (k : Nat) (r : Reply) : (s.reply k r).backend = s.backend := rfl
@[simp] theorem State.reply_ctrls (k : Nat) (r : Reply) : (s.reply k r).ctrls = s.ctrls := rfl
@[simp] theorem State.reply_mix (k : Nat) (r : Reply) : (s.reply k r).mix = s.mix := rfl
@[simp] theorem State.reply_held (k : Nat) (r : Reply) : (s.reply k r).held = s.held := rfl
@[simp] theorem State.reply_unseen (k : Nat) (r : Reply) : (s.reply k r).unseen = s.unseen := rfl
@[simp] theorem State.reply_rsps (k : Nat) (r : Reply) : (s.reply k r).rsps = s.rsps ++ [(k, r.word)] := rfl
@[simp] theorem State.reply_sink (k : Nat) (r : Reply) : (s.reply k r).sink = s.sink := rfl
@[simp] theorem State.reply_fault (k : Nat) (r : Reply) : (s.reply k r).fault = s.fault := rfl
@[simp] theorem State.reply_cur (k : Nat) (r : Reply) : (s.reply k r).cur = s.cur := rfl
@[simp] theorem State.reply_events (k : Nat) (r : Reply) : (s.reply k r).events = s.events := rfl
@[simp] theorem State.reply_answers (k : Nat) (r : Reply) : (s.reply k r).answers = s.answers := rfl
@[simp] theorem State.reply_drawn (k : Nat) (r : Reply) : (s.reply k r).drawn = s.drawn := rfl

/-! ### deliver -/

@[simp] theorem State.deliver_cfg (out : List Int) : (s.deliver out).cfg = s.cfg := rfl
@[simp] theorem State.deliver_chans (out : List Int) : (s.deliver out).chans = s.chans := rfl
@[simp] theorem State.deliver_pins (out : List Int) : (s.deliver out).pins = s.pins := rfl
@[simp] theorem State.deliver_backend (out : List Int) : (s.deliver out).backend = s.backend := rfl
@[simp] theorem State.deliver_ctrls (out : List Int) : (s.deliver out).ctrls = s.ctrls := rfl
@[simp] theorem State.deliver_mix (out : List Int) : (s.deliver out).mix = s.mix := rfl
@[simp] theorem State.deliver_held (out : List Int) : (s.deliver out).held = s.held := rfl
@[simp] theorem State.deliver_unseen (out : List Int) : (s.deliver out).unseen = s.unseen := rfl
@[simp] theorem State.deliver_rsps (out : List Int) : (s.deliver out).rsps = s.rsps := rfl
@[simp] theorem State.deliver_sink (out : List Int) : (s.deliver out).sink = s.sink ++ [out.map levelWord] := rfl
@[simp] theorem State.deliver_fault (out : List Int) : (s.deliver out).fault = s.fault := rfl
@[simp] theorem State.deliver_cur (out : List Int) : (s.deliver out).cur = s.cur := rfl
@[simp] theorem State.deliver_events (out : List Int) : (s.deliver out).events = s.events := rfl
@[simp] theorem State.deliver_answers (out : List Int) : (s.deliver out).answers = s.answers := rfl
@[simp] theorem State.deliver_drawn (out : List Int) : (s.deliver out).drawn = s.drawn := rfl

/-! ### putJob -/

@[simp] theorem State.putJob_cfg (k : Nat) (j : Option CtrlJob) : (s.putJob k j).cfg = s.cfg := rfl
@[simp] theorem State.putJob_chans (k : Nat) (j : Option CtrlJob) : (s.putJob k j).chans = s.chans := rfl
@[simp] theorem State.putJob_pins (k : Nat) (j : Option CtrlJob) : (s.putJob k j).pins = s.pins := rfl
@[simp] theorem State.putJob_backend (k : Nat) (j : Option CtrlJob) : (s.putJob k j).backend = s.backend := rfl
@[simp] theorem State.putJob_ctrls (k : Nat) (j : Option CtrlJob) : (s.putJob k j).ctrls = s.ctrls.set k j := rfl
@[simp] theorem State.putJob_mix (k : Nat) (j : Option CtrlJob) : (s.putJob k j).mix = s.mix := rfl
@[simp] theorem State.putJob_held (k : Nat) (j : Option CtrlJob) : (s.putJob k j).held = s.held := rfl
@[simp] theorem State.putJob_unseen (k : Nat) (j : Option CtrlJob) : (s.putJob k j).unseen = s.unseen := rfl
@[simp] theorem State.putJob_rsps (k : Nat) (j : Option CtrlJob) : (s.putJob k j).rsps = s.rsps := rfl
@[simp] theorem State.putJob_sink (k : Nat) (j : Option CtrlJob) : (s.putJob k j).sink = s.sink := rfl
@[simp] theorem State.putJob_fault (k : Nat) (j : Option CtrlJob) : (s.putJob k j).fault = s.fault := rfl
@[simp] theorem State.putJob_cur (k : Nat) (j : Option CtrlJob) : (s.putJob k j).cur = s.cur := rfl
@[simp] theorem State.putJob_events (k : Nat) (j : Option CtrlJob) : (s.putJob k j).events = s.events := rfl
@[simp] theorem State.putJob_answers (k : Nat) (j : Option CtrlJob) : (s.putJob k j).answers = s.answers := rfl
@[simp] theorem State.putJob_drawn (k : Nat) (j : Option CtrlJob) : (s.putJob k j).drawn = s.drawn := rfl

/-! ### answered -/

@[simp] theorem State.answered_cfg : s.answered.cfg = s.cfg := by
  unfold State.answered; split <;> rfl
@[simp] theorem State.answered_chans : s.answered.chans = s.chans := by
  unfold State.answered; split <;> rfl
@[simp] theorem State.answered_pins : s.answered.pins = s.pins := by
  unfold State.answered; split <;> rfl
@[simp] theorem State.answered_backend : s.answered.backend = s.backend := by
  unfold State.answered; split <;> rfl
@[simp] theorem State.answered_ctrls : s.answered.ctrls = s.ctrls := by
  unfold State.answered; split <;> rfl
@[simp] theorem State.answered_mix : s.answered.mix = s.mix := by
  unfold State.answered; split <;> rfl
@[simp] theorem State.answered_held : s.answered.held = s.held := by
  unfold State.answered; split <;> rfl
@[simp] theorem State.answered_unseen : s.answered.unseen = s.unseen := by
  unfold State.answered; split <;> rfl
@[simp] theorem State.answered_rsps : s.answered.rsps = s.rsps := by
  unfold State.answered; split <;> rfl
@[simp] theorem State.answered_sink : s.answered.sink = s.sink := by
  unfold State.answered; split <;> rfl
@[simp] theorem State.answered_fault : s.answered.fault = s.fault := by
  unfold State.answered; split <;> rfl
@[simp] theorem State.answered_cur : s.answered.cur = s.cur := by
  unfold State.answered; split <;> rfl
@[simp] theorem State.answered_events : s.answered.events = s.events := by
  unfold State.answered; split <;> rfl

/-! ### The device's answer depends on the answers and the counter alone -/

@[simp] theorem State.putChan_answer (c : Nat) (ch : Channel) : (s.putChan c ch).answer = s.answer := rfl
@[simp] theorem State.putPin_answer (p : Nat) (m : PinEntry) : (s.putPin p m).answer = s.answer := rfl
@[simp] theorem State.putBackend_answer (b : Backend) : (s.putBackend b).answer = s.answer := rfl
@[simp] theorem State.raise_answer (f : Fault) : (s.raise f).answer = s.answer := rfl
@[simp] theorem State.reply_answer (k : Nat) (r : Reply) : (s.reply k r).answer = s.answer := rfl
@[simp] theorem State.deliver_answer (out : List Int) : (s.deliver out).answer = s.answer := rfl
@[simp] theorem State.putJob_answer (k : Nat) (j : Option CtrlJob) : (s.putJob k j).answer = s.answer := rfl
theorem State.putChan_answered (c : Nat) (ch : Channel) : (s.putChan c ch).answered = s.answered.putChan c ch := by
  unfold State.answered; simp only [putChan_answers]; split <;> rfl
theorem State.putPin_answered (p : Nat) (m : PinEntry) : (s.putPin p m).answered = s.answered.putPin p m := by
  unfold State.answered; simp only [putPin_answers]; split <;> rfl
theorem State.putBackend_answered (b : Backend) : (s.putBackend b).answered = s.answered.putBackend b := by
  unfold State.answered; simp only [putBackend_answers]; split <;> rfl
theorem State.raise_answered (f : Fault) : (s.raise f).answered = s.answered.raise f := by
  unfold State.answered; simp only [raise_answers]; split <;> rfl
theorem State.reply_answered (k : Nat) (r : Reply) : (s.reply k r).answered = s.answered.reply k r := by
  unfold State.answered; simp only [reply_answers]; split <;> rfl
theorem State.deliver_answered (out : List Int) : (s.deliver out).answered = s.answered.deliver out := by
  unfold State.answered; simp only [deliver_answers]; split <;> rfl
theorem State.putJob_answered (k : Nat) (j : Option CtrlJob) : (s.putJob k j).answered = s.answered.putJob k j := by
  unfold State.answered; simp only [putJob_answers]; split <;> rfl

/-! ### opened and started -/

@[simp] theorem State.opened_cfg : s.opened.cfg = s.cfg := by unfold State.opened; split <;> simp
@[simp] theorem State.opened_chans : s.opened.chans = s.chans := by unfold State.opened; split <;> simp
@[simp] theorem State.opened_pins : s.opened.pins = s.pins := by unfold State.opened; split <;> simp
@[simp] theorem State.opened_cur : s.opened.cur = s.cur := by unfold State.opened; split <;> simp

end Sys2Proof.Machine
end

