-- ==== Sys2Proof/Laws/Cells.lean ====
section
/-! SUPPORT. What one load and one store can do: reading back, every other cell unchanged, the shape of the cells kept. -/

namespace Sys2Proof.Machine

open Sys2Proof

variable {s t : State} {c : Nat} {ch : Channel} {x y : Cell} {v : Nat}

/-! ### Loads -/

theorem load_freq (h : s.chans[c]? = some ch) : s.load (.freq c) = some ch.freq.toNat := by simp [State.load, h]
theorem load_phase (h : s.chans[c]? = some ch) : s.load (.phase c) = some ch.phase := by simp [State.load, h]
theorem load_duty (h : s.chans[c]? = some ch) : s.load (.duty c) = some ch.duty.toNat := by simp [State.load, h]
theorem load_resmax (h : s.chans[c]? = some ch) : s.load (.resmax c) = some ch.resmax.toNat := by
  simp [State.load, h]
theorem load_attached (h : s.chans[c]? = some ch) : s.load (.attached c) = some ch.attached.toNat := by
  simp [State.load, h]
theorem load_pinmap {p : Nat} (h : p < s.pins.length) : s.load (.pinmap p) = some (s.entry p) := by
  simp [State.load, State.entry, h]
theorem load_backend : s.load .backend = some s.backend.code := rfl

/-! ### Stores -/

theorem store_freq (h : s.chans[c]? = some ch) :
    s.store (.freq c) v = some (s.putChan c { ch with freq := BitVec.ofNat 32 v }) := by simp [State.store, h]
theorem store_phase (h : s.chans[c]? = some ch) :
    s.store (.phase c) v = some (s.putChan c { ch with phase := v }) := by simp [State.store, h]
theorem store_duty (h : s.chans[c]? = some ch) :
    s.store (.duty c) v = some (s.putChan c { ch with duty := BitVec.ofNat 32 v }) := by simp [State.store, h]
theorem store_resmax (h : s.chans[c]? = some ch) :
    s.store (.resmax c) v = some (s.putChan c { ch with resmax := BitVec.ofNat 16 v }) := by simp [State.store, h]
theorem store_attached (h : s.chans[c]? = some ch) :
    s.store (.attached c) v = some (s.putChan c { ch with attached := v != 0 }) := by simp [State.store, h]
theorem store_pinmap {p : Nat} (h : p < s.pins.length) :
    s.store (.pinmap p) v = some (s.putPin p (BitVec.ofNat 8 v)) := by simp [State.store, h]
theorem store_backend : s.store .backend v = some (s.putBackend (Backend.ofCode v)) := rfl

/-- A store answers only where the cell exists, and then it is one of the three updates. -/
theorem store_cases (h : s.store x v = some t) :
    (∃ c ch ch', s.chans[c]? = some ch ∧ t = s.putChan c ch') ∨
    (∃ p m, p < s.pins.length ∧ x = .pinmap p ∧ t = s.putPin p m) ∨ (∃ b, x = .backend ∧ t = s.putBackend b) := by
  cases x <;> simp only [State.store, Option.map_eq_some_iff, Option.some.injEq] at h
  case pinmap p =>
    obtain ⟨m, hm, rfl⟩ := h
    exact .inr (.inl ⟨p, _, (List.getElem?_eq_some_iff.mp hm).1, rfl, rfl⟩)
  case backend => exact .inr (.inr ⟨_, rfl, h.symm⟩)
  all_goals
    obtain ⟨ch, hc, rfl⟩ := h
    exact .inl ⟨_, ch, _, hc, rfl⟩

/-- Writing back what was read to the channel table's other positions changes nothing. -/
theorem putChan_getElem?_ne {c d : Nat} (h : d ≠ c) : (s.putChan c ch).chans[d]? = s.chans[d]? := by
  simp [List.getElem?_set_ne (Ne.symm h)]

theorem putChan_getElem?_self {ch' : Channel} (h : s.chans[c]? = some ch') : (s.putChan c ch).chans[c]? = some ch := by
  have hlt := (List.getElem?_eq_some_iff.mp h).1
  simp [hlt]

/-- Two replacements of one channel's cells are the last one. -/
@[simp] theorem putChan_putChan {a b : Channel} : (s.putChan c a).putChan c b = s.putChan c b := by
  simp [State.putChan, List.set_set]

/-- A store leaves every other cell alone. -/
theorem load_store_ne (h : s.store x v = some t) (hne : y ≠ x) : t.load y = s.load y := by
  cases x <;> simp only [State.store, Option.map_eq_some_iff, Option.some.injEq] at h
  case pinmap p =>
    obtain ⟨m, hm, rfl⟩ := h
    cases y <;> try rfl
    case pinmap q =>
      have : p ≠ q := fun e => hne (by rw [e])
      simp [State.load, List.getElem?_set_ne this]
  case backend =>
    subst h
    cases y <;> first | rfl | exact absurd rfl hne
  all_goals
    rename_i c
    obtain ⟨ch, hc, rfl⟩ := h
    have hlt := (List.getElem?_eq_some_iff.mp hc).1
    cases y <;> try rfl
    all_goals
      rename_i d
      by_cases hd : d = c
      · subst hd
        first
          | exact absurd rfl hne
          | simp only [State.load, putChan_getElem?_self hc, hc, Option.map_some]
      · simp only [State.load, putChan_getElem?_ne hd]

/-- A load after a store to the same cell returns what the cell keeps of the value. -/
theorem load_store_self (h : s.store x v = some t) : t.load x = some (x.kept v) := by
  cases x <;> simp only [State.store, Option.map_eq_some_iff, Option.some.injEq] at h
  case pinmap p =>
    obtain ⟨m, hm, rfl⟩ := h
    have hlt := (List.getElem?_eq_some_iff.mp hm).1
    simp [State.load, Cell.kept, hlt]
  case backend => subst h; rfl
  all_goals
    obtain ⟨ch, hc, rfl⟩ := h
    simp only [State.load, putChan_getElem?_self hc, Option.map_some, Cell.kept, BitVec.toNat_ofNat]

/-- Storing what the cell keeps of a value is storing the value. -/
theorem store_kept : s.store x (x.kept v) = s.store x v := by
  have hw (w : Nat) : BitVec.ofNat w (v % 2 ^ w) = BitVec.ofNat w v := by
    apply BitVec.eq_of_toNat_eq; simp
  cases x
  case attached => cases v <;> rfl
  case backend =>
    have : Backend.ofCode (Backend.ofCode v).code = Backend.ofCode v := by cases Backend.ofCode v <;> rfl
    simp only [State.store, Cell.kept, this]
  all_goals simp only [State.store, Cell.kept, hw]

/-- A store reads and changes nothing but the cells. -/
theorem store_of_cells {u : State} (h : s.store x v = some t) (h1 : u.chans = s.chans) (h2 : u.pins = s.pins)
    (h3 : u.backend = s.backend) :
    u.store x v = some { u with chans := t.chans, pins := t.pins, backend := t.backend } := by
  cases x <;> simp only [State.store, Option.map_eq_some_iff, Option.some.injEq] at h ⊢
  case backend => subst h; simp only [State.putBackend, ← h1, ← h2]
  case pinmap => obtain ⟨m, hm, rfl⟩ := h; exact ⟨m, h2 ▸ hm, by simp only [State.putPin, ← h1, ← h2, ← h3]⟩
  all_goals obtain ⟨ch, hm, rfl⟩ := h; exact ⟨ch, h1 ▸ hm, by simp only [State.putChan, ← h1, ← h2, ← h3]⟩

/-- A store answers exactly where a load does: where the cell exists. -/
theorem store_isSome : (s.store x v).isSome = (s.load x).isSome := by
  cases x <;> simp [State.store, State.load]

/-- A store leaves the ports, the agents, the configuration and the environment alone. -/
theorem store_outside (h : s.store x v = some t) :
    t.cfg = s.cfg ∧ t.ctrls = s.ctrls ∧ t.mix = s.mix ∧ t.rsps = s.rsps ∧ t.sink = s.sink ∧ t.fault = s.fault ∧
      t.cur = s.cur ∧ t.events = s.events ∧ t.answers = s.answers ∧ t.drawn = s.drawn ∧ t.held = s.held ∧
      t.unseen = s.unseen := by
  rcases store_cases h with ⟨c, ch, ch', -, rfl⟩ | ⟨p, m, -, -, rfl⟩ | ⟨b, -, rfl⟩ <;> simp

/-- A store never resizes the channel table or the pin map (10_state.md R21, R29). -/
theorem store_shape (h : s.store x v = some t) :
    t.chans.length = s.chans.length ∧ t.pins.length = s.pins.length := by
  rcases store_cases h with ⟨c, ch, ch', -, rfl⟩ | ⟨p, m, -, -, rfl⟩ | ⟨b, -, rfl⟩ <;> simp

/-! ### Cells beside the other fields -/

@[simp] theorem load_putJob {k : Nat} {j : Option CtrlJob} : (s.putJob k j).load x = s.load x := by cases x <;> rfl
@[simp] theorem load_answered : s.answered.load x = s.load x := by cases x <;> simp [State.load]
@[simp] theorem load_reply {k : Nat} {r : Reply} : (s.reply k r).load x = s.load x := by cases x <;> rfl
@[simp] theorem load_raise {f : Fault} : (s.raise f).load x = s.load x := by cases x <;> rfl
@[simp] theorem load_deliver {out : List Int} : (s.deliver out).load x = s.load x := by cases x <;> rfl

/-- A store does not touch the agents. -/
theorem store_putJob {k : Nat} {j : Option CtrlJob} (h : s.store x v = some t) :
    (s.putJob k j).store x v = some (t.putJob k j) := by
  cases x <;> simp only [State.store, Option.map_eq_some_iff, Option.some.injEq] at h ⊢
  case backend => subst h; rfl
  all_goals
    obtain ⟨a, ha, rfl⟩ := h
    exact ⟨a, ha, rfl⟩

/-- A store and a draw do not touch one another. -/
theorem store_answered (h : s.store x v = some t) : s.answered.store x v = some t.answered := by
  cases x <;> simp only [State.store, Option.map_eq_some_iff, Option.some.injEq] at h ⊢
  case backend => subst h; exact (State.putBackend_answered ..).symm
  case pinmap =>
    obtain ⟨a, ha, rfl⟩ := h
    exact ⟨a, by rwa [State.answered_pins], (State.putPin_answered ..).symm⟩
  all_goals
    obtain ⟨a, ha, rfl⟩ := h
    exact ⟨a, by rwa [State.answered_chans], (State.putChan_answered ..).symm⟩

end Sys2Proof.Machine
end

