-- ==== Sys2Proof/Laws/Programs.lean ====
section
/-! SUPPORT. What running each shared procedure can do, said once: the gates, `activate`, `resolve`, the scan, the stores of
an attach; and an induction over programs. -/

namespace Sys2Proof.Machine

open Sys2Proof

variable {α : Type} {fin : α → State → State} {s : State}

/-! ### One access -/

theorem run_done {a : α} : (Prog.done a).run fin s = fin a s := rfl

theorem run_ld {x : Cell} {k : Nat → Prog α} {v : Nat} (h : s.load x = some v) :
    (Prog.ld x k).run fin s = (k v).run fin s := by simp [Prog.run, h]

theorem run_st {x : Cell} {v : Nat} {k : Prog α} {t : State} (h : s.store x v = some t) :
    (Prog.st x v k).run fin s = k.run fin t := by simp [Prog.run, h]

theorem run_ld_none {x : Cell} {k : Nat → Prog α} (h : s.load x = none) :
    (Prog.ld x k).run fin s = s.raise (.noSuchCell x) := by simp [Prog.run, h]

theorem run_st_none {x : Cell} {v : Nat} {k : Prog α} (h : s.store x v = none) :
    (Prog.st x v k).run fin s = s.raise (.noSuchCell x) := by simp [Prog.run, h]

theorem run_ite {c : Prop} [Decidable c] {p q : Prog α} :
    (if c then p else q).run fin s = if c then p.run fin s else q.run fin s := by split <;> rfl

theorem run_st_backend {b : Nat} {k : Prog α} :
    (Prog.st .backend b k).run fin s = k.run fin (s.putBackend (Backend.ofCode b)) := rfl

/-! ### Induction -/

/-- What a store, a draw, a recorded fault and the end of the program keep, a program keeps. -/
theorem run_preserves {P : State → Prop}
    (hst : ∀ s x v t, P s → s.store x v = some t → P t) (hdraw : ∀ s, P s → P s.answered)
    (hraise : ∀ s f, P s → P (s.raise f)) (hfin : ∀ a s, P s → P (fin a s)) :
    ∀ (p : Prog α) (s : State), P s → P (p.run fin s) := by
  intro p
  induction p with
  | done a => exact fun s h => hfin a s h
  | ld x k ih =>
    intro s h
    simp only [Prog.run]
    split
    · exact ih _ s h
    · exact hraise s _ h
  | st x v k ih =>
    intro s h
    simp only [Prog.run]
    split
    · exact ih _ (hst s x v _ h ‹_›)
    · exact hraise s _ h
  | draw k ih => exact fun s h => ih _ _ (hdraw s h)
  | raise f => exact fun s h => hraise s f h

/-! ### BACKEND -/

theorem code_inj {a b : Backend} : a.code = b.code ↔ a = b := by cases a <;> cases b <;> decide

/-- gate (43_backend_stream.md R180). -/
theorem run_gate {fin : Reply → State → State} {k : CmdProg} :
    (gate k).run fin s = if s.backend = .failed then fin (.fail .deviceUnavailable) s else k.run fin s := by
  simp only [gate, Prog.run, State.load, code_inj]
  split <;> rfl

/-- gate_attach (43_backend_stream.md R181). -/
theorem run_gateAttach {fin : Reply → State → State} {k : CmdProg} :
    (gateAttach k).run fin s =
      if s.backend = .failed then fin (.fail .deviceUnavailable) s
      else if s.backend = .uninit then
        if s.answer then k.run fin (s.answered.putBackend .ready)
        else fin (.fail .deviceUnavailable) (s.answered.putBackend .failed)
      else k.run fin s := by
  simp only [gateAttach, Prog.run, State.load, code_inj]
  by_cases hf : s.backend = .failed
  · simp [hf, Prog.run]
  · by_cases hu : s.backend = .uninit
    · cases hb : s.answer <;> simp [hu, Prog.run, State.store, Backend.ofCode, Backend.code, hb]
    · simp [hf, hu]

/-- gate_attach where it lets the command proceed. -/
theorem run_gateAttach_of {fin : Reply → State → State} {k : CmdProg} (h : s.deviceThere) :
    (gateAttach k).run fin s = k.run fin s.opened := by
  obtain ⟨hf, hu⟩ := h
  rw [run_gateAttach, if_neg hf, State.opened]
  split
  · rw [if_pos (hu ‹_›)]
  · rfl

/-- activate (43_backend_stream.md R183). -/
theorem run_activate {fin : Reply → State → State} {k : CmdProg} :
    (activate k).run fin s =
      if s.backend = .ready then
        if s.answer then k.run fin (s.answered.putBackend .running)
        else fin (.fail .deviceUnavailable) (s.answered.putBackend .failed)
      else if s.backend = .failed then fin (.fail .deviceUnavailable) s
      else k.run fin s := by
  simp only [activate, Prog.run, State.load, code_inj]
  by_cases hf : s.backend = .ready
  · cases hb : s.answer <;> simp [hf, Prog.run, State.store, Backend.ofCode, Backend.code, hb]
  · by_cases hu : s.backend = .failed
    · simp [hu, Prog.run]
    · simp [hf, hu]

/-- activate where it succeeds. -/
theorem run_activate_of {fin : Reply → State → State} {k : CmdProg} (h : s.streamStarts) :
    (activate k).run fin s = k.run fin s.started := by
  obtain ⟨hf, hu⟩ := h
  rw [run_activate, State.started]
  split
  · rw [if_pos (hu ‹_›)]
  · rfl

/-- activate at the end of a write path where it succeeds (43_backend_stream.md R184). -/
theorem run_activateWhen_of {fin : Reply → State → State} {k : CmdProg} {z : Bool}
    (h : z → s.streamStarts) : (activateWhen z k).run fin s = k.run fin (s.startedWhen z) := by
  cases z
  · rfl
  · exact run_activate_of (h rfl)

/-! ### The pin router -/

/-- Everything `resolve` can do (41_mutators.md R130). -/
theorem run_resolve_cases {fin : Reply → State → State} (k : Nat → CmdProg) (pin : Nat) :
    (s.cfg.nPin ≤ pin ∧ (resolve s.cfg pin k).run fin s = fin (.fail .invalidPin) s) ∨
    (pin < s.cfg.nPin ∧ s.pins.length ≤ pin ∧
      (resolve s.cfg pin k).run fin s = s.raise (.noSuchCell (.pinmap pin))) ∨
    (pin < s.cfg.nPin ∧ pin < s.pins.length ∧ s.entry pin = unassigned.toNat ∧
      (resolve s.cfg pin k).run fin s = fin (.fail .pinNotAttached) s) ∨
    (pin < s.cfg.nPin ∧ pin < s.pins.length ∧ s.entry pin ≠ unassigned.toNat ∧ s.chans[s.entry pin]? = none ∧
      (resolve s.cfg pin k).run fin s = s.raise (.noSuchCell (.attached (s.entry pin)))) ∨
    (∃ ch, pin < s.cfg.nPin ∧ pin < s.pins.length ∧ s.entry pin ≠ unassigned.toNat ∧
      s.chans[s.entry pin]? = some ch ∧ ch.attached = false ∧
      (resolve s.cfg pin k).run fin s = fin (.fail .invalidChannel) s) ∨
    (∃ ch, s.resolves pin (s.entry pin) ch ∧
      (resolve s.cfg pin k).run fin s = (k (s.entry pin)).run fin s) := by
  by_cases hp : s.cfg.nPin ≤ pin
  · exact .inl ⟨hp, by simp [resolve, hp, Prog.run]⟩
  have hp' := Nat.lt_of_not_le hp
  refine .inr ?_
  by_cases hl : s.pins.length ≤ pin
  · exact .inl ⟨hp', hl, by simp [resolve, hp, Prog.run, State.load, hl]⟩
  have hl' := Nat.lt_of_not_le hl
  refine .inr ?_
  by_cases hu : s.entry pin = unassigned.toNat
  · exact .inl ⟨hp', hl', hu, by simp [resolve, hp, Prog.run, load_pinmap hl', hu]⟩
  refine .inr ?_
  cases hc : s.chans[s.entry pin]? with
  | none =>
    have hn : s.load (.attached (s.entry pin)) = none := by simp [State.load, hc]
    exact .inl ⟨hp', hl', hu, rfl, by simp [resolve, hp, Prog.run, load_pinmap hl', hu, hn]⟩
  | some ch =>
    refine .inr ?_
    cases ha : ch.attached with
    | false =>
      exact .inl ⟨ch, hp', hl', hu, rfl, ha, by
        simp [resolve, hp, Prog.run, load_pinmap hl', hu, load_attached hc, ha]⟩
    | true =>
      exact .inr ⟨ch, ⟨hp', hl', rfl, hu, hc, ha⟩, by
        simp [resolve, hp, Prog.run, load_pinmap hl', hu, load_attached hc, ha]⟩

/-- `resolve` on a pin the router translates. -/
theorem run_resolve_of {fin : Reply → State → State} {k : Nat → CmdProg} {pin c : Nat} {ch : Channel}
    (h : s.resolves pin c ch) : (resolve s.cfg pin k).run fin s = (k c).run fin s := by
  obtain ⟨hp, hl, rfl, hu, hc, ha⟩ := h
  simp [resolve, Nat.not_le.mpr hp, Prog.run, load_pinmap hl, hu, load_attached hc, ha]

/-! ### The allocator -/

/-- The scan past `c` channels that are not Free (40_attach_detach.md R111). -/
theorem run_scanFree_past {fin : Reply → State → State} {found : Nat → CmdProg} {full : CmdProg} :
    ∀ (left c d : Nat), (∀ j, c ≤ j → j < c + d → ∃ ch, s.chans[j]? = some ch ∧ ch.attached = true) → d ≤ left →
      (scanFree found full left c).run fin s = (scanFree found full (left - d) (c + d)).run fin s := by
  intro left c d
  induction d generalizing left c with
  | zero => intro _ _; simp
  | succ d ih =>
    intro h hd
    obtain ⟨l, rfl⟩ : ∃ l, left = l + 1 := ⟨left - 1, by omega⟩
    obtain ⟨ch, hc, ha⟩ := h c (by omega) (by omega)
    rw [scanFree, run_ld (load_attached hc), ha, if_neg (by decide),
      ih l (c + 1) (fun j h1 h2 => h j (by omega) (by omega)) (by omega)]
    congr 2 <;> omega

/-- The scan finds the lowest Free channel. -/
theorem run_scanFree_found {fin : Reply → State → State} {found : Nat → CmdProg} {full : CmdProg} {n c : Nat}
    {ch : Channel} (hlow : ∀ j < c, ∃ d, s.chans[j]? = some d ∧ d.attached = true) (hc : s.chans[c]? = some ch)
    (ha : ch.attached = false) (hn : c < n) :
    (scanFree found full n 0).run fin s = (found c).run fin s := by
  rw [run_scanFree_past n 0 c (fun j _ h => hlow j (by omega)) (by omega)]
  obtain ⟨l, hl⟩ : ∃ l, n - c = l + 1 := ⟨n - c - 1, by omega⟩
  rw [hl, scanFree, Nat.zero_add, run_ld (load_attached hc), ha]
  rfl

/-- The scan of a pool with no Free channel. -/
theorem run_scanFree_full {fin : Reply → State → State} {found : Nat → CmdProg} {full : CmdProg} {n : Nat}
    (h : ∀ j < n, ∃ d, s.chans[j]? = some d ∧ d.attached = true) :
    (scanFree found full n 0).run fin s = full.run fin s := by
  rw [run_scanFree_past n 0 n (fun j _ hj => h j (by omega)) (by omega), Nat.sub_self]
  rfl

/-- The stores of an attach (40_attach_detach.md R112). -/
theorem run_attachStores {fin : Reply → State → State} {pin res c : Nat} {freq : Freq} {ch : Channel}
    (hc : s.chans[c]? = some ch) (hp : pin < s.pins.length) :
    (attachStores pin freq res c).run fin s =
      fin (.ok 1) ((s.putChan c (ch.taken freq res)).putPin pin (BitVec.ofNat 8 c)) := by
  rw [attachStores, run_st (store_freq hc), run_st (store_resmax (putChan_getElem?_self hc)), putChan_putChan,
    run_st (store_attached (putChan_getElem?_self hc)), putChan_putChan, run_st (store_pinmap (by simpa using hp)),
    run_done]
  simp [Channel.taken, resmaxOf]

end Sys2Proof.Machine
end

