-- ==== Sys2Proof/Laws/Commands.lean ====
section
/-! SUPPORT. Each command's program stays inside the machine and stores to the cells of control agents alone; what the
rest of a command in progress keeps of that; what the invariant says of one load, one store and one draw. -/

namespace Sys2Proof.Machine

open Sys2Proof

variable {cfg : Config} {α : Type}

/-! ### Procedures -/

theorem gate_staysIn {k : CmdProg} (h : k.staysIn cfg) : (gate k).staysIn cfg :=
  ⟨trivial, fun v _ => by dsimp only; split <;> trivial⟩

theorem gateAttach_staysIn {k : CmdProg} (h : k.staysIn cfg) : (gateAttach k).staysIn cfg := by
  refine ⟨trivial, fun v _ => ?_⟩
  dsimp only
  split
  · trivial
  split
  · intro b
    dsimp only
    split <;> exact ⟨trivial, trivial, by trivial⟩
  · exact h

theorem activate_staysIn {k : CmdProg} (h : k.staysIn cfg) : (activate k).staysIn cfg := by
  refine ⟨trivial, fun v _ => ?_⟩
  dsimp only
  split
  · intro b
    dsimp only
    split <;> exact ⟨trivial, trivial, by trivial⟩
  split
  · trivial
  · exact h

theorem activateWhen_staysIn {k : CmdProg} {z : Bool} (h : k.staysIn cfg) : (activateWhen z k).staysIn cfg := by
  cases z
  · exact h
  · exact activate_staysIn h

theorem resolve_staysIn {pin : Nat} {k : Nat → CmdProg} (h : ∀ c < cfg.nCh, (k c).staysIn cfg) :
    (resolve cfg pin k).staysIn cfg := by
  unfold resolve
  split
  · trivial
  refine ⟨Nat.lt_of_not_le ‹_›, fun m hm => ?_⟩
  dsimp only
  split
  · trivial
  have hc : m < cfg.nCh := hm.resolve_left ‹_›
  refine ⟨hc, fun a _ => ?_⟩
  dsimp only
  split
  · trivial
  · exact h m hc

theorem scanFree_staysIn {found : Nat → CmdProg} {full : CmdProg} (hfound : ∀ c < cfg.nCh, (found c).staysIn cfg)
    (hfull : full.staysIn cfg) :
    ∀ left c, c + left ≤ cfg.nCh → (scanFree found full left c).staysIn cfg := by
  intro left
  induction left with
  | zero => exact fun c _ => hfull
  | succ n ih =>
    intro c hc
    refine ⟨show c < cfg.nCh by omega, fun a _ => ?_⟩
    dsimp only
    split
    · exact hfound c (by omega)
    · exact ih (c + 1) (by omega)

theorem attachStores_staysIn {pin res c : Nat} {freq : Freq} (hp : pin < cfg.nPin) (hc : c < cfg.nCh) :
    (attachStores pin freq res c).staysIn cfg :=
  ⟨hc, trivial, hc, trivial, hc, trivial, hp, .inr hc, trivial⟩

theorem storeDuty_staysIn {c : Nat} {duty : Duty} (hc : c < cfg.nCh) : (storeDuty c duty).staysIn cfg :=
  ⟨hc, trivial, activateWhen_staysIn trivial⟩

theorem toneBody_staysIn {pin : Nat} {freq : Freq} : (toneBody cfg pin freq).staysIn cfg := by
  refine resolve_staysIn fun c hc => ⟨hc, trivial, ?_⟩
  split
  · exact ⟨hc, fun r _ => ⟨hc, trivial, activate_staysIn trivial⟩⟩
  · exact ⟨hc, trivial, trivial⟩

/-- Every command's program stays inside the machine. -/
theorem commandProgram_staysIn {i : Instr} {p : CmdProg} (h : commandProgram cfg i = some p) : p.staysIn cfg := by
  cases i <;> simp only [commandProgram, Option.some.injEq, reduceCtorEq] at h <;> subst h
  case attach pin freq res =>
    refine gateAttach_staysIn ?_
    split
    · trivial
    · exact scanFree_staysIn (fun c hc => attachStores_staysIn (Nat.lt_of_not_le ‹_›) hc) (by trivial) _ _ (by omega)
  case attachch pin freq res ch =>
    refine gateAttach_staysIn ?_
    split
    · trivial
    split
    · trivial
    · exact attachStores_staysIn (Nat.lt_of_not_le ‹_›) (Nat.lt_of_not_le ‹_›)
  case write => exact gate_staysIn (resolve_staysIn fun c hc => storeDuty_staysIn hc)
  case writech ch duty =>
    refine gate_staysIn ?_
    split
    · trivial
    have hc : ch < cfg.nCh := Nat.lt_of_not_le ‹_›
    refine ⟨hc, fun a _ => ?_⟩
    dsimp only
    split
    · trivial
    · exact storeDuty_staysIn hc
  case tone => exact gate_staysIn toneBody_staysIn
  case note =>
    refine gate_staysIn ?_
    split
    · trivial
    · exact toneBody_staysIn
  case read => exact gate_staysIn (resolve_staysIn fun c hc => ⟨hc, fun _ _ => trivial⟩)
  case readf => exact gate_staysIn (resolve_staysIn fun c hc => ⟨hc, fun _ _ => trivial⟩)
  case detach pin =>
    refine ⟨trivial, fun b _ => ?_⟩
    dsimp only
    split
    · trivial
    split
    · trivial
    have hp : pin < cfg.nPin := Nat.lt_of_not_le ‹_›
    refine ⟨hp, fun m hm => ?_⟩
    dsimp only
    split
    · trivial
    have hc : m < cfg.nCh := hm.resolve_left ‹_›
    exact ⟨hc, trivial, hc, trivial, hp, .inl rfl, trivial⟩
  case chfreq => exact gate_staysIn (resolve_staysIn fun c hc => ⟨hc, trivial, hc, trivial, activateWhen_staysIn trivial⟩)

/-! ### Ownership -/

theorem gate_storesOwned {k : CmdProg} (h : k.storesOwned) : (gate k).storesOwned :=
  fun v => by dsimp only; split <;> trivial

theorem gateAttach_storesOwned {k : CmdProg} (h : k.storesOwned) : (gateAttach k).storesOwned := by
  intro v
  dsimp only
  split
  · trivial
  split
  · intro b
    dsimp only
    split <;> exact ⟨rfl, by trivial⟩
  · exact h

theorem activate_storesOwned {k : CmdProg} (h : k.storesOwned) : (activate k).storesOwned := by
  intro v
  dsimp only
  split
  · intro b
    dsimp only
    split <;> exact ⟨rfl, by trivial⟩
  split
  · trivial
  · exact h

theorem activateWhen_storesOwned {k : CmdProg} {z : Bool} (h : k.storesOwned) : (activateWhen z k).storesOwned := by
  cases z
  · exact h
  · exact activate_storesOwned h

theorem resolve_storesOwned {pin : Nat} {k : Nat → CmdProg} (h : ∀ c, (k c).storesOwned) :
    (resolve cfg pin k).storesOwned := by
  unfold resolve
  split
  · trivial
  intro m
  dsimp only
  split
  · trivial
  intro a
  dsimp only
  split
  · trivial
  · exact h m

theorem scanFree_storesOwned {found : Nat → CmdProg} {full : CmdProg} (hfound : ∀ c, (found c).storesOwned)
    (hfull : full.storesOwned) : ∀ left c, (scanFree found full left c).storesOwned := by
  intro left
  induction left with
  | zero => exact fun c => hfull
  | succ n ih =>
    intro c a
    dsimp only
    split
    · exact hfound c
    · exact ih (c + 1)

theorem storeDuty_storesOwned {c : Nat} {duty : Duty} : (storeDuty c duty).storesOwned :=
  ⟨rfl, activateWhen_storesOwned trivial⟩

theorem attachStores_storesOwned {pin res c : Nat} {freq : Freq} : (attachStores pin freq res c).storesOwned :=
  ⟨rfl, rfl, rfl, rfl, trivial⟩

theorem toneBody_storesOwned {pin : Nat} {freq : Freq} : (toneBody cfg pin freq).storesOwned := by
  refine resolve_storesOwned fun c => ⟨rfl, ?_⟩
  split
  · exact fun r => ⟨rfl, activate_storesOwned trivial⟩
  · exact ⟨rfl, trivial⟩

/-- No command stores to a phase (10_state.md R33). -/
theorem commandProgram_storesOwned {i : Instr} {p : CmdProg} (h : commandProgram cfg i = some p) : p.storesOwned := by
  cases i <;> simp only [commandProgram, Option.some.injEq, reduceCtorEq] at h <;> subst h
  case attach =>
    refine gateAttach_storesOwned ?_
    split
    · trivial
    · exact scanFree_storesOwned (fun _ => attachStores_storesOwned) (by trivial) _ _
  case attachch =>
    refine gateAttach_storesOwned ?_
    split
    · trivial
    split
    · trivial
    · exact attachStores_storesOwned
  case write => exact gate_storesOwned (resolve_storesOwned fun _ => storeDuty_storesOwned)
  case writech =>
    refine gate_storesOwned ?_
    split
    · trivial
    intro a
    dsimp only
    split
    · trivial
    · exact storeDuty_storesOwned
  case tone => exact gate_storesOwned toneBody_storesOwned
  case note =>
    refine gate_storesOwned ?_
    split
    · trivial
    · exact toneBody_storesOwned
  case read => exact gate_storesOwned (resolve_storesOwned fun _ _ => trivial)
  case readf => exact gate_storesOwned (resolve_storesOwned fun _ _ => trivial)
  case detach =>
    intro b
    dsimp only
    split
    · trivial
    split
    · trivial
    intro m
    dsimp only
    split
    · trivial
    exact ⟨rfl, rfl, rfl, trivial⟩
  case chfreq => exact gate_storesOwned (resolve_storesOwned fun _ => ⟨rfl, rfl, activateWhen_storesOwned trivial⟩)

/-- A command is an instruction with a program. -/
theorem commandProgram_isSome {i : Instr} : (commandProgram cfg i).isSome = isCommand i := by cases i <;> rfl

/-- exec of a command runs its program for the agent State.cur. -/
theorem exec_command {i : Instr} {s : State} {p : CmdProg} (h : commandProgram s.cfg i = some p) :
    exec i s = .next (s.runCommand p) := by
  cases i <;> simp only [commandProgram, Option.some.injEq, reduceCtorEq] at h <;> subst h <;> rfl

/-! ### Resuming -/

/-- A program resumed after more accesses is what is left resumed after those. -/
theorem resume_append (p : Prog α) (us vs : List Nat) : p.resume (us ++ vs) = (p.resume us).resume vs := by
  induction us generalizing p with
  | nil => simp [Prog.resume]
  | cons u us ih =>
    cases p <;> simp only [List.cons_append, Prog.resume]
    · cases vs <;> rfl
    · exact ih _
    · exact ih _
    · exact ih _
    · cases vs <;> rfl

/-- A program resumed after no access is itself. -/
theorem resume_nil (p : Prog α) : p.resume [] = p := by cases p <;> rfl

/-- After one more access the agent has the rest of its command's program resumed once. -/
theorem rest_advance {j : CtrlJob} {p : CmdProg} {v : Nat} (h : j.rest cfg = some p) :
    (j.advance v).rest cfg = some (p.resume [v]) := by
  obtain ⟨q, hq, rfl⟩ : ∃ q, commandProgram cfg j.instr = some q ∧ q.resume j.moved = p := by
    simpa [CtrlJob.rest] using h
  simp [CtrlJob.rest, CtrlJob.advance, hq, resume_append]

theorem rest_ld {j : CtrlJob} {x : Cell} {k : Nat → CmdProg} {v : Nat} (h : j.rest cfg = some (.ld x k)) :
    (j.advance v).rest cfg = some (k v) := (rest_advance h).trans (congrArg some (resume_nil _))

theorem rest_st {j : CtrlJob} {x : Cell} {u v : Nat} {k : CmdProg} (h : j.rest cfg = some (.st x u k)) :
    (j.advance v).rest cfg = some k := (rest_advance h).trans (congrArg some (resume_nil _))

theorem rest_draw {j : CtrlJob} {k : Bool → CmdProg} {b : Bool} (h : j.rest cfg = some (.draw k)) :
    (j.advance b.toNat).rest cfg = some (k b) := by
  cases b <;> exact (rest_advance h).trans (congrArg some (resume_nil _))

/-- An agent that has just taken a command has all of its program to run. -/
theorem rest_start {i : Instr} : (CtrlJob.start i).rest cfg = commandProgram cfg i := by
  simp [CtrlJob.rest, CtrlJob.start, resume_nil]

/-! ### One access under the invariant -/

variable {s t : State} {x : Cell} {v : Nat}

/-- Under the invariant a cell that exists is loaded with a value it may hold. -/
theorem State.Inv.load (h : s.Inv) (hx : x.inRange s.cfg) : ∃ v, s.load x = some v ∧ x.mayHold s.cfg v := by
  cases x
  case backend => exact ⟨_, rfl, trivial⟩
  case pinmap p =>
    have hp : p < s.pins.length := by rw [h.entries]; exact hx
    refine ⟨_, by simp only [State.load, List.getElem?_eq_getElem hp, Option.map_some]; rfl, ?_⟩
    rcases h.pinmap _ (List.getElem_mem hp) with e | e
    · exact .inl (by rw [e])
    · exact .inr e
  all_goals
    rename_i c
    have hc : c < s.chans.length := by rw [h.channels]; exact hx
    refine ⟨_, by simp only [State.load, List.getElem?_eq_getElem hc, Option.map_some]; rfl, ?_⟩
    first
      | trivial
      | exact h.phases _ (List.getElem_mem hc)

/-- A store answers where the cell exists. -/
theorem State.Inv.store_some (h : s.Inv) (hx : x.inRange s.cfg) : ∃ t, s.store x v = some t := by
  obtain ⟨u, hu, -⟩ := h.load hx
  have := store_isSome (s := s) (x := x) (v := v)
  rw [hu] at this
  exact Option.isSome_iff_exists.mp this

/-- A store of a value the cell may hold keeps the invariant. -/
theorem State.Inv.store (h : s.Inv) (hv : x.mayHold s.cfg v) (hs : s.store x v = some t) : t.Inv := by
  obtain ⟨h1, h2, h3, h4, h5, h6, h7, -, -, -, h8, h9⟩ := store_outside hs
  obtain ⟨l1, l2⟩ := store_shape hs
  refine ⟨by rw [h1]; exact h.config, by rw [l1, h1, h.channels], by rw [l2, h1, h.entries],
    by rw [h2, h1, h.agents], ?_, ?_, by rw [h1, h2]; exact h.commands, by rw [h1, h3]; exact h.buffer,
    by rw [h1, h8]; exact h.held, by rw [h1, h9]; exact h.unseen, by rw [h1, h8, h9]; exact h.inOrder,
    by rw [h1, h5]; exact h.levels, by rw [h6]; exact h.noWildAccess⟩
  · rw [h1]
    cases x <;> simp only [State.store, Option.map_eq_some_iff, Option.some.injEq] at hs
    case pinmap => obtain ⟨_, -, rfl⟩ := hs; exact h.phases
    case backend => subst hs; exact h.phases
    all_goals
      obtain ⟨ch, hc, rfl⟩ := hs
      intro d hd
      rcases List.mem_or_eq_of_mem_set hd with hd | rfl
      · exact h.phases d hd
      · first
          | exact hv
          | exact h.phases ch (List.mem_of_getElem? hc)
  · rw [h1]
    cases x <;> simp only [State.store, Option.map_eq_some_iff, Option.some.injEq] at hs
    case pinmap p =>
      obtain ⟨_, -, rfl⟩ := hs
      intro d hd
      rcases List.mem_or_eq_of_mem_set hd with hd | rfl
      · exact h.pinmap d hd
      · rcases hv with rfl | hv
        · exact .inl rfl
        · have := h.config.1.2
          right
          rw [BitVec.toNat_ofNat]
          exact lt_of_le_of_lt (Nat.mod_le _ _) hv
    case backend => subst hs; exact h.pinmap
    all_goals
      obtain ⟨_, -, rfl⟩ := hs
      exact h.pinmap

/-- A draw keeps the invariant. -/
theorem State.Inv.answered (h : s.Inv) : s.answered.Inv := by
  refine ⟨?_, ?_, ?_, ?_, ?_, ?_, ?_, ?_, ?_, ?_, ?_, ?_, ?_⟩ <;> simp only [State.answered_cfg, State.answered_chans,
    State.answered_pins, State.answered_ctrls, State.answered_mix, State.answered_held, State.answered_unseen, State.answered_sink, State.answered_fault]
  exacts [h.config, h.channels, h.entries, h.agents, h.phases, h.pinmap, h.commands, h.buffer, h.held, h.unseen, h.inOrder, h.levels, h.noWildAccess]

/-- A response keeps the invariant. -/
theorem State.Inv.reply (h : s.Inv) (k : Nat) (r : Reply) : (s.reply k r).Inv :=
  ⟨h.config, h.channels, h.entries, h.agents, h.phases, h.pinmap, h.commands, h.buffer, h.held, h.unseen, h.inOrder, h.levels, h.noWildAccess⟩

/-- A program that stays inside the machine, run under the invariant, keeps it. -/
theorem State.Inv.run {fin : α → State → State} (hfin : ∀ a u, u.Inv → (fin a u).Inv) {p : Prog α} :
    ∀ {s : State}, s.Inv → p.staysIn s.cfg → (p.run fin s).Inv := by
  induction p with
  | done a => exact fun h _ => hfin a _ h
  | ld x k ih =>
    intro s h hp
    obtain ⟨v, hv, hm⟩ := h.load hp.1
    rw [run_ld hv]
    exact ih v h (hp.2 v hm)
  | st x v k ih =>
    intro s h hp
    obtain ⟨t, ht⟩ := h.store_some hp.1
    rw [run_st ht]
    exact ih (h.store hp.2.1 ht) (by rw [(store_outside ht).1]; exact hp.2.2)
  | draw k ih =>
    intro s h hp
    exact ih _ h.answered (by rw [State.answered_cfg]; exact hp _)
  | raise f =>
    intro s h hp
    obtain ⟨c, i, rfl⟩ := hp
    exact ⟨h.config, h.channels, h.entries, h.agents, h.phases, h.pinmap, h.commands, h.buffer, h.held, h.unseen, h.inOrder, h.levels,
      fun x e => by cases e⟩

end Sys2Proof.Machine
end

