-- ==== Sys2Proof/Laws/Agents.lean ====
section
/-! SUPPORT. What one step of an agent can do, said once; and how many accesses a command makes. -/

namespace Sys2Proof.Machine

open Sys2Proof

variable {α : Type} {cfg : Config}

/-! ### One step of a control agent -/

/-- What one step of control agent k makes of s. -/
inductive CtrlTicked (k : Nat) (s : State) : State → Prop where
  /-- It is idle. -/
  | idle : s.jobOf k = none → CtrlTicked k s s
  /-- It holds no command that has a program, which no state of the invariant does. -/
  | stuck (j : CtrlJob) : s.jobOf k = some j → j.rest s.cfg = none → CtrlTicked k s s
  | respond (j : CtrlJob) (r : Reply) : s.jobOf k = some j → j.rest s.cfg = some (.done r) →
      CtrlTicked k s ((s.putJob k none).reply k r)
  | load (j : CtrlJob) (x : Cell) (f : Nat → CmdProg) (v : Nat) : s.jobOf k = some j → j.rest s.cfg = some (.ld x f) →
      s.loadFor k x = some v → CtrlTicked k s (s.putJob k (some (j.advance v)))
  | loadNone (j : CtrlJob) (x : Cell) (f : Nat → CmdProg) : s.jobOf k = some j → j.rest s.cfg = some (.ld x f) →
      s.loadFor k x = none → CtrlTicked k s (s.raise (.noSuchCell x))
  | store (j : CtrlJob) (x : Cell) (v : Nat) (p : CmdProg) (t : State) : s.jobOf k = some j →
      j.rest s.cfg = some (.st x v p) → s.cfg.consistency = .sc → s.store x v = some t →
      CtrlTicked k s (t.putJob k (some (j.advance v)))
  | storeNone (j : CtrlJob) (x : Cell) (v : Nat) (p : CmdProg) : s.jobOf k = some j →
      j.rest s.cfg = some (.st x v p) → s.cfg.consistency = .sc → s.store x v = none →
      CtrlTicked k s (s.raise (.noSuchCell x))
  | hold (j : CtrlJob) (x : Cell) (v : Nat) (p : CmdProg) : s.jobOf k = some j →
      j.rest s.cfg = some (.st x v p) → s.cfg.consistency = .perCell →
      CtrlTicked k s { s.putJob k (some (j.advance v)) with held := s.held ++ [⟨k, x, x.kept v⟩] }
  | draw (j : CtrlJob) (f : Bool → CmdProg) : s.jobOf k = some j → j.rest s.cfg = some (.draw f) →
      CtrlTicked k s (s.answered.putJob k (some (j.advance s.answer.toNat)))
  | raise (j : CtrlJob) (f : Fault) : s.jobOf k = some j → j.rest s.cfg = some (.raise f) → CtrlTicked k s (s.raise f)

/-- The inversion of a control agent's step. -/
theorem ctrlTick_cases {k : Nat} {s t : State} (h : ctrlTick k s = t) : CtrlTicked k s t := by
  subst h
  unfold ctrlTick
  cases hj : s.jobOf k with
  | none => exact .idle hj
  | some j =>
    dsimp only
    cases hr : j.rest s.cfg with
    | none => exact .stuck j hj hr
    | some p =>
      cases p <;> simp only [State.stepProgram]
      case done r => exact .respond j r hj hr
      case ld x f =>
        cases hl : s.loadFor k x with
        | none => exact .loadNone j x f hj hr hl
        | some v => exact .load j x f v hj hr hl
      case st x v p =>
        unfold State.storeFor
        cases hc : s.cfg.consistency with
        | perCell => exact .hold j x v p hj hr hc
        | sc =>
          cases hs : s.store x v with
          | none => exact .storeNone j x v p hj hr hc hs
          | some t => exact .store j x v p t hj hr hc hs
      case draw f => exact .draw j f hj hr
      case raise f => exact .raise j f hj hr

/-- An agent whose command in progress is replaced has that one in progress. -/
theorem jobOf_putJob_self {s : State} {k : Nat} {j : Option CtrlJob} (h : k < s.ctrls.length) :
    (s.putJob k j).jobOf k = j := by
  simp [State.jobOf, h]

/-- The other agents' commands in progress are theirs still. -/
theorem jobOf_putJob_ne {s : State} {k l : Nat} {j : Option CtrlJob} (h : l ≠ k) :
    (s.putJob k j).jobOf l = s.jobOf l := by
  simp [State.jobOf, List.getElem?_set_ne (Ne.symm h)]

/-- An agent with a command in progress exists. -/
theorem jobOf_lt {s : State} {k : Nat} {j : CtrlJob} (h : s.jobOf k = some j) : k < s.ctrls.length := by
  unfold State.jobOf at h
  rw [Option.join_eq_some_iff] at h
  exact (List.getElem?_eq_some_iff.mp h).1

/-- Under the invariant a command in progress is sound. -/
theorem State.Inv.job {s : State} (h : s.Inv) {k : Nat} {j : CtrlJob} (hj : s.jobOf k = some j) : j.sound s.cfg := by
  unfold State.jobOf at hj
  rw [Option.join_eq_some_iff] at hj
  exact h.commands j (List.mem_of_getElem? hj)

/-! ### One step of MIX -/

/-- What one step of MIX makes of s. -/
inductive MixTicked (pick : Gate) (s : State) : State → Prop where
  | idle : s.mix = none → MixTicked pick s s
  | deliver (j : MixJob) : s.mix = some j → s.cfg.nCh ≤ j.c → MixTicked pick s (State.deliver { s with mix := none } j.out)
  | store (j : MixJob) (p : Nat) (t : State) : s.mix = some j → j.c < s.cfg.nCh → j.p = some p →
      s.store (.phase j.c) p = some t → MixTicked pick s { t with mix := some j.nextChannel }
  | storeNone (j : MixJob) (p : Nat) : s.mix = some j → j.c < s.cfg.nCh → j.p = some p →
      s.store (.phase j.c) p = none → MixTicked pick s (s.raise (.noSuchCell (.phase j.c)))
  | gate (j : MixJob) (g : Gate) (v : Nat) : s.mix = some j → j.c < s.cfg.nCh → j.p = none →
      j.nextGate s.cfg.consistency pick = some g → s.view .mix (gateCell j.c g) = some v →
      MixTicked pick s { s with mix := some (j.latch g v) }
  | gateNone (j : MixJob) (g : Gate) : s.mix = some j → j.c < s.cfg.nCh → j.p = none →
      j.nextGate s.cfg.consistency pick = some g → s.view .mix (gateCell j.c g) = none →
      MixTicked pick s (s.raise (.noSuchCell (gateCell j.c g)))
  | frames (j : MixJob) (p : Nat) : s.mix = some j → j.c < s.cfg.nCh → j.p = none →
      j.nextGate s.cfg.consistency pick = none → s.load (.phase j.c) = some p →
      MixTicked pick s (s.runFrames j (j.freq.getD 0) p)
  | framesNone (j : MixJob) : s.mix = some j → j.c < s.cfg.nCh → j.p = none →
      j.nextGate s.cfg.consistency pick = none → s.load (.phase j.c) = none →
      MixTicked pick s (s.raise (.noSuchCell (.phase j.c)))

/-- The inversion of MIX's step. -/
theorem mixTick_cases {pick : Gate} {s t : State} (h : mixTick pick s = t) : MixTicked pick s t := by
  subst h
  unfold mixTick
  cases hm : s.mix with
  | none => exact .idle hm
  | some j =>
    dsimp only
    by_cases hc : s.cfg.nCh ≤ j.c
    · rw [if_pos hc]; exact .deliver j hm hc
    rw [if_neg hc]
    have hc := Nat.lt_of_not_le hc
    cases hp : j.p with
    | some p =>
      dsimp only
      cases hs : s.store (.phase j.c) p with
      | none => exact .storeNone j p hm hc hp hs
      | some t => exact .store j p t hm hc hp hs
    | none =>
      dsimp only
      cases hg : j.nextGate s.cfg.consistency pick with
      | some g =>
        dsimp only
        cases hl : s.view .mix (gateCell j.c g) with
        | none => exact .gateNone j g hm hc hp hg hl
        | some v => exact .gate j g v hm hc hp hg hl
      | none =>
        dsimp only
        cases hl : s.load (.phase j.c) with
        | none => exact .framesNone j hm hc hp hg hl
        | some p => exact .frames j p hm hc hp hg hl

/-- The gate MIX loads next is one it has not latched. -/
theorem nextGate_latched {j : MixJob} {cons : Consistency} {pick g : Gate} (h : j.nextGate cons pick = some g) :
    j.latched g = none := by
  have hfind {g : Gate} (h : ([Gate.attached, .duty, .freq].find? fun g => (j.latched g).isNone) = some g) :
      j.latched g = none :=
    Option.isNone_iff_eq_none.mp (List.find?_some (p := fun g => (j.latched g).isNone) h)
  unfold MixJob.nextGate at h
  split at h
  · exact hfind h
  split at h
  · cases h; exact Option.isNone_iff_eq_none.mp ‹_›
  · exact hfind h

/-- Where MIX goes on to the phase, it has latched every gate value. -/
theorem nextGate_none {j : MixJob} {cons : Consistency} {pick : Gate} (h : j.nextGate cons pick = none) (g : Gate) :
    (j.latched g).isSome := by
  have hfind (h : ([Gate.attached, .duty, .freq].find? fun g => (j.latched g).isNone) = none) : (j.latched g).isSome := by
    have := List.find?_eq_none.mp h g (by cases g <;> decide)
    simpa [Option.isSome_iff_ne_none] using this
  unfold MixJob.nextGate at h
  split at h
  · exact hfind h
  split at h
  · cases h
  · exact hfind h

/-! ### How many accesses a command makes -/

/-- Whatever its loads and draws return, the program makes at most n accesses. -/
def Prog.within : Prog α → Nat → Prop
  | .done _, _ => True
  | .ld _ k, n + 1 => ∀ v, (k v).within n
  | .st _ _ k, n + 1 => k.within n
  | .draw k, n + 1 => ∀ b, (k b).within n
  | .raise _, _ => True
  | _, 0 => False

theorem Prog.within.mono {p : Prog α} : ∀ {m n : Nat}, p.within m → m ≤ n → p.within n := by
  induction p with
  | done a => exact fun _ _ => trivial
  | raise f => exact fun _ _ => trivial
  | ld x k ih =>
    intro m n h hmn
    cases m with
    | zero => exact h.elim
    | succ m =>
      cases n with
      | zero => omega
      | succ n => exact fun v => ih v (h v) (by omega)
  | st x v k ih =>
    intro m n h hmn
    cases m with
    | zero => exact h.elim
    | succ m =>
      cases n with
      | zero => omega
      | succ n => exact ih (m := m) h (by omega)
  | draw k ih =>
    intro m n h hmn
    cases m with
    | zero => exact h.elim
    | succ m =>
      cases n with
      | zero => omega
      | succ n => exact fun b => ih b (h b) (by omega)

/-- What is left after some accesses makes that many fewer. -/
theorem Prog.within.resume {p : Prog α} {n : Nat} {vs : List Nat} (h : p.within n) :
    (p.resume vs).within (n - vs.length) := by
  induction vs generalizing p n with
  | nil => rw [resume_nil]; exact h
  | cons v vs ih =>
    cases p
    case done => trivial
    case raise => trivial
    all_goals
      cases n with
      | zero => exact h.elim
      | succ n =>
        rw [List.length_cons, Nat.add_sub_add_right]
        first
          | exact ih (h _)
          | exact ih (p := _) h

theorem gate_within {k : CmdProg} {n : Nat} (h : k.within n) : (gate k).within (n + 1) := by
  intro v
  dsimp only
  split
  · trivial
  · exact h

theorem gateAttach_within {k : CmdProg} {n : Nat} (h : k.within n) : (gateAttach k).within (n + 3) := by
  intro v
  dsimp only
  split
  · trivial
  split
  · intro b
    dsimp only
    split
    · exact h
    · trivial
  · exact h.mono (by omega)

theorem activate_within {k : CmdProg} {n : Nat} (h : k.within n) : (activate k).within (n + 3) := by
  intro v
  dsimp only
  split
  · intro b
    dsimp only
    split
    · exact h
    · trivial
  split
  · trivial
  · exact h.mono (by omega)

theorem activateWhen_within {k : CmdProg} {n : Nat} {z : Bool} (h : k.within n) : (activateWhen z k).within (n + 3) := by
  cases z
  · exact h.mono (by omega)
  · exact activate_within h

theorem resolve_within {pin : Nat} {k : Nat → CmdProg} {n : Nat} (h : ∀ c, (k c).within n) :
    (resolve cfg pin k).within (n + 2) := by
  unfold resolve
  split
  · trivial
  intro m
  dsimp only
  split
  · trivial
  intro a
  dsimp only
  split
  · trivial
  · exact h m

theorem scanFree_within {found : Nat → CmdProg} {full : CmdProg} {n : Nat} (hfound : ∀ c, (found c).within n)
    (hfull : full.within n) : ∀ left c, (scanFree found full left c).within (n + left) := by
  intro left
  induction left with
  | zero => exact fun c => hfull
  | succ left ih =>
    intro c a
    dsimp only
    split
    · exact (hfound c).mono (Nat.le_add_right _ _)
    · exact ih (c + 1)

theorem attachStores_within {pin res c : Nat} {freq : Freq} : (attachStores pin freq res c).within 4 := trivial

theorem storeDuty_within {c : Nat} {duty : Duty} : (storeDuty c duty).within 4 :=
  activateWhen_within (n := 0) trivial

theorem toneBody_within {pin : Nat} {freq : Freq} : (toneBody cfg pin freq).within 8 := by
  refine resolve_within (n := 6) fun c => ?_
  show Prog.within (if _ then _ else _) 5
  split
  · exact fun r => activate_within (k := .done _) (n := 0) trivial
  · trivial

/-- Every command makes at most `longestCommand` accesses. -/
theorem commandProgram_within {i : Instr} {p : CmdProg} (hn : 1 ≤ cfg.nCh) (h : commandProgram cfg i = some p) :
    p.within (longestCommand cfg) := by
  have hl : 9 ≤ longestCommand cfg := by unfold longestCommand; omega
  cases i <;> simp only [commandProgram, Option.some.injEq, reduceCtorEq] at h <;> subst h
  case attach =>
    refine (gateAttach_within (n := 4 + cfg.nCh) ?_).mono (by unfold longestCommand; omega)
    split
    · trivial
    · exact scanFree_within (fun _ => attachStores_within) (by trivial) _ _
  case attachch =>
    refine (gateAttach_within (n := 4) ?_).mono (by omega)
    split
    · trivial
    split
    · trivial
    · trivial
  case write => exact (gate_within (resolve_within fun _ => storeDuty_within)).mono (by omega)
  case writech =>
    refine (gate_within (n := 5) ?_).mono (by omega)
    split
    · trivial
    intro a
    dsimp only
    split
    · trivial
    · exact storeDuty_within
  case tone => exact (gate_within toneBody_within).mono (by omega)
  case note =>
    refine (gate_within (n := 8) ?_).mono (by omega)
    split
    · trivial
    · exact toneBody_within
  case read =>
    refine (gate_within (resolve_within (n := 1) ?_)).mono (by omega)
    exact fun _ _ => trivial
  case readf =>
    refine (gate_within (resolve_within (n := 1) ?_)).mono (by omega)
    exact fun _ _ => trivial
  case detach =>
    refine Prog.within.mono (m := 5) (fun b => ?_) (by omega)
    dsimp only
    split
    · trivial
    split
    · trivial
    intro m
    dsimp only
    split
    · trivial
    · trivial
  case chfreq =>
    exact (gate_within (resolve_within (n := 5) fun _ => activateWhen_within (k := .done _) (n := 0) trivial)).mono (by omega)

/-- An agent whose command still has accesses to make has made fewer than `longestCommand`. -/
theorem rest_within {j : CtrlJob} {p : CmdProg} (hn : 1 ≤ cfg.nCh) (h : j.rest cfg = some p) :
    p.within (longestCommand cfg - j.moved.length) := by
  obtain ⟨q, hq, rfl⟩ : ∃ q, commandProgram cfg j.instr = some q ∧ q.resume j.moved = p := by
    simpa [CtrlJob.rest] using h
  exact (commandProgram_within hn hq).resume

/-- One more access takes one from the steps left. -/
theorem stepsLeft_advance {j : CtrlJob} {v : Nat} (h : j.moved.length < longestCommand cfg) :
    (j.advance v).stepsLeft cfg + 1 = j.stepsLeft cfg := by
  simp only [CtrlJob.stepsLeft, CtrlJob.advance, List.length_append, List.length_singleton]
  omega

end Sys2Proof.Machine
end

