-- ==== Sys2Proof/Laws/Config.lean ====
section
/-! SUPPORT. What the parameters 00_scope.md R5 gives a value and no range mean for the types and procedures that rest on
them, in every configuration in range. -/

namespace Sys2Proof

variable {cfg : Config}

theorem fixedValues_of_wf (h : cfg.wf) : cfg.fixedValues := h.2.2.2.1

/-- The resolutions are those the four bits of res_m1 carry (30_encoding.md R84, R99). -/
theorem resFits_iff (h : cfg.wf) (res : Nat) : resFits cfg res ↔ 1 ≤ res ∧ res ≤ 16 := by
  obtain ⟨h1, h2, -⟩ := fixedValues_of_wf h
  rw [resFits, h1, h2]

/-- Every duty cell holds DUTY_W bits and no more: the assembler takes exactly the duties (30_encoding.md R99). -/
theorem asmDuty_toNat (h : cfg.wf) (d : Duty) : asmDuty cfg d.toNat = some d := by
  obtain ⟨-, -, hw, -⟩ := fixedValues_of_wf h
  rw [asmDuty, hw, if_pos d.isLt, BitVec.ofNat_toNat, BitVec.setWidth_eq]

theorem asmDuty_refuses (h : cfg.wf) {v : Nat} (hv : 2 ^ 32 ≤ v) : asmDuty cfg v = none := by
  obtain ⟨-, -, hw, -⟩ := fixedValues_of_wf h
  rw [asmDuty, hw, if_neg (Nat.not_lt.mpr hv)]

namespace Machine

/-- A resolution maximum fits its cell: RESMAX_W bits hold 2^RES_MAX - 1 (00_scope.md R6). -/
theorem resmaxOf_fits (h : cfg.wf) {res : Nat} (hr : resFits cfg res) : resmaxOf res < 2 ^ 16 := by
  have := Nat.pow_le_pow_right (n := 2) (by decide) ((resFits_iff h res).mp hr).2
  have := Nat.two_pow_pos res
  unfold resmaxOf
  omega

/-- NOTE's two limits (41_mutators.md R138). -/
theorem noteInvalid_iff (h : cfg.wf) (nt oct : Nat) : noteInvalid cfg nt oct = true ↔ 12 ≤ nt ∨ 8 < oct := by
  obtain ⟨-, -, -, h1, h2, -⟩ := fixedValues_of_wf h
  rw [noteInvalid, decide_eq_true_eq, h1, h2]

/-- The stream is mono: one level for each frame (20_memory.md R53). -/
theorem sinkWords_eq (h : cfg.wf) (n : Nat) : sinkWords cfg n = n := by
  obtain ⟨-, -, -, -, -, h1⟩ := fixedValues_of_wf h
  rw [sinkWords, h1, Nat.mul_one]

end Machine

end Sys2Proof
end

