-- ==== Sys2Proof/Laws/Decode.lean ====
section
/-! SUPPORT. The command word and its fields: packing and unpacking, masks taken field by field, the rows of the opcode
table field by field. -/

namespace Sys2Proof

variable (op rn : BitVec 4) (ch : BitVec 8) (pin : BitVec 16) (imm : BitVec 32)

/-! ### Fields of a packed word -/

theorem packFields_getLsbD (i : Nat) :
    (packFields op rn ch pin imm).getLsbD i =
      if i < 32 then imm.getLsbD i
      else if i < 48 then pin.getLsbD (i - 32)
      else if i < 56 then ch.getLsbD (i - 48)
      else if i < 60 then rn.getLsbD (i - 56)
      else op.getLsbD (i - 60) := by
  unfold packFields
  simp only [BitVec.getLsbD_append]
  split_ifs <;> first | rfl | omega

theorem opField_pack : opField (packFields op rn ch pin imm) = op := by
  apply BitVec.eq_of_getLsbD_eq; intro i hi
  rw [opField, BitVec.getLsbD_extractLsb', packFields_getLsbD]
  simp [hi, show ¬ 60 + i < 32 by omega, show ¬ 60 + i < 48 by omega, show ¬ 60 + i < 56 by omega]

theorem rnField_pack : rnField (packFields op rn ch pin imm) = rn := by
  apply BitVec.eq_of_getLsbD_eq; intro i hi
  rw [rnField, BitVec.getLsbD_extractLsb', packFields_getLsbD]
  simp [hi, show ¬ 56 + i < 32 by omega, show ¬ 56 + i < 48 by omega, show 56 + i < 60 by omega]

theorem chField_pack : chField (packFields op rn ch pin imm) = ch := by
  apply BitVec.eq_of_getLsbD_eq; intro i hi
  rw [chField, BitVec.getLsbD_extractLsb', packFields_getLsbD]
  simp [hi, show ¬ 48 + i < 32 by omega, show 48 + i < 56 by omega]

theorem pinField_pack : pinField (packFields op rn ch pin imm) = pin := by
  apply BitVec.eq_of_getLsbD_eq; intro i hi
  rw [pinField, BitVec.getLsbD_extractLsb', packFields_getLsbD]
  simp [hi, show 32 + i < 48 by omega]

theorem immField_pack : immField (packFields op rn ch pin imm) = imm := by
  apply BitVec.eq_of_getLsbD_eq; intro i hi
  rw [immField, BitVec.getLsbD_extractLsb', packFields_getLsbD]
  simp [hi]

/-- The octave field is the lower half of the channel field (30_encoding.md R81). -/
theorem octaveField_eq (w : CmdWord) : octaveField w = (chField w).extractLsb' 0 4 := by
  apply BitVec.eq_of_getLsbD_eq; intro i hi
  rw [octaveField, chField]
  simp [hi, show i < 8 by omega]

/-- Every word is the packing of its fields. -/
theorem packFields_fields (w : CmdWord) :
    packFields (opField w) (rnField w) (chField w) (pinField w) (immField w) = w := by
  apply BitVec.eq_of_getLsbD_eq; intro i hi
  rw [packFields_getLsbD]
  unfold opField rnField chField pinField immField
  simp only [BitVec.getLsbD_extractLsb']
  by_cases h1 : i < 32
  · simp [h1]
  by_cases h2 : i < 48
  · simp [h1, h2, show i - 32 < 16 by omega, show 32 + (i - 32) = i by omega]
  by_cases h3 : i < 56
  · simp [h1, h2, h3, show i - 48 < 8 by omega, show 48 + (i - 48) = i by omega]
  by_cases h4 : i < 60
  · simp [h1, h2, h3, h4, show i - 56 < 4 by omega, show 56 + (i - 56) = i by omega]
  · simp [h1, h2, h3, h4, show i - 60 < 4 by omega, show 60 + (i - 60) = i by omega]

/-- Packing loses nothing. -/
theorem packFields_inj {op rn ch pin imm op' rn' ch' pin' imm'} :
    packFields op rn ch pin imm = packFields op' rn' ch' pin' imm' ↔
      op = op' ∧ rn = rn' ∧ ch = ch' ∧ pin = pin' ∧ imm = imm' := by
  constructor
  · intro h
    exact ⟨by simpa [opField_pack] using congrArg opField h, by simpa [rnField_pack] using congrArg rnField h,
      by simpa [chField_pack] using congrArg chField h, by simpa [pinField_pack] using congrArg pinField h,
      by simpa [immField_pack] using congrArg immField h⟩
  · rintro ⟨rfl, rfl, rfl, rfl, rfl⟩; rfl

/-- A mask is taken field by field. -/
theorem packFields_and {op rn ch pin imm op' rn' ch' pin' imm'} :
    packFields op rn ch pin imm &&& packFields op' rn' ch' pin' imm' =
      packFields (op &&& op') (rn &&& rn') (ch &&& ch') (pin &&& pin') (imm &&& imm') := by
  apply BitVec.eq_of_getLsbD_eq; intro i hi
  rw [BitVec.getLsbD_and]
  simp only [packFields_getLsbD, BitVec.getLsbD_and]
  split_ifs <;> rfl

/-! ### The rows of the opcode table -/

/-- A row given field by field selects a word iff each masked field has the row's value. -/
theorem selects_iff {o : Opcode} {pop mop prn mrn : BitVec 4} {pch mch : BitVec 8} {ppin mpin : BitVec 16}
    {pimm mimm : BitVec 32} {w : CmdWord} :
    (OpRow.mk o (packFields pop prn pch ppin pimm) (packFields mop mrn mch mpin mimm)).selects w = true ↔
      opField w &&& mop = pop ∧ rnField w &&& mrn = prn ∧ chField w &&& mch = pch ∧ pinField w &&& mpin = ppin ∧
        immField w &&& mimm = pimm := by
  rw [OpRow.selects, beq_iff_eq]
  conv_lhs => rw [← packFields_fields w, packFields_and, packFields_inj]

@[simp] theorem and_ones4 (x : BitVec 4) : x &&& 0xF#4 = x := BitVec.and_allOnes
@[simp] theorem and_ones8 (x : BitVec 8) : x &&& 0xFF#8 = x := BitVec.and_allOnes
@[simp] theorem and_ones16 (x : BitVec 16) : x &&& 0xFFFF#16 = x := BitVec.and_allOnes
@[simp] theorem and_ones32 (x : BitVec 32) : x &&& 0xFFFFFFFF#32 = x := BitVec.and_allOnes

/-- ATTACH's row: its opcode and its reserved fields zero (30_encoding.md R82, R85). -/
theorem selects_attach (w : CmdWord) :
    (OpRow.mk .attach 0x1000000000000000#64 0xF0FF000000000000#64).selects w = true ↔
      opField w = 1 ∧ chField w = 0 := by
  refine Iff.trans (selects_iff (pop := 1) (mop := 0xF) (prn := 0) (mrn := 0) (pch := 0) (mch := 0xFF) (ppin := 0)
    (mpin := 0) (pimm := 0) (mimm := 0)) ?_
  simp

/-- ATTACHCH's row: its opcode and its reserved fields zero (30_encoding.md R82, R85). -/
theorem selects_attachch (w : CmdWord) :
    (OpRow.mk .attachch 0x2000000000000000#64 0xF000000000000000#64).selects w = true ↔
      opField w = 2 := by
  refine Iff.trans (selects_iff (pop := 2) (mop := 0xF) (prn := 0) (mrn := 0) (pch := 0) (mch := 0) (ppin := 0)
    (mpin := 0) (pimm := 0) (mimm := 0)) ?_
  simp

/-- WRITE's row: its opcode and its reserved fields zero (30_encoding.md R82, R85). -/
theorem selects_write (w : CmdWord) :
    (OpRow.mk .write 0x3000000000000000#64 0xFFFF000000000000#64).selects w = true ↔
      opField w = 3 ∧ rnField w = 0 ∧ chField w = 0 := by
  refine Iff.trans (selects_iff (pop := 3) (mop := 0xF) (prn := 0) (mrn := 0xF) (pch := 0) (mch := 0xFF) (ppin := 0)
    (mpin := 0) (pimm := 0) (mimm := 0)) ?_
  simp

/-- WRITECH's row: its opcode and its reserved fields zero (30_encoding.md R82, R85). -/
theorem selects_writech (w : CmdWord) :
    (OpRow.mk .writech 0x4000000000000000#64 0xFF00FFFF00000000#64).selects w = true ↔
      opField w = 4 ∧ rnField w = 0 ∧ pinField w = 0 := by
  refine Iff.trans (selects_iff (pop := 4) (mop := 0xF) (prn := 0) (mrn := 0xF) (pch := 0) (mch := 0) (ppin := 0)
    (mpin := 0xFFFF) (pimm := 0) (mimm := 0)) ?_
  simp

/-- TONE's row: its opcode and its reserved fields zero (30_encoding.md R82, R85). -/
theorem selects_tone (w : CmdWord) :
    (OpRow.mk .tone 0x5000000000000000#64 0xFFFF000000000000#64).selects w = true ↔
      opField w = 5 ∧ rnField w = 0 ∧ chField w = 0 := by
  refine Iff.trans (selects_iff (pop := 5) (mop := 0xF) (prn := 0) (mrn := 0xF) (pch := 0) (mch := 0xFF) (ppin := 0)
    (mpin := 0) (pimm := 0) (mimm := 0)) ?_
  simp

/-- NOTE's row: its opcode and its reserved fields zero (30_encoding.md R82, R85). -/
theorem selects_note (w : CmdWord) :
    (OpRow.mk .note 0x6000000000000000#64 0xF0F00000FFFFFFFF#64).selects w = true ↔
      opField w = 6 ∧ chField w &&& 0xF0 = 0 ∧ immField w = 0 := by
  refine Iff.trans (selects_iff (pop := 6) (mop := 0xF) (prn := 0) (mrn := 0) (pch := 0) (mch := 0xF0) (ppin := 0)
    (mpin := 0) (pimm := 0) (mimm := 0xFFFFFFFF)) ?_
  simp

/-- READ's row: its opcode and its reserved fields zero (30_encoding.md R82, R85). -/
theorem selects_read (w : CmdWord) :
    (OpRow.mk .read 0x7000000000000000#64 0xFFFF0000FFFFFFFF#64).selects w = true ↔
      opField w = 7 ∧ rnField w = 0 ∧ chField w = 0 ∧ immField w = 0 := by
  refine Iff.trans (selects_iff (pop := 7) (mop := 0xF) (prn := 0) (mrn := 0xF) (pch := 0) (mch := 0xFF) (ppin := 0)
    (mpin := 0) (pimm := 0) (mimm := 0xFFFFFFFF)) ?_
  simp

/-- READF's row: its opcode and its reserved fields zero (30_encoding.md R82, R85). -/
theorem selects_readf (w : CmdWord) :
    (OpRow.mk .readf 0x8000000000000000#64 0xFFFF0000FFFFFFFF#64).selects w = true ↔
      opField w = 8 ∧ rnField w = 0 ∧ chField w = 0 ∧ immField w = 0 := by
  refine Iff.trans (selects_iff (pop := 8) (mop := 0xF) (prn := 0) (mrn := 0xF) (pch := 0) (mch := 0xFF) (ppin := 0)
    (mpin := 0) (pimm := 0) (mimm := 0xFFFFFFFF)) ?_
  simp

/-- DETACH's row: its opcode and its reserved fields zero (30_encoding.md R82, R85). -/
theorem selects_detach (w : CmdWord) :
    (OpRow.mk .detach 0x9000000000000000#64 0xFFFF0000FFFFFFFF#64).selects w = true ↔
      opField w = 9 ∧ rnField w = 0 ∧ chField w = 0 ∧ immField w = 0 := by
  refine Iff.trans (selects_iff (pop := 9) (mop := 0xF) (prn := 0) (mrn := 0xF) (pch := 0) (mch := 0xFF) (ppin := 0)
    (mpin := 0) (pimm := 0) (mimm := 0xFFFFFFFF)) ?_
  simp

/-- CHFREQ's row: its opcode and its reserved fields zero (30_encoding.md R82, R85). -/
theorem selects_chfreq (w : CmdWord) :
    (OpRow.mk .chfreq 0xA000000000000000#64 0xF0FF000000000000#64).selects w = true ↔
      opField w = 0xA ∧ chField w = 0 := by
  refine Iff.trans (selects_iff (pop := 0xA) (mop := 0xF) (prn := 0) (mrn := 0) (pch := 0) (mch := 0xFF) (ppin := 0)
    (mpin := 0) (pimm := 0) (mimm := 0)) ?_
  simp

/-! ### The decoder -/

/-- A row's pattern is its opcode alone. -/
theorem pattern_of_selects {w : CmdWord} {r : OpRow} (hr : r ∈ opcodeTable) (h : r.selects w = true) :
    r.pattern = packFields (opField w) 0 0 0 0 := by
  simp only [opcodeTable, List.mem_cons, List.not_mem_nil, or_false] at hr
  rcases hr with rfl | rfl | rfl | rfl | rfl | rfl | rfl | rfl | rfl | rfl
  · rw [((selects_attach w).mp h).1]; rfl
  · rw [((selects_attachch w).mp h)]; rfl
  · rw [((selects_write w).mp h).1]; rfl
  · rw [((selects_writech w).mp h).1]; rfl
  · rw [((selects_tone w).mp h).1]; rfl
  · rw [((selects_note w).mp h).1]; rfl
  · rw [((selects_read w).mp h).1]; rfl
  · rw [((selects_readf w).mp h).1]; rfl
  · rw [((selects_detach w).mp h).1]; rfl
  · rw [((selects_chfreq w).mp h).1]; rfl

/-- No two rows have one pattern: no word selects two rows. -/
theorem rows_inj : ∀ r ∈ opcodeTable, ∀ q ∈ opcodeTable, r.pattern = q.pattern → r = q := by decide

/-- A word that selects a row decodes to that row's instruction. -/
theorem decodeCommand_of_selects {w : CmdWord} {r : OpRow} (hr : r ∈ opcodeTable) (h : r.selects w = true) :
    decodeCommand w = .ok (assembleOperands r.op w) := by
  unfold decodeCommand
  have : opcodeTable.find? (fun r => r.selects w) = some r := by
    cases hq : opcodeTable.find? (fun r => r.selects w) with
    | none => rw [List.find?_eq_none] at hq; exact absurd h (by simpa using hq r hr)
    | some q =>
      have h1 := List.find?_some hq
      have h2 := List.mem_of_find?_eq_some hq
      rw [rows_inj q h2 r hr ((pattern_of_selects h2 h1).trans (pattern_of_selects hr h).symm)]
  rw [this]

/-- A word decodes only by a row it selects. -/
theorem decodeCommand_ok {w : CmdWord} {i : Instr} (h : decodeCommand w = .ok i) :
    ∃ r ∈ opcodeTable, r.selects w = true ∧ i = assembleOperands r.op w := by
  unfold decodeCommand at h
  split at h
  · rename_i r hr
    injection h with h
    exact ⟨r, List.mem_of_find?_eq_some hr, List.find?_some (p := fun r : OpRow => r.selects w) hr, h.symm⟩
  · split at h <;> cases h

/-- A word that selects no row decodes to nothing. -/
theorem decodeCommand_none {w : CmdWord} (h : ∀ r ∈ opcodeTable, r.selects w = false) : ∃ e, decodeCommand w = .error e := by
  have : opcodeTable.find? (fun r => r.selects w) = none := by
    rw [List.find?_eq_none]; intro r hr; simp [h r hr]
  unfold decodeCommand
  rw [this]; dsimp only; split <;> exact ⟨_, rfl⟩

end Sys2Proof
end

