-- ==== Sys2Proof/Laws/Mixer.lean ====
section
/-! SUPPORT. What one channel's frames and one buffer can do, said once: the phases a channel goes through, the levels, and
where PhaseOverrange is raised. -/

namespace Sys2Proof.Machine

open Sys2Proof

variable {m f p n i : Nat} {out : List Int}

/-- The phase k frames later: k times advance and wrap (42_mixing_engine.md R166). -/
def phaseAt (m f : Nat) : (k p : Nat) → Nat
  | 0, p => p
  | k + 1, p => phaseAt m f k (advancePhase m p f)

/-- No frame of n leaves the phase at or above M (42_mixing_engine.md R167). -/
def inRangeFor (m f n p : Nat) : Prop := ∀ k < n, phaseAt m f (k + 1) p < m

theorem phaseAt_add (k l p : Nat) : phaseAt m f (k + l) p = phaseAt m f l (phaseAt m f k p) := by
  induction k generalizing p with
  | zero => simp [phaseAt]
  | succ k ih => rw [Nat.succ_add]; exact ih _

/-- The frames of a channel none of which is out of range. -/
theorem mixFrames_of : ∀ {out : List Int} {i p : Nat}, inRangeFor m f out.length p →
    mixFrames m f i p out = ⟨i + out.length, phaseAt m f out.length p,
      out.mapIdx fun k x => x + squareWave m (phaseAt m f k p), false⟩ := by
  intro out
  induction out with
  | nil => intros; rfl
  | cons x xs ih =>
    intro i p h
    have h0 : advancePhase m p f < m := h 0 (by simp)
    have hr : inRangeFor m f xs.length (advancePhase m p f) := fun k hk => h (k + 1) (by simpa using hk)
    simp only [mixFrames, if_neg (Nat.not_le.mpr h0), ih hr, List.mapIdx_cons, List.length_cons]
    simp [phaseAt, Nat.add_comm, Nat.add_left_comm]

/-- The frames of a channel whose frame j is the first that is out of range. -/
theorem mixFrames_over : ∀ {out : List Int} {i p j : Nat}, j < out.length → inRangeFor m f j p →
    m ≤ phaseAt m f (j + 1) p →
    (mixFrames m f i p out).overrange = true ∧ (mixFrames m f i p out).i = i + j := by
  intro out
  induction out with
  | nil => intro i p j h; simp at h
  | cons x xs ih =>
    intro i p j hj h ho
    cases j with
    | zero => simp [mixFrames, show m ≤ advancePhase m p f from ho]
    | succ j =>
      have h0 : advancePhase m p f < m := h 0 (by omega)
      simp only [mixFrames, if_neg (Nat.not_le.mpr h0)]
      have := ih (i := i + 1) (p := advancePhase m p f) (j := j) (by simpa using hj)
        (fun k hk => h (k + 1) (by omega)) ho
      exact ⟨this.1, by rw [this.2]; omega⟩

/-- Either every frame is in range or there is a first that is not. -/
theorem inRangeFor_or (m f n p : Nat) :
    inRangeFor m f n p ∨ ∃ j < n, inRangeFor m f j p ∧ m ≤ phaseAt m f (j + 1) p := by
  induction n with
  | zero => exact .inl fun k hk => absurd hk (by omega)
  | succ n ih =>
    rcases ih with h | ⟨j, hj, h⟩
    · by_cases hn : phaseAt m f (n + 1) p < m
      · refine .inl fun k hk => ?_
        rcases Nat.lt_succ_iff_lt_or_eq.mp hk with hk | rfl
        exacts [h k hk, hn]
      · exact .inr ⟨n, by omega, h, by omega⟩
    · exact .inr ⟨j, by omega, h⟩

/-- At most M in frequency: the phase moves modulo M and is never out of range (42_mixing_engine.md R171). -/
theorem phaseAt_mod (hf : f ≤ m) (hp : p < m) : ∀ k, phaseAt m f k p = (p + k * f) % m := by
  intro k
  induction k generalizing p with
  | zero => simp [phaseAt, Nat.mod_eq_of_lt hp]
  | succ k ih =>
    have hq : advancePhase m p f < m := by unfold advancePhase; split <;> omega
    have hm : advancePhase m p f % m = (p + f) % m := by
      unfold advancePhase
      split
      · rw [← Nat.mod_eq_sub_mod ‹_›]
      · rfl
    rw [phaseAt, ih hq, Nat.add_mod, hm, ← Nat.add_mod, Nat.add_mul, Nat.one_mul, Nat.add_assoc, Nat.add_comm f]

theorem inRangeFor_of_le (hf : f ≤ m) (hp : p < m) (n : Nat) : inRangeFor m f n p := fun k _ => by
  rw [phaseAt_mod hf hp]; exact Nat.mod_lt _ (by omega)

/-- Above M in frequency: the phase climbs by f - M each frame while it is below M. -/
theorem phaseAt_climb (hf : m < f) : ∀ k p, phaseAt m f k p = p + k * (f - m) := by
  intro k
  induction k with
  | zero => intro p; simp [phaseAt]
  | succ k ih =>
    intro p
    rw [phaseAt, ih, advancePhase, if_pos (by omega), Nat.add_mul]
    omega

/-! ### The channels -/

/-- A channel that MIX can mix for n frames: inaudible, or never out of range. -/
def Channel.mixable (m n : Nat) (ch : Channel) : Prop := ch.audible = true → inRangeFor m ch.freq.toNat n ch.phase

/-- The channel after n frames. -/
def Channel.mixed (m n : Nat) (ch : Channel) : Channel :=
  if ch.audible then { ch with phase := phaseAt m ch.freq.toNat n ch.phase } else ch

/-- OUT after a channel's frames. -/
def Channel.mixInto (m : Nat) (ch : Channel) (out : List Int) : List Int :=
  if ch.audible then out.mapIdx fun k x => x + squareWave m (phaseAt m ch.freq.toNat k ch.phase) else out

@[simp] theorem Channel.mixInto_length (ch : Channel) : (ch.mixInto m out).length = out.length := by
  unfold Channel.mixInto; split <;> simp

/-- A level within the largest pool's range is its own word (30_encoding.md R97). -/
theorem levelWord_toInt {x : Int} (h : x.natAbs ≤ 16) : (levelWord x).toInt = x := by
  rw [levelWord, BitVec.toInt_ofInt]
  apply Int.bmod_eq_of_le <;> norm_num <;> omega

@[simp] theorem foldl_mixInto_length (m : Nat) (chs : List Channel) (out : List Int) :
    (chs.foldl (fun o ch => ch.mixInto m o) out).length = out.length := by
  induction chs generalizing out with
  | nil => rfl
  | cons ch chs ih => rw [List.foldl_cons, ih, Channel.mixInto_length]

/-- Frame k of OUT after some channels: the channels' signs are added up. -/
theorem foldl_mixInto_getElem (m : Nat) : ∀ (chs : List Channel) (out : List Int) (k : Nat) (hk : k < out.length),
    (chs.foldl (fun o ch => ch.mixInto m o) out)[k]'(by rw [foldl_mixInto_length]; exact hk) =
     out[k] + (chs.map fun ch => if ch.audible then squareWave m (phaseAt m ch.freq.toNat k ch.phase) else 0).sum := by
  intro chs
  induction chs with
  | nil => simp
  | cons ch chs ih =>
    intro out k hk
    simp only [List.foldl_cons]
    rw [ih _ k (by simpa using hk)]
    cases ha : ch.audible <;> simp [Channel.mixInto, ha, Int.add_assoc]

@[simp] theorem mixed_audible (m n) (ch : Channel) : (ch.mixed m n).audible = ch.audible := by
  unfold Channel.mixed; split <;> rfl

/-- Mixing for a frames and then for b is mixing for a + b. -/
theorem mixed_mixed (m a b : Nat) (ch : Channel) : (ch.mixed m a).mixed m b = ch.mixed m (a + b) := by
  cases ha : ch.audible
  · simp [Channel.mixed, ha]
  · have : ({ ch with phase := phaseAt m ch.freq.toNat a ch.phase } : Channel).audible = true := ha
    simp only [Channel.mixed, ha, if_true, this, phaseAt_add]

/-- The three gates let exactly the audible channels through. -/
theorem run_mixChannel {α : Type} {fin : α → State → State} {s : State} {c : Nat} {ch : Channel} {q : Prog α}
    {k : Nat → Prog α} (hc : s.chans[c]? = some ch) :
    (Prog.ld (.attached c) fun a => if a = 0 then q else .ld (.duty c) fun d => if d = 0 then q else
      .ld (.freq c) fun f => if f = 0 then q else k f).run fin s =
      if ch.audible then (k ch.freq.toNat).run fin s else q.run fin s := by
  rw [run_ld (load_attached hc)]
  cases ha : ch.attached
  · simp [Channel.audible, ha]
  rw [if_neg (by decide), run_ld (load_duty hc)]
  by_cases hd : ch.duty = 0
  · simp [Channel.audible, ha, hd]
  have hd' : ch.duty.toNat ≠ 0 := fun e => hd (BitVec.eq_of_toNat_eq e)
  rw [if_neg hd', run_ld (load_freq hc)]
  by_cases hf : ch.freq = 0
  · simp [Channel.audible, ha, hf]
  have hf' : ch.freq.toNat ≠ 0 := fun e => hf (BitVec.eq_of_toNat_eq e)
  rw [if_neg hf', if_pos (by simp only [Channel.audible, ha, bne_iff_ne, Bool.true_and, Bool.and_eq_true]; exact ⟨hd, hf⟩)]

/-- The rest of a buffer whose channels still to be mixed can all be mixed. -/
theorem run_mixChannels_of {fin : List Int → State → State} {s : State} :
    ∀ (post pre : List Channel) (out : List Int), (∀ ch ∈ post, ch.mixable m out.length) →
    (mixChannels m post.length pre.length out).run fin { s with chans := pre ++ post } =
      fin (post.foldl (fun o ch => ch.mixInto m o) out)
        { s with chans := pre ++ post.map (Channel.mixed m out.length) } := by
  intro post
  induction post with
  | nil => intros; simp [mixChannels, run_done]
  | cons ch post ih =>
    intro pre out h
    have hc : ({ s with chans := pre ++ ch :: post } : State).chans[pre.length]? = some ch := by simp
    rw [List.length_cons, mixChannels, run_mixChannel hc, List.map_cons, List.foldl_cons]
    cases ha : ch.audible
    · have := ih (pre ++ [ch]) out fun d hd => h d (List.mem_cons_of_mem _ hd)
      simpa [Channel.mixInto, Channel.mixed, ha] using this
    · rw [if_pos rfl, run_ld (load_phase hc), mixFrames_of (h ch List.mem_cons_self ha)]
      dsimp only
      rw [if_neg (by decide), run_st (store_phase hc)]
      have := ih (pre ++ [ch.mixed m out.length]) (ch.mixInto m out)
        fun d hd => by rw [Channel.mixInto_length]; exact h d (List.mem_cons_of_mem _ hd)
      rw [Channel.mixInto_length] at this
      simpa [Channel.mixInto, Channel.mixed, ha, State.putChan] using this

/-- The rest of a buffer in which channel pre.length + mid.length is the first that cannot be mixed. -/
theorem run_mixChannels_over {fin : List Int → State → State} {s : State} {bad : Channel} {post : List Channel} {j : Nat} :
    ∀ (mid pre : List Channel) (out : List Int), (∀ ch ∈ mid, ch.mixable m out.length) → bad.audible = true →
    j < out.length → inRangeFor m bad.freq.toNat j bad.phase → m ≤ phaseAt m bad.freq.toNat (j + 1) bad.phase →
    (mixChannels m (mid.length + (post.length + 1)) pre.length out).run fin { s with chans := pre ++ (mid ++ bad :: post) } =
      { s with chans := pre ++ (mid.map (Channel.mixed m out.length) ++ bad :: post) }.raise
        (.phaseOverrange (pre.length + mid.length) j) := by
  intro mid
  induction mid with
  | nil =>
    intro pre out _ ha hj hr ho
    have hc : ({ s with chans := pre ++ bad :: post } : State).chans[pre.length]? = some bad := by simp
    obtain ⟨h1, h2⟩ := mixFrames_over (i := 0) hj hr ho
    simp only [List.length_nil, Nat.zero_add, List.nil_append, List.map_nil]
    rw [mixChannels, run_mixChannel hc, if_pos ha, run_ld (load_phase hc)]
    dsimp only
    rw [if_pos h1, h2, Nat.zero_add]
    rfl
  | cons ch mid ih =>
    intro pre out h hb hj hr ho
    have hc : ({ s with chans := pre ++ (ch :: mid ++ bad :: post) } : State).chans[pre.length]? = some ch := by simp
    rw [List.length_cons, show mid.length + 1 + (post.length + 1) = mid.length + (post.length + 1) + 1 by omega,
      mixChannels, run_mixChannel hc, List.map_cons]
    cases ha : ch.audible
    · have := ih (pre ++ [ch]) out (fun d hd => h d (List.mem_cons_of_mem _ hd)) hb hj hr ho
      simpa [Channel.mixed, ha, Nat.add_comm, Nat.add_left_comm] using this
    · rw [if_pos rfl, run_ld (load_phase hc), mixFrames_of (h ch List.mem_cons_self ha)]
      dsimp only
      rw [if_neg (by decide), run_st (store_phase hc)]
      have := ih (pre ++ [ch.mixed m out.length]) (ch.mixInto m out)
        (fun d hd => by rw [Channel.mixInto_length]; exact h d (List.mem_cons_of_mem _ hd)) hb
        (by rwa [Channel.mixInto_length]) hr ho
      rw [Channel.mixInto_length] at this
      simpa [Channel.mixInto, Channel.mixed, ha, State.putChan, Nat.add_comm, Nat.add_left_comm] using this

/-- A channel table either mixes whole or has a first channel that cannot be mixed. -/
theorem mixable_or (m n : Nat) (chs : List Channel) : (∀ ch ∈ chs, ch.mixable m n) ∨
    ∃ mid bad post j, chs = mid ++ bad :: post ∧ (∀ ch ∈ mid, ch.mixable m n) ∧ bad.audible = true ∧ j < n ∧
      inRangeFor m bad.freq.toNat j bad.phase ∧ m ≤ phaseAt m bad.freq.toNat (j + 1) bad.phase := by
  induction chs with
  | nil => simp
  | cons ch chs ih =>
    by_cases ha : ch.audible = true
    · rcases inRangeFor_or m ch.freq.toNat n ch.phase with h | ⟨j, hj, h1, h2⟩
      · rcases ih with h' | ⟨mid, bad, post, j, rfl, h1, h2⟩
        · exact .inl (List.forall_mem_cons.mpr ⟨fun _ => h, h'⟩)
        · exact .inr ⟨ch :: mid, bad, post, j, rfl, List.forall_mem_cons.mpr ⟨fun _ => h, h1⟩, h2⟩
      · exact .inr ⟨[], ch, chs, j, rfl, by simp, ha, hj, h1, h2⟩
    · rcases ih with h' | ⟨mid, bad, post, j, rfl, h1, h2⟩
      · exact .inl (List.forall_mem_cons.mpr ⟨fun e => absurd e ha, h'⟩)
      · exact .inr ⟨ch :: mid, bad, post, j, rfl, List.forall_mem_cons.mpr ⟨fun e => absurd e ha, h1⟩, h2⟩

/-- Everything a taken request can do (42_mixing_engine.md R160): the buffer is delivered and every phase has moved, or the
first channel that cannot be mixed ends it with PhaseOverrange, the phases before it moved. -/
theorem exec_bufreq_cases {s : State} (hl : s.chans.length = s.cfg.nCh) (hr : requestAllowed s = true) (n : Nat) :
    ((∀ ch ∈ s.chans, ch.mixable s.cfg.modulus n) ∧
      exec (.bufreq n) s = .next (({ s with chans := s.chans.map (Channel.mixed s.cfg.modulus n) } : State).deliver
        (s.chans.foldl (fun o ch => ch.mixInto s.cfg.modulus o) (List.replicate n 0)))) ∨
    ∃ mid bad post j, s.chans = mid ++ bad :: post ∧ (∀ ch ∈ mid, ch.mixable s.cfg.modulus n) ∧ bad.audible = true ∧
      j < n ∧ inRangeFor s.cfg.modulus bad.freq.toNat j bad.phase ∧
      s.cfg.modulus ≤ phaseAt s.cfg.modulus bad.freq.toNat (j + 1) bad.phase ∧
      exec (.bufreq n) s = .next (({ s with chans := mid.map (Channel.mixed s.cfg.modulus n) ++ bad :: post } : State).raise
        (.phaseOverrange mid.length j)) := by
  have he : exec (.bufreq n) s = .next ((progBufreq s.cfg n).run (fun out t => t.deliver out) s) := by
    simp [exec, execBufreq, hr]
  rcases mixable_or s.cfg.modulus n s.chans with h | ⟨mid, bad, post, j, hs, h1, h2, h3, h4, h5⟩
  · refine .inl ⟨h, ?_⟩
    rw [he, progBufreq, ← hl]
    have := run_mixChannels_of (fin := fun out t => t.deliver out) (s := s) s.chans [] (List.replicate n 0) (by simpa using h)
    simpa using this
  · refine .inr ⟨mid, bad, post, j, hs, h1, h2, h3, h4, h5, ?_⟩
    rw [he, progBufreq, ← hl, hs]
    have := run_mixChannels_over (fin := fun out t => t.deliver out) (s := s) (post := post) mid [] (List.replicate n 0)
      (by simpa using h1) h2 (by simpa using h3) h4 h5
    have hs' : s = { s with chans := mid ++ bad :: post } := by rw [← hs]
    rw [List.nil_append, ← hs'] at this
    simpa [hs, Nat.add_assoc, Nat.add_comm] using this

end Sys2Proof.Machine
end

