-- ==== Sys2Proof/Laws/PerInstr.lean ====
section
/-! SUPPORT. Per-instruction statements about the syntax: the word of a well-formed instruction selects the row of the
opcode table that carries its mnemonic, and BUFREQ's word is a sink request (30_encoding.md R83, R85, R96). -/

namespace Sys2Proof.Laws.SelectsRow

open Sys2Proof

/-- The row an instruction stands in; BUFREQ stands on the sink port. -/
def opcodeOf : Instr → Option Opcode
  | .attach _ _ _ => some .attach
  | .attachch _ _ _ _ => some .attachch
  | .write _ _ => some .write
  | .writech _ _ => some .writech
  | .tone _ _ => some .tone
  | .note _ _ _ => some .note
  | .read _ => some .read
  | .readf _ => some .readf
  | .detach _ => some .detach
  | .chfreq _ _ _ => some .chfreq
  | .bufreq _ => none

/-- The encoded word selects the instruction's own row. -/
def Statement (i : Instr) : Prop :=
  ∀ cfg : Config, cfg.wf → i.wf cfg = true →
    match encode i with
    | .command w => ∃ r ∈ opcodeTable, some r.op = opcodeOf i ∧ r.selects w = true
    | .request _ => opcodeOf i = none

/-- A number below 16 leaves the upper half of the channel field zero (30_encoding.md R82, format PN). -/
theorem octave_fits {v : Nat} (h : v < 16) : BitVec.ofNat 8 v &&& 0xF0#8 = 0 := by
  interval_cases v <;> decide

theorem attach (pin : Nat) (freq : Freq) (res : Nat) : Statement (.attach pin freq res) := fun _ _ _ =>
  ⟨_, .head _, rfl, (selects_attach _).mpr ⟨opField_pack .., chField_pack ..⟩⟩

theorem attachch (pin : Nat) (freq : Freq) (res ch : Nat) : Statement (.attachch pin freq res ch) := fun _ _ _ =>
  ⟨_, .tail _ (.head _), rfl, (selects_attachch _).mpr (opField_pack ..)⟩

theorem write (pin : Nat) (duty : Duty) : Statement (.write pin duty) := fun _ _ _ =>
  ⟨_, .tail _ (.tail _ (.head _)), rfl, (selects_write _).mpr ⟨opField_pack .., rnField_pack .., chField_pack ..⟩⟩

theorem writech (ch : Nat) (duty : Duty) : Statement (.writech ch duty) := fun _ _ _ =>
  ⟨_, .tail _ (.tail _ (.tail _ (.head _))), rfl, (selects_writech _).mpr ⟨opField_pack .., rnField_pack .., pinField_pack ..⟩⟩

theorem tone (pin : Nat) (freq : Freq) : Statement (.tone pin freq) := fun _ _ _ =>
  ⟨_, .tail _ (.tail _ (.tail _ (.tail _ (.head _)))), rfl, (selects_tone _).mpr ⟨opField_pack .., rnField_pack .., chField_pack ..⟩⟩

theorem note (pin nt oct : Nat) : Statement (.note pin nt oct) := by
  intro _ _ h
  have ho : oct < 16 := by
    simp only [Instr.wf, decide_eq_true_eq] at h
    exact h.2.2
  exact ⟨_, .tail _ (.tail _ (.tail _ (.tail _ (.tail _ (.head _))))), rfl,
    (selects_note _).mpr ⟨opField_pack .., by rw [chField_pack]; exact octave_fits ho, immField_pack ..⟩⟩

theorem read (pin : Nat) : Statement (.read pin) := fun _ _ _ =>
  ⟨_, .tail _ (.tail _ (.tail _ (.tail _ (.tail _ (.tail _ (.head _)))))), rfl, (selects_read _).mpr ⟨opField_pack .., rnField_pack .., chField_pack .., immField_pack ..⟩⟩

theorem readf (pin : Nat) : Statement (.readf pin) := fun _ _ _ =>
  ⟨_, .tail _ (.tail _ (.tail _ (.tail _ (.tail _ (.tail _ (.tail _ (.head _))))))), rfl, (selects_readf _).mpr ⟨opField_pack .., rnField_pack .., chField_pack .., immField_pack ..⟩⟩

theorem detach (pin : Nat) : Statement (.detach pin) := fun _ _ _ =>
  ⟨_, .tail _ (.tail _ (.tail _ (.tail _ (.tail _ (.tail _ (.tail _ (.tail _ (.head _)))))))), rfl, (selects_detach _).mpr ⟨opField_pack .., rnField_pack .., chField_pack .., immField_pack ..⟩⟩

theorem chfreq (pin : Nat) (freq : Freq) (res : Nat) : Statement (.chfreq pin freq res) := fun _ _ _ =>
  ⟨_, .tail _ (.tail _ (.tail _ (.tail _ (.tail _ (.tail _ (.tail _ (.tail _ (.tail _ (.head _))))))))), rfl, (selects_chfreq _).mpr ⟨opField_pack .., chField_pack ..⟩⟩

theorem bufreq (n : Nat) : Statement (.bufreq n) := fun _ _ _ => rfl

end Sys2Proof.Laws.SelectsRow
end

