-- ==== Sys2Proof/Laws/Step.lean ====
section
/-! SUPPORT. Everything one step can do, said once, move by move. -/

namespace Sys2Proof.Machine

open Sys2Proof

/-- What a move of the environment makes of a state that no longer lists it. -/
def movesTo (s t : State) : Event → Prop
  | .command k w =>
    k < s.cfg.nCtrl ∧ s.jobOf k = none ∧
      ((∃ i, decodeCommand w = .ok i ∧ exec i (State.settled { s with cur := k } (.ctrl k)) = .next t) ∨
        (∃ e, decodeCommand w = .error e) ∧ t = answerIllegal k { s with cur := k })
  | .request n => exec (.bufreq n.toNat) (s.settled .mix) = .next t
  | .issue k w =>
    k < s.cfg.nCtrl ∧ s.jobOf k = none ∧
      ((∃ i, decodeCommand w = .ok i ∧ t = State.putJob { s with cur := k } k (some (.start i))) ∨
        (∃ e, decodeCommand w = .error e) ∧ t = answerIllegal k { s with cur := k })
  | .ask n => requestAllowed s = true ∧ t = { s with mix := some (.start n.toNat) }
  | .ctrl k => t = ctrlTick k { s with cur := k }
  | .drain n => t = drainTick n s
  | .see n => t = seeTick n s
  | .mix g => t = mixTick g s

/-- A step answers a next state only where no fault is recorded, and then by the next move, or, where there is none, by
doing nothing. -/
theorem step_cases {s t : State} (h : step s = .next t) :
    s.fault = none ∧ ((s.events = [] ∧ t = s) ∨
      ∃ e es, s.events = e :: es ∧ movesTo { s with events := es } t e) := by
  unfold step at h
  by_cases hf : s.fault = none
  swap
  · obtain ⟨f, hf⟩ := Option.ne_none_iff_exists'.mp hf
    have : fetch s = .settled (.fault f) := by simp [fetch, hf]
    simp [this] at h
  · refine ⟨hf, ?_⟩
    cases he : s.events with
    | nil =>
      have : fetch s = .settled (.next s) := by simp [fetch, hf, he]
      rw [this] at h
      exact .inl ⟨rfl, (Host.Outcome.next.inj h).symm⟩
    | cons e es =>
      refine .inr ⟨e, es, rfl, ?_⟩
      have : fetch s = handleEvent { s with events := es } e := by simp [fetch, hf, he]
      rw [this] at h
      generalize { s with events := es } = u at h ⊢
      cases e
      case command k w | issue k w =>
        simp only [handleEvent, deliverCommand] at h
        by_cases hk : u.cfg.nCtrl ≤ k
        · simp [hk] at h
        have hjj : State.jobOf { u with cur := k } k = u.jobOf k := rfl
        rw [hjj] at h
        by_cases hj : (u.jobOf k).isSome = true
        · simp [hk, hj] at h
        refine ⟨Nat.lt_of_not_le hk, by simpa using hj, ?_⟩
        rw [if_neg hk, if_neg hj] at h
        cases hd : decodeCommand w with
        | ok i =>
          simp only [hd] at h
          first
            | exact .inl ⟨i, rfl, h⟩
            | exact .inl ⟨i, rfl, (Host.Outcome.next.inj h).symm⟩
        | error x =>
          simp only [hd] at h
          exact .inr ⟨⟨x, rfl⟩, (Host.Outcome.next.inj h).symm⟩
      case request n => exact h
      case ask n =>
        by_cases hr : requestAllowed u = true
        · simp only [handleEvent, hr, if_true] at h
          exact ⟨hr, (Host.Outcome.next.inj h).symm⟩
        · simp [handleEvent, hr] at h
      all_goals exact (Host.Outcome.next.inj h).symm

/-- A command word never decodes to BUFREQ (30_encoding.md R83, R96). -/
theorem decode_isCommand {w : CmdWord} {i : Instr} (h : decodeCommand w = .ok i) : isCommand i = true := by
  obtain ⟨r, -, -, rfl⟩ := decodeCommand_ok h
  cases r.op <;> rfl

/-! ### The moves of one agent, as steps -/

theorem step_ctrl {s : State} {k : Nat} {es : List Event} (hf : s.fault = none) (he : s.events = .ctrl k :: es) :
    step s = .next (ctrlTick k { s with events := es, cur := k }) := by
  simp [step, fetch, hf, he, handleEvent]

theorem step_drain {s : State} {n : Nat} {es : List Event} (hf : s.fault = none) (he : s.events = .drain n :: es) :
    step s = .next (drainTick n { s with events := es }) := by
  simp [step, fetch, hf, he, handleEvent]

theorem step_see {s : State} {n : Nat} {es : List Event} (hf : s.fault = none) (he : s.events = .see n :: es) :
    step s = .next (seeTick n { s with events := es }) := by
  simp [step, fetch, hf, he, handleEvent]

theorem step_mix {s : State} {g : Gate} {es : List Event} (hf : s.fault = none) (he : s.events = .mix g :: es) :
    step s = .next (mixTick g { s with events := es }) := by
  simp [step, fetch, hf, he, handleEvent]

/-- A run whose first step answers a next state goes on from it. -/
theorem runSteps_succ {s t : State} {n : Nat} (h : step s = .next t) : runSteps (n + 1) s = runSteps n t := by
  rw [runSteps, h]

end Sys2Proof.Machine
end

