-- ==== Sys2Proof/Laws/Views.lean ====
section
/-! SUPPORT. What each agent sees of the cells (20_memory.md R62, R63): where nothing is held or unseen, everyone sees the
cells; what a held store reaching its cell can do; and that the invariant survives it. -/

namespace Sys2Proof.Machine

open Sys2Proof

variable {s t : State} {a : Agent} {x y : Cell} {h : Held} {n : Nat}

/-! ### Where every store is seen -/

/-- An agent that has seen every store sees the cells. -/
theorem view_of_seen (hu : ∀ u ∈ s.unseen, u.agent ≠ a) : s.view a x = s.load x := by
  have : (s.unseen.find? fun u => u.agent == a && u.cell == x) = none := by
    rw [List.find?_eq_none]
    intro u hm
    simp [hu u hm]
  rw [State.view, this]

/-- An agent that holds no store loads what it sees. -/
theorem loadFor_of_notHeld {k : Nat} (hh : ∀ h ∈ s.held, h.agent ≠ k) : s.loadFor k x = s.view (.ctrl k) x := by
  have : (s.held.reverse.find? fun h => h.agent == k && h.cell == x) = none := by
    rw [List.find?_eq_none]
    intro h hm
    simp [hh h (List.mem_reverse.mp hm)]
  rw [State.loadFor, this]

/-- Right after its store an agent loads what the cell keeps of the value (20_memory.md R62 (b)). -/
theorem loadFor_hold {k v : Nat} (hs : t.held = s.held ++ [⟨k, x, v⟩]) : t.loadFor k x = some v := by
  rw [State.loadFor, hs, List.reverse_append]
  simp

/-- Where an agent holds nothing and has seen everything, a whole operation of its starts from the state itself. -/
theorem settled_self (hh : ∀ h ∈ s.held, Agent.ctrl h.agent ≠ a) (hu : ∀ u ∈ s.unseen, u.agent ≠ a) :
    s.settled a = s := by
  have h1 : (s.held.filter fun h => Agent.ctrl h.agent == a) = [] := by
    rw [List.filter_eq_nil_iff]; intro h hm; simpa using hh h hm
  have h2 : (s.held.filter fun h => Agent.ctrl h.agent != a) = s.held := by
    rw [List.filter_eq_self]; intro h hm; simpa using hh h hm
  have h3 : (s.unseen.filter fun u => u.agent != a) = s.unseen := by
    rw [List.filter_eq_self]; intro u hm; simpa using hu u hm
  simp only [State.settled, h1, h2, List.foldl_nil, h3]

/-- Under SC a whole operation starts from the state itself. -/
theorem State.Inv.settled_sc (hi : s.Inv) (hc : s.cfg.consistency = .sc) (a : Agent) : s.settled a = s := by
  obtain ⟨h1, h2⟩ := hi.inOrder hc
  exact settled_self (by simp [h1]) (by simp [h2])

/-! ### A held store reaches its cell -/

/-- A held store reaches its cell, or the cell does not exist. -/
theorem commit_cases (s : State) (h : Held) :
    (∃ old u, s.load h.cell = some old ∧ s.store h.cell h.value = some u ∧
      s.commit h =
        { u with
          unseen :=
            (s.unseen.filter fun u => !(u.agent == .ctrl h.agent && u.cell == h.cell)) ++
              ((allAgents s.cfg).filter fun a => a != .ctrl h.agent).map fun a => ⟨a, h.cell, old⟩ }) ∨
    (s.load h.cell = none ∧ s.commit h = s.raise (.noSuchCell h.cell)) := by
  have hiff := store_isSome (s := s) (x := h.cell) (v := h.value)
  unfold State.commit
  cases hl : s.load h.cell with
  | none => exact .inr ⟨rfl, rfl⟩
  | some old =>
    rw [hl] at hiff
    obtain ⟨u, hu⟩ := Option.isSome_iff_exists.mp hiff
    exact .inl ⟨old, u, rfl, hu, by simp only [hu]⟩

/-- What a held store that reaches its cell leaves alone. -/
theorem commit_outside (s : State) (h : Held) :
    (s.commit h).cfg = s.cfg ∧ (s.commit h).ctrls = s.ctrls ∧ (s.commit h).mix = s.mix ∧ (s.commit h).rsps = s.rsps ∧
      (s.commit h).sink = s.sink ∧ (s.commit h).cur = s.cur ∧ (s.commit h).events = s.events ∧
      (s.commit h).answers = s.answers ∧ (s.commit h).drawn = s.drawn ∧ (s.commit h).held = s.held := by
  rcases commit_cases s h with ⟨old, u, -, hu, he⟩ | ⟨-, he⟩
  · obtain ⟨h1, h2, h3, h4, h5, -, h7, h8, h9, h10, h11, -⟩ := store_outside hu
    rw [he]
    exact ⟨h1, h2, h3, h4, h5, h7, h8, h9, h10, h11⟩
  · rw [he]; simp

/-- It changes no cell but its own. -/
theorem load_commit_ne (hne : y ≠ h.cell) : (s.commit h).load y = s.load y := by
  rcases commit_cases s h with ⟨old, u, -, hu, he⟩ | ⟨-, he⟩
  · rw [he, ← load_store_ne hu hne]; cases y <;> rfl
  · rw [he, load_raise]

/-- No agent but the one that made the store sees it yet (20_memory.md R62 (d)). -/
theorem view_commit (ha : a ∈ allAgents s.cfg) (hne : a ≠ .ctrl h.agent) : (s.commit h).view a y = s.view a y := by
  rcases commit_cases s h with ⟨old, u, hl, hu, he⟩ | ⟨-, he⟩
  swap
  · rw [he]; simp only [State.view, State.raise_unseen, load_raise]
  have hf : ((s.unseen.filter fun u => !(u.agent == .ctrl h.agent && u.cell == h.cell)).find?
      fun u => u.agent == a && u.cell == y) = s.unseen.find? fun u => u.agent == a && u.cell == y := by
    rw [List.find?_filter]
    congr 1
    funext u
    by_cases e : u.agent = a
    · subst e
      simp [hne, beq_eq_decide]
    · simp [e]
  have hload : (s.commit h).load y = u.load y := by rw [he]; cases y <;> rfl
  have hun : (s.commit h).unseen = (s.unseen.filter fun u => !(u.agent == .ctrl h.agent && u.cell == h.cell)) ++
      ((allAgents s.cfg).filter fun a => a != .ctrl h.agent).map fun a => ⟨a, h.cell, old⟩ := by rw [he]
  unfold State.view
  rw [hun, List.find?_append, hf, hload]
  cases hq : s.unseen.find? fun u => u.agent == a && u.cell == y with
  | some q => rfl
  | none =>
    rw [Option.none_or]
    by_cases hy : y = h.cell
    · subst hy
      have hfind : ((((allAgents s.cfg).filter fun a => a != .ctrl h.agent).map fun a => (⟨a, h.cell, old⟩ : Unseen)).find?
          fun u => u.agent == a && u.cell == h.cell) = some ⟨a, h.cell, old⟩ := by
        rw [List.find?_map]
        cases hg : ((allAgents s.cfg).filter fun a => a != .ctrl h.agent).find?
            ((fun u : Unseen => u.agent == a && u.cell == h.cell) ∘ fun a => ⟨a, h.cell, old⟩) with
        | none =>
          rw [List.find?_eq_none] at hg
          exact absurd (by simp) (hg a (by simp [ha, hne]))
        | some b =>
          have := List.find?_some hg
          simp only [Function.comp_apply, beq_self_eq_true, Bool.and_true, beq_iff_eq] at this
          rw [this]; rfl
      rw [hfind, hl]
    · have hfind : ((((allAgents s.cfg).filter fun a => a != .ctrl h.agent).map fun a => (⟨a, h.cell, old⟩ : Unseen)).find?
          fun u => u.agent == a && u.cell == y) = none := by
        rw [List.find?_eq_none]
        simp only [List.mem_map]
        rintro _ ⟨b, -, rfl⟩
        simp [Ne.symm hy]
      rw [hfind]
      exact load_store_ne hu hy

/-! ### The invariant -/

/-- A value that a cell may hold is kept as one. -/
theorem mayHold_kept {cfg : Config} {v : Nat} (hv : x.mayHold cfg v) : x.mayHold cfg (x.kept v) := by
  cases x <;> try exact hv
  case pinmap =>
    rcases hv with rfl | hv
    · exact .inl rfl
    · exact .inr (lt_of_le_of_lt (Nat.mod_le _ _) hv)

/-- Under the invariant an agent sees a value the cell may hold, in every cell that exists. -/
theorem State.Inv.view (hi : s.Inv) (hx : x.inRange s.cfg) : ∃ v, s.view a x = some v ∧ x.mayHold s.cfg v := by
  unfold State.view
  cases hq : s.unseen.find? fun u => u.agent == a && u.cell == x with
  | none => exact hi.load hx
  | some u =>
    have h1 := hi.unseen u (List.mem_of_find?_eq_some hq)
    have h2 := List.find?_some hq
    simp only [Bool.and_eq_true, beq_iff_eq] at h2
    exact ⟨_, rfl, h2.2 ▸ h1.2.1⟩

/-- Under the invariant a control agent's load returns a value the cell may hold. -/
theorem State.Inv.loadFor (hi : s.Inv) {k : Nat} (hx : x.inRange s.cfg) :
    ∃ v, s.loadFor k x = some v ∧ x.mayHold s.cfg v := by
  unfold State.loadFor
  cases hq : s.held.reverse.find? fun h => h.agent == k && h.cell == x with
  | none => exact hi.view hx
  | some g =>
    have h1 := hi.held g (List.mem_reverse.mp (List.mem_of_find?_eq_some hq))
    have h2 := List.find?_some hq
    simp only [Bool.and_eq_true, beq_iff_eq] at h2
    exact ⟨_, rfl, h2.2 ▸ h1.2.1⟩

/-- Fewer stores held and unseen keep the invariant. -/
theorem State.Inv.fewer (hi : s.Inv) {hs : List Held} {us : List Unseen} (h1 : hs ⊆ s.held) (h2 : us ⊆ s.unseen) :
    State.Inv { s with held := hs, unseen := us } :=
  ⟨hi.config, hi.channels, hi.entries, hi.agents, hi.phases, hi.pinmap, hi.commands, hi.buffer,
    fun g hg => hi.held g (h1 hg), fun u hu => hi.unseen u (h2 hu),
    fun hc => ⟨List.subset_nil.mp ((hi.inOrder hc).1 ▸ h1), List.subset_nil.mp ((hi.inOrder hc).2 ▸ h2)⟩,
    hi.levels, hi.noWildAccess⟩

/-- A store of PerCell that reaches its cell keeps the invariant, and raises nothing. -/
theorem State.Inv.commit (hi : s.Inv) (hc : s.cfg.consistency = .perCell) (hg : h.cell.sound s.cfg h.value) :
    (s.commit h).Inv ∧ (s.commit h).fault = s.fault := by
  obtain ⟨hr, hv, ho⟩ := hg
  obtain ⟨w, hw, hm⟩ := hi.load hr
  rcases commit_cases s h with ⟨old, u, hl, hu, he⟩ | ⟨hl, -⟩
  swap
  · rw [hl] at hw; cases hw
  rw [hl] at hw
  cases hw
  have hj := hi.store hv hu
  obtain ⟨h1, -, -, -, -, h6, -, -, -, -, h11, h12⟩ := store_outside hu
  rw [he]
  refine ⟨⟨hj.config, hj.channels, hj.entries, hj.agents, hj.phases, hj.pinmap, hj.commands, hj.buffer, hj.held, ?_, ?_,
    hj.levels, hj.noWildAccess⟩, h6⟩
  · intro q hq
    simp only [List.mem_append, List.mem_filter, List.mem_map] at hq
    show q.cell.sound u.cfg q.value
    rw [h1]
    rcases hq with ⟨hq, -⟩ | ⟨b, -, rfl⟩
    · exact hi.unseen q hq
    · exact ⟨hr, hm, ho⟩
  · intro hsc
    have hsc : u.cfg.consistency = .sc := hsc
    rw [h1, hc] at hsc
    cases hsc

/-- A held store that the move `drain` lets reach its cell is one of those held. -/
theorem drainable_mem (hd : s.drainable n = some h) : h ∈ s.held := by
  unfold State.drainable at hd
  rw [Option.filter_eq_some_iff] at hd
  exact List.mem_of_getElem? hd.1

/-- The move `drain` keeps the invariant, and raises nothing. -/
theorem State.Inv.drainTick (hi : s.Inv) (n : Nat) : (drainTick n s).Inv ∧ (drainTick n s).fault = s.fault := by
  unfold Machine.drainTick
  cases hd : s.drainable n with
  | none => exact ⟨hi, rfl⟩
  | some g =>
    have hm := drainable_mem hd
    have hc : s.cfg.consistency = .perCell := by
      cases hc : s.cfg.consistency with
      | perCell => rfl
      | sc => rw [(hi.inOrder hc).1] at hm; cases hm
    obtain ⟨h1, h2⟩ := hi.commit hc (hi.held g hm)
    have hh : (s.commit g).held = s.held := (commit_outside s g).2.2.2.2.2.2.2.2.2
    exact ⟨h1.fewer (us := (s.commit g).unseen) (by rw [hh]; exact (List.eraseIdx_sublist ..).subset) (List.Subset.refl _), h2⟩

/-- The move `see` keeps the invariant. -/
theorem State.Inv.seeTick (hi : s.Inv) (n : Nat) : (seeTick n s).Inv :=
  hi.fewer (hs := s.held) (List.Subset.refl _) (List.eraseIdx_sublist ..).subset

/-- Held stores that reach their cells one after another keep the invariant. -/
theorem State.Inv.commits {hs : List Held} : ∀ {s : State}, s.Inv → (hs ≠ [] → s.cfg.consistency = .perCell) →
    (∀ g ∈ hs, g.cell.sound s.cfg g.value) →
    (hs.foldl State.commit s).Inv ∧ (hs.foldl State.commit s).fault = s.fault ∧
      (hs.foldl State.commit s).held = s.held := by
  induction hs with
  | nil => exact fun hi _ _ => ⟨hi, rfl, rfl⟩
  | cons g gs ih =>
    intro s hi hc hg
    obtain ⟨h1, h2⟩ := hi.commit (hc (List.cons_ne_nil _ _)) (hg g List.mem_cons_self)
    have ho := commit_outside s g
    obtain ⟨h3, h4, h5⟩ := ih h1 (fun _ => by rw [ho.1]; exact hc (List.cons_ne_nil _ _)) fun q hq => by
      rw [ho.1]; exact hg q (List.mem_cons_of_mem _ hq)
    exact ⟨h3, h4.trans h2, h5.trans ho.2.2.2.2.2.2.2.2.2⟩

/-- A whole operation starts from a state of the invariant. -/
theorem State.Inv.settled (hi : s.Inv) (a : Agent) : (s.settled a).Inv ∧ (s.settled a).fault = s.fault := by
  have hc : (s.held.filter fun h => Agent.ctrl h.agent == a) ≠ [] → s.cfg.consistency = .perCell := by
    intro hne
    cases hc : s.cfg.consistency with
    | perCell => rfl
    | sc => rw [(hi.inOrder hc).1] at hne; exact absurd rfl hne
  obtain ⟨h1, h2, h3⟩ := hi.commits hc fun g hg => hi.held g (List.mem_of_mem_filter hg)
  exact ⟨h1.fewer (by rw [h3]; exact List.filter_subset_self _) (List.filter_subset_self _), h2⟩

/-- What settling an agent leaves alone, whatever it changes of the cells. -/
theorem settled_outside (s : State) (a : Agent) :
    (s.settled a).cfg = s.cfg ∧ (s.settled a).ctrls = s.ctrls ∧ (s.settled a).mix = s.mix ∧
      (s.settled a).rsps = s.rsps ∧ (s.settled a).sink = s.sink ∧ (s.settled a).cur = s.cur ∧
      (s.settled a).events = s.events ∧ (s.settled a).answers = s.answers ∧ (s.settled a).drawn = s.drawn := by
  show _ = _ ∧ _
  unfold State.settled
  generalize (s.held.filter fun h => Agent.ctrl h.agent == a) = hs
  induction hs generalizing s with
  | nil => simp
  | cons g gs ih =>
    obtain ⟨h1, h2, h3, h4, h5, h6, h7, h8, h9, -⟩ := commit_outside s g
    have := ih (s.commit g)
    simp only [List.foldl_cons] at this ⊢
    simp_all only [and_self]

/-! ### A store that becomes visible at once -/

/-- The last stores that are unseen are seen one after another. -/
theorem runSteps_see {new old : List Unseen} {es : List Event} (hf : s.fault = none) :
    runSteps new.length { s with unseen := old ++ new, events := List.replicate new.length (.see old.length) ++ es } =
      .next { s with unseen := old, events := es } := by
  induction new with
  | nil => simp [runSteps]
  | cons u us ih =>
    rw [List.length_cons, runSteps_succ (t :=
      { s with unseen := old ++ us, events := List.replicate us.length (.see old.length) ++ es })]
    · exact ih
    · rw [step_see (n := old.length) (es := List.replicate us.length (.see old.length) ++ es)]
      · simp [seeTick, List.eraseIdx_append_of_length_le]
      · exact hf
      · rfl

/-- A control agent that has seen every store and holds none makes a store that at once reaches its cell and is seen by every
agent: what is left is the store made as under SC. -/
theorem runSteps_store {k v : Nat} {j : CtrlJob} {p : CmdProg} {es : List Event} (hf : s.fault = none)
    (hc : s.cfg.consistency = .perCell) (hj : s.jobOf k = some j) (hr : j.rest s.cfg = some (.st x v p))
    (hs : s.store x v = some t) (hh : ∀ h ∈ s.held, h.agent ≠ k) (hu : ∀ u ∈ s.unseen, u.agent ≠ .ctrl k) :
    ∃ ms : List Event, (∀ e ∈ ms, e = .ctrl k ∨ ∃ n, e = .drain n ∨ e = .see n) ∧
      runSteps ms.length { s with events := ms ++ es } =
        .next { t.putJob k (some (j.advance v)) with cur := k, events := es } := by
  obtain ⟨old, hl⟩ : ∃ old, s.load x = some old := by
    rw [← Option.isSome_iff_exists, ← store_isSome (v := v), hs]; rfl
  let new : List Unseen := ((allAgents s.cfg).filter fun a => a != .ctrl k).map fun a => ⟨a, x, old⟩
  refine ⟨.ctrl k :: .drain s.held.length :: List.replicate new.length (.see s.unseen.length), ?_, ?_⟩
  · intro e he
    simp only [List.mem_cons, List.mem_replicate] at he
    rcases he with rfl | rfl | ⟨-, rfl⟩
    · exact .inl rfl
    · exact .inr ⟨_, .inl rfl⟩
    · exact .inr ⟨_, .inr rfl⟩
  let u1 : State :=
    { s.putJob k (some (j.advance v)) with
      cur := k
      held := s.held ++ [⟨k, x, x.kept v⟩]
      events := .drain s.held.length :: (List.replicate new.length (.see s.unseen.length) ++ es) }
  have h1 : step { s with events := .ctrl k :: .drain s.held.length ::
      (List.replicate new.length (.see s.unseen.length) ++ es) } = .next u1 := by
    have hf' : State.fault { s with events := .ctrl k :: .drain s.held.length ::
      (List.replicate new.length (.see s.unseen.length) ++ es) } = none := hf
    rw [step_ctrl (k := k)
      (es := .drain s.held.length :: (List.replicate new.length (.see s.unseen.length) ++ es)) hf' rfl]
    have hj' : State.jobOf { s with
        events := .drain s.held.length :: (List.replicate new.length (.see s.unseen.length) ++ es), cur := k } k = some j := hj
    simp only [ctrlTick, hj', hr, State.stepProgram, State.storeFor, hc]
    rfl
  have hd : u1.drainable s.held.length = some ⟨k, x, x.kept v⟩ := by
    have : (s.held.any fun o => o.agent == k && o.cell == x) = false := by
      rw [List.any_eq_false]; intro o ho; simp [hh o ho]
    simp [State.drainable, u1, Option.filter, this]
  have ht := store_of_cells hs (u := s) rfl rfl rfl
  rw [hs, Option.some.injEq] at ht
  have hstore := store_of_cells hs (u := { u1 with events := List.replicate new.length (.see s.unseen.length) ++ es })
    rfl rfl rfl
  have hload : State.load { u1 with events := List.replicate new.length (.see s.unseen.length) ++ es } x = some old := by
    rw [← hl]; cases x <;> rfl
  have hun : (s.unseen.filter fun u => !(u.agent == .ctrl k && u.cell == x)) = s.unseen := by
    rw [List.filter_eq_self]; intro u hm; simp [hu u hm]
  have h2 : step u1 = .next
      { t.putJob k (some (j.advance v)) with
        cur := k
        unseen := s.unseen ++ new
        events := List.replicate new.length (.see s.unseen.length) ++ es } := by
    have hd' : State.drainable { u1 with events := List.replicate new.length (.see s.unseen.length) ++ es }
        s.held.length = some ⟨k, x, x.kept v⟩ := hd
    rw [step_drain (s := u1) hf rfl]
    simp only [drainTick, hd', State.commit, hload, store_kept, hstore]
    obtain ⟨cs, ps, b, rfl⟩ : ∃ cs ps b, t = { s with chans := cs, pins := ps, backend := b } := ⟨_, _, _, ht⟩
    simp only [u1, new, State.putJob, hun, List.eraseIdx_append_of_length_le, Nat.le_refl, Nat.sub_self,
      List.eraseIdx_cons_zero, List.append_nil]
  rw [List.length_cons, List.length_cons, List.length_replicate, List.cons_append, List.cons_append,
    runSteps_succ h1, runSteps_succ h2]
  have hu2 : t.unseen = s.unseen := (store_outside hs).2.2.2.2.2.2.2.2.2.2.2
  have hft : t.fault = none := (store_outside hs).2.2.2.2.2.1.trans hf
  have := runSteps_see (s := { t.putJob k (some (j.advance v)) with cur := k }) (old := s.unseen) (new := new)
    (es := es) hft
  rw [this, ← hu2]
  rfl

end Sys2Proof.Machine
end

