-- ==== Sys2Proof/Tests/Slice0.lean ====
section
/-! SUPPORT. Small tests: ill-formed operands, words written out from 95_test_vectors.md, one step of each instruction
with results taken from its vectors (V..) or programs (P..), and a witness for every statement that has hypotheses. -/

namespace Sys2Proof.Tests

open Sys2Proof Sys2Proof.Machine

/-! ## Operands no word can carry (30_encoding.md R99) -/

/-- Well-formed for the default configuration, as each of the smoke tests asks it. -/
abbrev fits (i : Instr) : Bool := i.wf Config.default

theorem test_wf_pin : fits (.read 65535) = true ∧ fits (.read 65536) = false := by decide
theorem test_wf_pin_write : fits (.write 65536 0) = false ∧ fits (.detach 65536) = false := by decide
theorem test_wf_pin_readf : fits (.readf 65536) = false ∧ fits (.tone 65536 0) = false := by decide
theorem test_wf_ch : fits (.writech 255 0) = true ∧ fits (.writech 256 0) = false := by decide
theorem test_wf_ch_attach : fits (.attachch 0 0 1 256) = false ∧ fits (.attachch 65536 0 1 0) = false := by decide
theorem test_wf_res : fits (.attach 0 0 16) = true ∧ fits (.attach 0 0 17) = false := by decide
theorem test_wf_res_zero : fits (.chfreq 0 0 1) = true ∧ fits (.chfreq 0 0 0) = false := by decide
theorem test_wf_note : fits (.note 0 15 15) = true ∧ fits (.note 0 16 0) = false := by decide
theorem test_wf_octave : fits (.note 0 0 16) = false ∧ fits (.note 65536 0 0) = false := by decide
theorem test_wf_frames : fits (.bufreq 65535) = true ∧ fits (.bufreq 65536) = false := by decide

/-- R99: a refused operand gets no word. -/
theorem test_assemble_refuses : assemble Config.default (.attach 0 0 17) = none := by decide

/-- R99: the largest duty has a word, the next number has none. -/
theorem test_asm_duty : asmDuty Config.default 4294967295 = some 0xFFFFFFFF ∧ asmDuty Config.default 4294967296 = none := by
  decide

/-- R99: 50.5 Hz is 12928 (V11); a negative frequency, a third of a Hz and 2^24 Hz have no word. -/
theorem test_asm_freq : asmFreq 8 101 2 = some 12928 ∧ asmFreq 8 1 3 = none ∧ asmFreq 8 (-1) 1 = none ∧
    asmFreq 8 16777216 1 = none := by decide

/-- R100: PLAYTONE and MELODY expand to tones, waits and silences. -/
theorem test_melody : melody 25 [(256000, 100), (0, 50)] =
    [.instr (.tone 25 256000), .wait 100, .instr (.tone 25 0), .instr (.tone 25 0), .wait 50, .instr (.tone 25 0)] := by
  decide

/-! ## Words written out from the spec (V1 to V13) -/

theorem test_decode_attach : decodeCommand 0x190000190003E800 = .ok (.attach 25 256000 10) := by decide
theorem test_decode_attach_least : decodeCommand 0x1000000000000000 = .ok (.attach 0 0 1) := by decide
theorem test_decode_attachch : decodeCommand 0x270300010001B800 = .ok (.attachch 1 112640 8 3) := by decide
theorem test_decode_attachch_fraction : decodeCommand 0x230F000900003280 = .ok (.attachch 9 12928 4 15) := by decide
theorem test_decode_write : decodeCommand 0x3000000400000080 = .ok (.write 4 128) := by decide
theorem test_decode_writech : decodeCommand 0x4000000000000005 = .ok (.writech 0 5) := by decide
theorem test_decode_tone : decodeCommand 0x500000190003E800 = .ok (.tone 25 256000) := by decide
theorem test_decode_note : decodeCommand 0x6904000200000000 = .ok (.note 2 9 4) := by decide
theorem test_decode_read : decodeCommand 0x7000001900000000 = .ok (.read 25) := by decide
theorem test_decode_readf : decodeCommand 0x8000001900000000 = .ok (.readf 25) := by decide
theorem test_decode_detach : decodeCommand 0x9000001900000000 = .ok (.detach 25) := by decide
theorem test_decode_chfreq : decodeCommand 0xAB000004002EE000 = .ok (.chfreq 4 3072000 12) := by decide
theorem test_decode_bufreq : decode (.request 0x0030) = .ok (.bufreq 48) := by decide

/-- V13a to V13c: reserved opcodes. -/
theorem test_decode_reserved_opcode : decodeCommand 0x0000000000000000 = .error .reservedOpcode ∧
    decodeCommand 0xB000000000000000 = .error .reservedOpcode ∧
    decodeCommand 0xF000000000000000 = .error .reservedOpcode := by decide

/-- V13d to V13h: nonzero reserved fields. -/
theorem test_decode_reserved_field : decodeCommand 0x1001001900000000 = .error .reservedField ∧
    decodeCommand 0x3100000100000001 = .error .reservedField ∧
    decodeCommand 0x4000000100000001 = .error .reservedField ∧
    decodeCommand 0x6910000200000000 = .error .reservedField ∧
    decodeCommand 0x6900000200000001 = .error .reservedField := by decide

/-- V13i to V13m: nonzero reserved fields. -/
theorem test_decode_reserved_field_more : decodeCommand 0x7000000100000001 = .error .reservedField ∧
    decodeCommand 0x8100000100000000 = .error .reservedField ∧
    decodeCommand 0x9001000100000000 = .error .reservedField ∧
    decodeCommand 0xA010000100000000 = .error .reservedField ∧
    decodeCommand 0x5F00000100000000 = .error .reservedField := by decide

/-- The opcode table's own matches, numbered as the table numbers them. -/
theorem test_decode_table_word : decodeTableWord 64 0x7000000000000000 = some (.read 0) ∧
    decodeTableWord 16 48 = some (.bufreq 48) ∧ decodeTableWord 64 0 = none := by decide

/-! ## Small states -/

/-- The next state, if there is one. -/
def next? : Host.Outcome State Fault Refusal → Option State
  | .next t => some t
  | _ => none

/-- s with a command word delivered whole to control agent 0. -/
def sent (w : CmdWord) (s : State) : State := { s with events := [.command 0 w] }

/-- s with a request delivered whole. -/
def asked (n : SinkWord) (s : State) : State := { s with events := [.request n] }

/-- A running machine of two channels and sixteen pins; pin 2 is on the first channel. -/
def idle : State := (smallMachine .sc .running 2).putPin 2 0

/-- The same with ch as its first channel and a second that is Free. -/
def playing (ch : Channel) : State := { idle with chans := [ch, Channel.reset] }

/-- 1000 Hz, ten bits, the 50% duty, phase 0. -/
def tone1k : Channel := { freq := 256000, phase := 0, duty := 511, resmax := 1023, attached := true }

/-- A Free machine whose device has not been initialised and will be, if asked. -/
def fresh : State := { smallMachine .sc .uninit 1 with answers := [true] }

/-- V85's channels: the first is in range, the second at 72000 Hz. -/
def overdriven : State := { idle with chans := [{ tone1k with duty := 1, resmax := 1 },
  { freq := 18432000, phase := 0, duty := 1, resmax := 1, attached := true }] }

/-- The responses after one step. -/
def replies (s : State) : Option (List (Nat × RspWord)) := (next? (step s)).map State.rsps

/-! ## One step of each instruction -/

/-- V20 (its operands in a small machine): ATTACH initialises and takes channel 0. -/
theorem test_attach : (next? (step (sent 0x1F00000F00006400 fresh))).map (fun t => (t.backend, t.chans, t.entry 15, t.rsps)) =
    some (.ready, [{ freq := 25600, phase := 0, duty := 0, resmax := 65535, attached := true }, Channel.reset], 0,
      [(0, 0x000000001)]) := by decide

/-- V90: a device that fails to initialise. -/
theorem test_attach_no_device :
    (next? (step (sent 0x170000010001B800 { fresh with answers := [false] }))).map (fun t => (t.backend, t.chans, t.rsps)) =
      some (.failed, [Channel.reset, Channel.reset], [(0, 0x400000000)]) := by decide

/-- V28 with another pin: ATTACHCH takes a busy channel; its duty and phase stay, and the first pin keeps its entry. -/
theorem test_attachch_override :
    (next? (step (sent 0x270000030001F400 (playing tone1k)))).map (fun t => (t.chans[0]?, t.entry 2, t.entry 3, t.rsps)) =
      some (some { freq := 128000, phase := 0, duty := 511, resmax := 255, attached := true }, 0, 0, [(0, 0x000000001)]) := by
  decide

/-- V23c: the pin is tested before the channel. -/
theorem test_attachch_order : replies (sent 0x2310012C00003200 (playing tone1k)) = some [(0, 0x300000000)] := by decide

/-- V37: no clamp. -/
theorem test_write_no_clamp : (next? (step (sent 0x30000002FFFFFFFF (playing tone1k)))).map (fun t => (t.load (.duty 0), t.rsps)) =
    some (some 4294967295, [(0, 0x000000001)]) := by decide

/-- V91: a zero duty starts nothing. -/
theorem test_write_zero : (next? (step (sent 0x3000000200000000 ((playing tone1k).putBackend .ready)))).map
    (fun t => (t.load (.duty 0), t.backend)) = some (some 0, .ready) := by decide

/-- V47a, V47b: a Free channel is refused. -/
theorem test_writech : (next? (step (sent 0x400000000000004D (playing tone1k)))).map (fun t => t.load (.duty 0)) =
    some (some 77) := by decide
theorem test_writech_free : replies (sent 0x400100000000004D (playing tone1k)) = some [(0, 0x200000000)] := by decide

/-- V40a with ten bits: half of 1023 is 511. -/
theorem test_tone : (next? (step (sent 0x5000000200000001 (playing { tone1k with duty := 0 })))).map
    (fun t => (t.load (.freq 0), t.load (.duty 0), t.rsps)) = some (some 1, some 511, [(0, 0x000000001)]) := by decide

/-- V42: frequency 0 silences and answers 0. -/
theorem test_tone_zero : (next? (step (sent 0x5000000200000000 (playing tone1k)))).map
    (fun t => (t.load (.freq 0), t.load (.duty 0), t.rsps)) = some (some 0, some 0, [(0, 0x000000000)]) := by decide

/-- V51: A4 is 440 Hz. -/
theorem test_note : (next? (step (sent 0x6904000200000000 (playing tone1k)))).map (fun t => (t.load (.freq 0), t.rsps)) =
    some (some 112640, [(0, 0x00001B800)]) := by decide

/-- V58: the note is tested before the pin. -/
theorem test_note_order : replies (sent 0x6C04000900000000 (playing tone1k)) = some [(0, 0x600000000)] := by decide

/-- V38, V49b. -/
theorem test_read : replies (sent 0x7000000200000000 (playing { tone1k with duty := 0xFFFFFFFF })) =
    some [(0, 0x0FFFFFFFF)] := by decide
theorem test_read_pin : replies (sent 0x7000010000000000 (playing tone1k)) = some [(0, 0x300000000)] := by decide

/-- V50, V49a. -/
theorem test_readf : replies (sent 0x8000000200000000 (playing tone1k)) = some [(0, 0x00003E800)] := by decide
theorem test_readf_unmapped : replies (sent 0x8000000900000000 (playing tone1k)) = some [(0, 0x500000000)] := by decide

/-- V25a: freq and resmax are kept; V24: result 1 beside a cause. -/
theorem test_detach : (next? (step (sent 0x9000000200000000 (playing tone1k)))).map (fun t => (t.chans[0]?, t.entry 2, t.rsps)) =
    some (some { tone1k with duty := 0, attached := false }, 255, [(0, 0x000000001)]) := by decide
theorem test_detach_bad_pin : replies (sent 0x9000012C00000000 (playing tone1k)) = some [(0, 0x300000001)] := by decide

/-- V45: the duty is kept, far above the new maximum. -/
theorem test_chfreq : (next? (step (sent 0xA200000200000000 (playing tone1k)))).map (fun t => (t.chans[0]?, t.rsps)) =
    some (some { tone1k with freq := 0, resmax := 7 }, [(0, 0x000000000)]) := by decide
theorem test_chfreq_unmapped : replies (sent 0xA700000900006400 (playing tone1k)) = some [(0, 0x500000000)] := by decide

/-- V79: 36000 Hz folds to the pattern of 12000 Hz. -/
theorem test_bufreq_fold : (next? (step (asked 8 (playing { tone1k with freq := 9216000 })))).map
    (fun t => (t.sink, t.load (.phase 0))) = some ([[1, -1, -1, 1, 1, -1, -1, 1]], some 0) := by decide

/-- V85: the second channel faults at frame 1; the first has stored its phase, and no buffer is delivered. -/
theorem test_bufreq_overrange : (next? (step (asked 8 overdriven))).map
    (fun t => (t.fault, t.sink, t.load (.phase 0), t.load (.phase 1))) =
      some (some (.phaseOverrange 1 1), [], some 2048000, some 0) := by decide

/-- V13a: an illegal word is answered, also in the inert state. -/
theorem test_illegal : replies (sent 0 ((playing tone1k).putBackend .failed)) = some [(0, 0x700000000)] := by decide

/-- V67b: one half of the period is positive. -/
theorem test_half_period : (next? (step (asked 4 (playing { tone1k with phase := 6143999 })))).map
    (fun t => (t.sink, t.load (.phase 0))) = some ([[1, -1, -1, -1]], some 7167999) := by decide

/-- The host's first instruction after reset. -/
theorem test_fetch_word : (next? (step (State.reset.withFetchWord 64 0x7000000000000000))).map State.rsps =
    some [(0, 0x500000000)] := by decide
theorem test_fetch_request : (next? (step (State.reset.withFetchWord 16 3))).map State.sink = some [[0, 0, 0]] := by decide

/-- V75: sixteen channels at 1/8 each are twice full scale. -/
theorem test_sample_value : sampleValue Config.default 16 = 2 := by
  have h : Config.default.amp = mkRat 1 8 := rfl
  have h16 : (16 : Level).toInt = 16 := by decide
  rw [sampleValue, h, h16, Rat.mkRat_eq_div]
  norm_num

/-! ## Witnesses: each statement's hypotheses are met together -/

theorem idle_modulus : idle.cfg.modulus = 12288000 := by decide

/-- The small running machine meets the invariant. -/
theorem playing_inv {ch : Channel} (h : ch.phase < 12288000) : (playing ch).Inv where
  config := show idle.cfg.wf by decide
  channels := rfl
  entries := show idle.pins.length = idle.cfg.nPin from rfl
  agents := show idle.ctrls.length = idle.cfg.nCtrl from rfl
  phases := by
    intro d hd
    rw [show (playing ch).cfg.modulus = 12288000 from idle_modulus]
    simp only [playing, List.mem_cons, List.not_mem_nil, or_false] at hd
    rcases hd with rfl | rfl
    · exact h
    · decide
  pinmap := show ∀ m ∈ idle.pins, m = unassigned ∨ m.toNat < idle.cfg.nCh by decide
  commands := by
    intro j hj
    have hn : ∀ o ∈ idle.ctrls, o = none := by decide
    cases hn _ hj
  buffer := fun j hj => by cases hj
  held := fun g hg => by cases hg
  unseen := fun u hu => by cases hu
  inOrder := fun _ => ⟨rfl, rfl⟩
  levels := fun b hb => by cases hb
  noWildAccess := fun x e => by cases e

/-- In it pin 2 resolves to channel 0. -/
theorem playing_resolves {ch : Channel} (h : ch.attached = true) : (playing ch).resolves 2 0 ch :=
  ⟨show 2 < idle.cfg.nPin by decide, show 2 < idle.pins.length by decide, show idle.entry 2 = 0 by decide, by decide, rfl, h⟩

/-- The same machine with the stream ready, and a device that will start it or not. -/
def waiting (ok : Bool) : State := { (playing tone1k).putBackend .ready with answers := [ok] }

/-- The same machine with pin 3 mapped to the channel too. -/
def shared : State := (playing tone1k).putPin 3 0

/-- The same machine with both channels in use. -/
def full : State := { playing tone1k with chans := [tone1k, tone1k] }

/-- The same machine inert. -/
def inert : State := (playing tone1k).putBackend .failed

theorem shared_inv : shared.Inv := by
  have h := playing_inv (ch := tone1k) (by decide)
  exact ⟨h.config, rfl, rfl, rfl, h.phases, by decide, h.commands, h.buffer, h.held, h.unseen, h.inOrder, h.levels, h.noWildAccess⟩

theorem witness_DeliveredCommandRunsInstruction :
    let s := sent 0x7000000200000000 (playing tone1k)
    s.fault = none ∧ s.events = [.command 0 0x7000000200000000] ∧ 0 < s.cfg.nCtrl ∧ s.jobOf 0 = none ∧
      decodeCommand 0x7000000200000000 = .ok (.read 2) := ⟨rfl, rfl, by decide, rfl, by decide⟩

theorem witness_DeliveredRequestRunsBufreq :
    (asked 4 (playing tone1k)).fault = none ∧ (asked 4 (playing tone1k)).events = [.request 4] := ⟨rfl, rfl⟩

/-- Both clauses: a word with one reserved bit set and the same word without it; an agent that exists and is idle. -/
theorem witness_IllegalWordIsAnswered :
    (∃ r ∈ opcodeTable, r.selects 0x6900000200000000 = true) ∧ (∀ r ∈ opcodeTable, r.selects 0x6910000200000000 = false) ∧
      (sent 0x6910000200000000 (playing tone1k)).fault = none ∧ 0 < (playing tone1k).cfg.nCtrl ∧
      (playing tone1k).jobOf 0 = none := ⟨by decide, by decide, rfl, by decide, rfl⟩

/-- Both clauses: a word that decodes and one that does not; each delivered whole and step by step. -/
theorem witness_DecodingReadsTheWordAlone : decodeCommand 0x6900000200000000 = .ok (.note 2 9 0) ∧
    decodeCommand 0x6910000200000000 = .error .reservedField ∧ (playing tone1k).fault = none ∧
    1 < (playing tone1k).cfg.nCtrl ∧ (playing tone1k).jobOf 1 = none ∧
    ({ playing tone1k with events := [.issue 1 0x6900000200000000] } : State).events = [.issue 1 0x6900000200000000] :=
  ⟨by decide, by decide, rfl, by decide, rfl, rfl⟩

/-- Every clause, at the largest operands of its format. -/
theorem witness_OperandsAreTheWordsFields :
    decodeCommand 0x1F00FFFFFFFFFFFF = .ok (.attach 65535 0xFFFFFFFF 16) ∧
    decodeCommand 0x2FFFFFFFFFFFFFFF = .ok (.attachch 65535 0xFFFFFFFF 16 255) ∧
    decodeCommand 0x3000FFFFFFFFFFFF = .ok (.write 65535 0xFFFFFFFF) ∧
    decodeCommand 0x40FF0000FFFFFFFF = .ok (.writech 255 0xFFFFFFFF) ∧
    decodeCommand 0x5000FFFFFFFFFFFF = .ok (.tone 65535 0xFFFFFFFF) ∧
    decodeCommand 0x6F0FFFFF00000000 = .ok (.note 65535 15 15) ∧
    decodeCommand 0x7000FFFF00000000 = .ok (.read 65535) ∧
    decodeCommand 0x8000FFFF00000000 = .ok (.readf 65535) ∧
    decodeCommand 0x9000FFFF00000000 = .ok (.detach 65535) ∧
    decodeCommand 0xAF00FFFFFFFFFFFF = .ok (.chfreq 65535 0xFFFFFFFF 16) := by decide

theorem witness_DecodeOfEncodeIsTheInstruction :
    Config.default.wf ∧ Instr.wf Config.default (.attachch 65535 0xFFFFFFFF 16 255) = true := by decide

theorem witness_EncodeOfDecodeIsTheWord : Config.default.wf ∧ decode (.command 0x6904000200000000) = .ok (.note 2 9 4) ∧
    decode (.request 0xFFFF) = .ok (.bufreq 65535) := by decide

theorem witness_ResetMeetsInvariant : (smallMachine .perCell .uninit 2).cfg.wf := by decide

theorem witness_ResetStateIsTheSpecs : 15 < Config.default.nCh ∧ 255 < Config.default.nPin := by decide

theorem witness_SilentEnvironmentChangesNothing : State.reset.fault = none ∧ State.reset.events = [] := ⟨rfl, rfl⟩

theorem witness_RecordedFaultStopsTheRun :
    ((playing tone1k).raise (.phaseOverrange 0 1)).fault = some (.phaseOverrange 0 1) := rfl

/-- A whole command, a whole buffer, and one step of an agent. -/
theorem witness_EveryStepKeepsInvariant :
    (playing tone1k).Inv ∧ (∃ t, step (playing tone1k) = .next t) ∧ shared.Inv :=
  ⟨playing_inv (by decide), ⟨_, rfl⟩, shared_inv⟩

theorem witness_NoStepChangesConfiguration : ∃ t, step (asked 4 (playing tone1k)) = .next t := ⟨_, rfl⟩

/-- s with these moves listed meets the invariant if s does. -/
theorem inv_events {s : State} (h : s.Inv) (es : List Event) : State.Inv { s with events := es } :=
  ⟨h.config, h.channels, h.entries, h.agents, h.phases, h.pinmap, h.commands, h.buffer, h.held, h.unseen, h.inOrder, h.levels, h.noWildAccess⟩

/-- Both clauses: a command's move and a buffer's. -/
theorem witness_PhasesBelongToTheMixer :
    (sent 0x9000000200000000 (playing tone1k)).Inv ∧ isMixMove (.command 0 0x9000000200000000) = false ∧
    (∃ t, step (sent 0x9000000200000000 (playing tone1k)) = .next t) ∧
    (asked 4 (playing tone1k)).Inv ∧ isMixMove (.request 4) = true ∧ ∃ t, step (asked 4 (playing tone1k)) = .next t :=
  ⟨inv_events (playing_inv (by decide)) _, rfl, ⟨_, rfl⟩, inv_events (playing_inv (by decide)) _, rfl, ⟨_, rfl⟩⟩

/-- Control agent 0 stands before WRITE's store, under SC. -/
def storing : State := { playing tone1k with ctrls := [some { instr := .write 2 7, moved := [2, 0, 1] }, none] }

/-- The same under PerCell. -/
def aboutToHold : State := { storing with cfg := (smallMachine .perCell .running 2).cfg }

/-- Control agent 0 has made WRITE's store and holds it, under PerCell. -/
def holding : State :=
  { playing tone1k with
    cfg := (smallMachine .perCell .running 2).cfg
    ctrls := [some { instr := .write 2 7, moved := [2, 0, 1, 7] }, none]
    held := [⟨0, .duty 0, 7⟩] }

/-- That store is in its cell, and neither MIX nor control agent 1 has seen it. -/
def unnoticed : State :=
  { playing { tone1k with duty := 7 } with
    cfg := (smallMachine .perCell .running 2).cfg
    unseen := [⟨.mix, .duty 0, 511⟩, ⟨.ctrl 1, .duty 0, 511⟩] }

/-- MIX stands before its phase store. -/
def mixed : State := { playing tone1k with mix := some { MixJob.start 4 with p := some 1024000 } }

/-- Each clause: no store (a word taken; a store seen); a store under SC; a held store that reaches its cell; MIX's phase
store; under PerCell a store made, and what an agent sees changed by its own step and by a store it sees. -/
theorem witness_SingleStepTouchesOneCell :
    (idle.storeMade (.issue 0 0x9000000200000000) = none ∧
      ∃ t, step { idle with events := [.issue 0 0x9000000200000000] } = .next t) ∧
    (storing.storeMade (.ctrl 0) = some (.duty 0, 7) ∧ ∃ t, step { storing with events := [.ctrl 0] } = .next t) ∧
    (holding.storeMade (.drain 0) = some (.duty 0, 7) ∧ ∃ t, step { holding with events := [.drain 0] } = .next t) ∧
    (mixed.storeMade (.mix .attached) = some (.phase 0, 1024000) ∧
      ∃ t, step { mixed with events := [.mix .attached] } = .next t) ∧
    ((∃ j p, aboutToHold.jobOf 0 = some j ∧ j.rest aboutToHold.cfg = some (.st (.duty 0) 7 p)) ∧
      aboutToHold.seenBy (.ctrl 0) (.duty 0) = some 511 ∧
      (next? (step { aboutToHold with events := [.ctrl 0] })).bind (fun t => t.seenBy (.ctrl 0) (.duty 0)) = some 7) ∧
    (unnoticed.seenBy (.ctrl 1) (.duty 0) = some 511 ∧
      (next? (step { unnoticed with events := [.see 1] })).bind (fun t => t.seenBy (.ctrl 1) (.duty 0)) = some 7 ∧
      (next? (step { unnoticed with events := [.see 1] })).bind (fun t => t.seenBy .mix (.duty 0)) = some 511) :=
  ⟨⟨rfl, _, rfl⟩, ⟨rfl, _, rfl⟩, ⟨rfl, _, rfl⟩, ⟨rfl, _, rfl⟩, ⟨⟨_, _, rfl, rfl⟩, by decide, by decide⟩, by decide,
    by decide, by decide⟩

/-- R62 (b), (d): where a held store reaches its cell every other agent still sees what it saw, and its own agent the store. -/
theorem test_drain_shows_no_one : (next? (step { holding with events := [.drain 0] })).map (fun t =>
    (t.load (.duty 0), t.seenBy (.ctrl 0) (.duty 0), t.seenBy (.ctrl 1) (.duty 0), t.seenBy .mix (.duty 0))) =
      some (some 7, some 7, some 511, some 511) := by decide

/-- R62 (c): of two stores of one agent to one cell the later cannot reach it first. -/
theorem test_drain_in_cell_order : (next? (step { holding with
    held := [⟨0, .duty 0, 7⟩, ⟨0, .duty 0, 8⟩], events := [.drain 1] })).map (fun t => t.load (.duty 0)) =
      some (some 511) := by decide

/-- A command delivered whole starts from what its agent's own stores and every store it has not seen leave. -/
theorem test_settled : replies { unnoticed with events := [.command 1 0x7000000200000000] } = some [(1, 0x000000007)] := by
  decide

theorem witness_FreeChannelsStaySilent : (playing tone1k).freeIsSilent ∧ ∃ t, exec (.detach 2) (playing tone1k) = .next t := by
  refine ⟨?_, _, rfl⟩
  unfold State.freeIsSilent
  decide

/-- The three clauses: nothing, a first attach, an activating write. -/
theorem witness_BackendMovesAsTheLifecycle : (∃ t, exec (.read 2) (playing tone1k) = .next t) ∧
    (fresh.backend = .uninit ∧ ∃ t, exec (.attach 2 0 1) fresh = .next t) ∧
    ((waiting false).backend = .ready ∧ activates (waiting false).cfg (.write 2 1) = true ∧ ∃ t, exec (.write 2 1) (waiting false) = .next t) :=
  ⟨⟨_, rfl⟩, ⟨rfl, _, rfl⟩, rfl, rfl, _, rfl⟩

/-- Both clauses: a command, and a request with every channel silent. -/
theorem witness_StreamNeverStops :
    let s := playing { tone1k with duty := 0 }
    s.Inv ∧ s.backend = .running ∧ (∃ t, exec (.write 2 0) s = .next t) ∧ s.mix = none ∧
      ∀ ch ∈ s.chans, ch.audible = false := ⟨playing_inv (by decide), rfl, ⟨_, rfl⟩, rfl, by decide⟩

theorem witness_EveryCommandAnswersOnce : (playing tone1k).Inv ∧ isCommand (.note 2 9 4) = true :=
  ⟨playing_inv (by decide), rfl⟩

theorem witness_InertStateAnswersDeviceUnavailable : inert.backend = .failed ∧ isCommand (.detach 2) = true := ⟨rfl, rfl⟩

theorem witness_AttachFamilyFrame : (∃ t, exec (.attach 5 256000 10) (playing tone1k) = .next t) ∧
    (∃ t, exec (.attachch 5 256000 10 0) (playing tone1k) = .next t) ∧ ∃ t, exec (.detach 2) (playing tone1k) = .next t :=
  ⟨⟨_, rfl⟩, ⟨_, rfl⟩, _, rfl⟩

theorem witness_MutatorsFrame : (∃ t, exec (.write 2 7) (playing tone1k) = .next t) ∧
    (∃ t, exec (.writech 0 7) (playing tone1k) = .next t) ∧ (∃ t, exec (.tone 2 7) (playing tone1k) = .next t) ∧
    (∃ t, exec (.note 2 9 4) (playing tone1k) = .next t) ∧ ∃ t, exec (.chfreq 2 7 16) (playing tone1k) = .next t :=
  ⟨⟨_, rfl⟩, ⟨_, rfl⟩, ⟨_, rfl⟩, ⟨_, rfl⟩, _, rfl⟩

theorem witness_ReadersFrame : (∃ t, exec (.read 2) (playing tone1k) = .next t) ∧
    ∃ t, exec (.readf 2) (playing tone1k) = .next t := ⟨⟨_, rfl⟩, _, rfl⟩

theorem witness_BufreqFrame : ∃ t, exec (.bufreq 4) (playing tone1k) = .next t := ⟨_, rfl⟩

/-- Channel 0 is in use and channel 1, the last, is Free; pin 15 is the last. -/
theorem witness_AttachTakesLowestFreeChannel : (playing tone1k).deviceThere ∧ 15 < (playing tone1k).cfg.nPin ∧
    15 < (playing tone1k).pins.length ∧ 1 < (playing tone1k).cfg.nCh ∧
    (∀ j < 1, ∃ d, (playing tone1k).chans[j]? = some d ∧ d.attached = true) ∧
    (playing tone1k).chans[1]? = some Channel.reset ∧ Channel.reset.attached = false := by
  refine ⟨⟨by decide, by decide⟩, by decide, by decide, by decide, fun j hj => ⟨tone1k, ?_, rfl⟩, rfl, rfl⟩
  obtain rfl : j = 0 := by omega
  rfl

/-- The same from the state after reset, where the device has still to be initialised. -/
theorem witness_deviceThere_uninit : fresh.deviceThere ∧ fresh.backend = .uninit := ⟨⟨by decide, fun _ => rfl⟩, rfl⟩

theorem witness_AttachFailsOnFullPool : full.deviceThere ∧ 15 < full.cfg.nPin ∧
    ∀ j < full.cfg.nCh, ∃ d, full.chans[j]? = some d ∧ d.attached = true := by
  refine ⟨⟨by decide, by decide⟩, by decide, fun j hj => ⟨tone1k, ?_, rfl⟩⟩
  have hj : j < 2 := hj
  interval_cases j <;> rfl

/-- A busy channel and a Free one. -/
theorem witness_AttachchTakesNamedChannel : (playing tone1k).deviceThere ∧ 15 < (playing tone1k).cfg.nPin ∧
    15 < (playing tone1k).pins.length ∧ 1 < (playing tone1k).cfg.nCh ∧ (playing tone1k).chans[0]? = some tone1k ∧
    (playing tone1k).chans[1]? = some Channel.reset :=
  ⟨⟨by decide, by decide⟩, by decide, by decide, by decide, rfl, rfl⟩

/-- Every clause at the first operand out of range: pin 16 of sixteen, channel 2 of two. -/
theorem witness_AttachPathFailures :
    ({ fresh with answers := [false] } : State).answer = false ∧ fresh.backend = .uninit ∧
    (playing tone1k).deviceThere ∧ (playing tone1k).cfg.nPin ≤ 16 ∧ 15 < (playing tone1k).cfg.nPin ∧
    (playing tone1k).cfg.nCh ≤ 2 := ⟨rfl, rfl, ⟨by decide, by decide⟩, by decide, by decide, by decide⟩

/-- Every clause: inert; pin 16 of sixteen; pin 15, unmapped; pin 2, mapped. -/
theorem witness_DetachFreesTheMappedChannel : inert.backend = .failed ∧ (playing tone1k).backend ≠ .failed ∧
    (playing tone1k).cfg.nPin ≤ 16 ∧ 15 < (playing tone1k).cfg.nPin ∧ 15 < (playing tone1k).pins.length ∧
    (playing tone1k).entry 15 = 0xFF ∧ (playing tone1k).entry 2 ≠ 0xFF ∧
    (playing tone1k).chans[(playing tone1k).entry 2]? = some tone1k :=
  ⟨rfl, by decide, by decide, by decide, by decide, by decide, by decide, rfl⟩

theorem witness_DetachIsIdempotent : (playing tone1k).Inv ∧ ∃ t, exec (.detach 2) (playing tone1k) = .next t :=
  ⟨playing_inv (by decide), _, rfl⟩

theorem witness_OverrideLeavesAStaleMapping : (playing tone1k).Inv ∧ (playing tone1k).deviceThere ∧ 3 ≠ 2 ∧
    3 < (playing tone1k).cfg.nPin ∧ (playing tone1k).resolves 2 0 tone1k :=
  ⟨playing_inv (by decide), ⟨by decide, by decide⟩, by decide, by decide, playing_resolves rfl⟩

theorem witness_StaleDetachFreesTheOtherPinsChannel : shared.Inv ∧ shared.backend ≠ .failed ∧ 2 ≠ 3 ∧
    shared.resolves 2 0 tone1k ∧ shared.resolves 3 0 tone1k :=
  ⟨shared_inv, by decide, by decide, ⟨by decide, by decide, by decide, by decide, rfl, rfl⟩,
    by decide, by decide, by decide, by decide, rfl, rfl⟩

/-- As many pins as channels. -/
theorem witness_PoolFillsInOrder : (smallMachine .sc .ready 1).cfg.wf ∧ [7, 3].Nodup ∧
    (∀ p ∈ [7, 3], p < (smallMachine .sc .ready 1).cfg.nPin) ∧ [7, 3].length = (smallMachine .sc .ready 1).cfg.nCh := by
  decide

/-- A running stream, and a ready one that the device starts: for the write paths' completion statements. -/
theorem witness_streamStarts : (playing tone1k).streamStarts ∧ (waiting true).streamStarts ∧ (waiting true).backend = .ready :=
  ⟨⟨by decide, by decide⟩, ⟨by decide, fun _ => rfl⟩, rfl⟩

theorem witness_WriteStoresDuty : (playing tone1k).backend ≠ .failed ∧ (playing tone1k).resolves 2 0 tone1k ∧
    ((0xFFFFFFFF : Duty) ≠ 0 → (playing tone1k).streamStarts) :=
  ⟨by decide, playing_resolves rfl, fun _ => witness_streamStarts.1⟩

/-- Every clause: channel 2 of two; channel 1, Free; channel 0, Attached. -/
theorem witness_WritechStoresDutyOrFails : (playing tone1k).backend ≠ .failed ∧ (playing tone1k).cfg.nCh ≤ 2 ∧
    1 < (playing tone1k).cfg.nCh ∧ (playing tone1k).chans[1]? = some Channel.reset ∧ Channel.reset.attached = false ∧
    (playing tone1k).chans[0]? = some tone1k ∧ tone1k.attached = true ∧ ((1 : Duty) ≠ 0 → (playing tone1k).streamStarts) :=
  ⟨by decide, by decide, by decide, rfl, rfl, rfl, rfl, fun _ => witness_streamStarts.1⟩

theorem witness_ToneSetsFrequencyAndHalfDuty : (waiting true).backend ≠ .failed ∧ (waiting true).resolves 2 0 tone1k ∧
    ((256000 : Freq) ≠ 0 → (waiting true).streamStarts) :=
  ⟨by decide, ⟨by decide, by decide, by decide, by decide, rfl, rfl⟩, fun _ => witness_streamStarts.2.1⟩

/-- Both clauses at their boundaries: note 12; octave 9; note 11 in octave 8. -/
theorem witness_NoteSetsTheTablesFrequency : (playing tone1k).backend ≠ .failed ∧ (playing tone1k).cfg.wf ∧
    ((playing tone1k).cfg.nNote ≤ 12 ∨ (playing tone1k).cfg.octMax < 8) ∧
    ((playing tone1k).cfg.nNote ≤ 11 ∨ (playing tone1k).cfg.octMax < 9) ∧ 11 < (playing tone1k).cfg.nNote ∧
    8 ≤ (playing tone1k).cfg.octMax ∧ (playing tone1k).cfg.noteBase[11]? = some 7902 ∧ (playing tone1k).resolves 2 0 tone1k ∧ (playing tone1k).streamStarts :=
  ⟨by decide, show idle.cfg.wf by decide, by decide, by decide, by decide, by decide, rfl, playing_resolves rfl,
    witness_streamStarts.1⟩

theorem witness_ReadAnswersTheDuty : (playing tone1k).backend ≠ .failed ∧ (playing tone1k).resolves 2 0 tone1k :=
  ⟨by decide, playing_resolves rfl⟩

theorem witness_ReadfAnswersTheFrequency : shared.backend ≠ .failed ∧ shared.resolves 3 0 tone1k :=
  ⟨by decide, witness_StaleDetachFreesTheOtherPinsChannel.2.2.2.2⟩

theorem witness_ChfreqKeepsDutyAndPhase : (playing tone1k).backend ≠ .failed ∧ (playing tone1k).resolves 2 0 tone1k ∧
    ((0 : Freq) ≠ 0 → (playing tone1k).streamStarts) := ⟨by decide, playing_resolves rfl, fun h => absurd rfl h⟩

/-- Every clause: pin 16 of sixteen; pin 15, unmapped; pin 2, mapped to a channel that is Free. -/
theorem witness_PinRouterFailsInOrder :
    let s := playing { tone1k with attached := false }
    routedPin (.note 2 9 4) = some 2 ∧ noteAccepted s.cfg (.note 2 9 4) = true ∧ s.backend ≠ .failed ∧ s.cfg.nPin ≤ 16 ∧
    15 < s.pins.length ∧ s.entry 15 = 0xFF ∧ s.entry 2 ≠ 0xFF ∧
    s.chans[s.entry 2]? = some { tone1k with attached := false } :=
  ⟨rfl, rfl, by decide, by decide, by decide, by decide, by decide, rfl⟩

theorem witness_FailedStartKeepsTheStores : (waiting false).backend = .ready ∧ (waiting false).answer = false ∧
    (waiting false).resolves 2 0 tone1k ∧ 0 < (waiting false).cfg.nCh ∧ 9 < (waiting false).cfg.nNote ∧
    4 ≤ (waiting false).cfg.octMax ∧ noteFreq (waiting false).cfg 9 4 ≠ 0 :=
  ⟨rfl, rfl, ⟨by decide, by decide, by decide, by decide, rfl, rfl⟩, by decide, by decide, by decide, by decide⟩

theorem witness_ToneReadsBack : (playing tone1k).backend ≠ .failed ∧ (playing tone1k).resolves 2 0 tone1k ∧
    ((1 : Freq) ≠ 0 → (playing tone1k).streamStarts) := witness_WriteStoresDuty.imp_right fun h => ⟨h.1, fun _ => witness_streamStarts.1⟩

/-- Also at the boundary: a frequency of exactly SAMPLE_RATE. -/
theorem witness_BufreqDeliversTheSumOfSquareWaves :
    let s := playing { tone1k with freq := 12288000, phase := 12287999 }
    s.Inv ∧ s.tuned ∧ s.backend = .running ∧ s.mix = none := by
  refine ⟨playing_inv (by decide), ?_, rfl, rfl⟩
  unfold State.tuned
  decide

theorem witness_LevelsAreSumsOfSigns : (playing tone1k).Inv ∧ (playing tone1k).fault = none ∧
    ∃ t, exec (.bufreq 4) (playing tone1k) = .next t ∧ t.fault = none := ⟨playing_inv (by decide), rfl, _, rfl, rfl⟩

/-- V70, V72: a duty of 0, a frequency of 0. -/
theorem witness_InaudibleChannelsAreFrozen :
    let s := playing { tone1k with freq := 0, phase := 7000000 }
    s.Inv ∧ s.backend = .running ∧ s.mix = none ∧ ∀ ch ∈ s.chans, ch.attached = false ∨ ch.duty = 0 ∨ ch.freq = 0 :=
  ⟨playing_inv (by decide), rfl, rfl, by decide⟩

/-- V68: the largest duty and the smallest. -/
theorem witness_DutyIsOnlyAGate :
    let s := playing { tone1k with duty := 0xFFFFFFFF }
    let t := playing { tone1k with duty := 1, resmax := 7 }
    (∃ s', exec (.bufreq 4) s = .next s') ∧ t.cfg = s.cfg ∧ t.backend = s.backend ∧ t.mix = s.mix ∧ t.fault = s.fault ∧
    t.sink = s.sink ∧ List.Forall₂ (fun a b : Channel => a.freq = b.freq ∧ a.phase = b.phase ∧ a.attached = b.attached ∧
      (a.duty = 0 ↔ b.duty = 0)) s.chans t.chans :=
  ⟨⟨_, rfl⟩, rfl, rfl, rfl, rfl, rfl,
    .cons ⟨rfl, rfl, rfl, by decide⟩ (.cons ⟨rfl, rfl, rfl, by decide⟩ .nil)⟩

theorem witness_BuffersConcatenate : (playing tone1k).Inv ∧ (playing tone1k).fault = none ∧
    ∃ t, exec (.bufreq 2) (playing tone1k) = .next t ∧ t.fault = none ∧
      ∃ u, exec (.bufreq 3) t = .next u ∧ u.fault = none :=
  ⟨playing_inv (by decide), rfl, _, rfl, rfl, _, rfl, rfl⟩

/-- V85: the first channel is in range for all eight frames, the second is out of it at frame 1. -/
theorem witness_OverrangeFaultsAtItsFrame :
    overdriven.Inv ∧ overdriven.fault = none ∧ overdriven.backend = .running ∧ overdriven.mix = none ∧
    (∃ ch, overdriven.chans[1]? = some ch ∧ ch.audible = true ∧ 1 < 8 ∧
      ch.phase + 1 * (ch.freq.toNat - overdriven.cfg.modulus) < overdriven.cfg.modulus ∧
      overdriven.cfg.modulus ≤ ch.phase + (1 + 1) * (ch.freq.toNat - overdriven.cfg.modulus)) ∧
    ∃ e, overdriven.chans[0]? = some e ∧ e.audible = true ∧
      e.phase + 8 * (e.freq.toNat - overdriven.cfg.modulus) < overdriven.cfg.modulus := by
  have h := playing_inv (ch := tone1k) (by decide)
  refine ⟨⟨h.config, rfl, rfl, rfl, ?_, h.pinmap, h.commands, h.buffer, h.held, h.unseen, h.inOrder, h.levels, h.noWildAccess⟩, rfl, rfl, rfl,
    ⟨_, rfl, ?_⟩, _, rfl, ?_⟩
  · rw [show overdriven.cfg.modulus = 12288000 from idle_modulus]; decide
  · decide
  · decide

/-- V82b: from the largest phase, frame 0. -/
theorem witness_OverrangeFaultsAtItsFrame_first :
    let ch : Channel := { tone1k with freq := 12288001, phase := 12287999 }
    (playing ch).Inv ∧ ch.phase + 0 * (ch.freq.toNat - 12288000) < 12288000 ∧
    12288000 ≤ ch.phase + (0 + 1) * (ch.freq.toNat - 12288000) := ⟨playing_inv (by decide), by decide, by decide⟩

/-- Even with a frequency out of range. -/
theorem witness_EmptyRequestChangesNoCell :
    (playing { tone1k with freq := 0xFFFFFFFF }).Inv ∧ (playing { tone1k with freq := 0xFFFFFFFF }).backend = .running ∧
    (playing { tone1k with freq := 0xFFFFFFFF }).mix = none := ⟨playing_inv (by decide), rfl, rfl⟩

/-- Not RUNNING; and RUNNING with a buffer in progress. -/
theorem witness_RequestsOnlyWhileRunning : ¬ ((waiting true).backend = .running ∧ (waiting true).mix = none) ∧
    ¬ (({ playing tone1k with mix := some (.start 4) } : State).backend = .running ∧
      ({ playing tone1k with mix := some (.start 4) } : State).mix = none) := by decide

/-- The same machine under PerCell. -/
theorem playing_inv_perCell {s : State} (h : s.Inv) (hc : ∀ j, some j ∉ s.ctrls) (hm : s.mix = none) :
    State.Inv { s with cfg := { s.cfg with consistency := .perCell } } :=
  ⟨h.config, h.channels, h.entries, h.agents, h.phases, h.pinmap, fun j hj => (hc j hj).elim,
    fun j hj => (by rw [show s.mix = some j from hj] at hm; cases hm), h.held, h.unseen, fun hsc => (by cases hsc),
    h.levels, h.noWildAccess⟩

/-- Under SC and under PerCell. -/
theorem witness_UninterruptedCommandIsExec : (playing tone1k).Inv ∧
    State.Inv { playing tone1k with cfg := { (playing tone1k).cfg with consistency := .perCell } } ∧
    (playing tone1k).fault = none ∧ 1 < (playing tone1k).cfg.nCtrl ∧ (playing tone1k).jobOf 1 = none ∧
    decodeCommand 0x5000000200000001 = .ok (.tone 2 1) :=
  ⟨playing_inv (by decide), playing_inv_perCell (playing_inv (by decide)) (fun j hj => by cases hj; contradiction) rfl, rfl,
    by decide, rfl, by decide⟩

/-- Under SC and under PerCell, whichever gates the environment picks. -/
theorem witness_UninterruptedBufferIsExec : (playing tone1k).Inv ∧
    State.Inv { playing tone1k with cfg := { (playing tone1k).cfg with consistency := .perCell } } ∧
    (playing tone1k).fault = none ∧ (playing tone1k).backend = .running ∧ (playing tone1k).mix = none ∧
    (List.replicate 11 Gate.freq).length = 5 * (playing tone1k).cfg.nCh + 1 :=
  ⟨playing_inv (by decide), witness_UninterruptedCommandIsExec.2.1, rfl, rfl, rfl, by decide⟩

/-- A buffer taken and not yet begun, with any list of moves: a step of MIX, and a control agent's command. -/
theorem mixing_inv (es : List Event) : State.Inv { playing tone1k with mix := some (.start 4), events := es } := by
  have h := playing_inv (ch := tone1k) (by decide)
  refine ⟨h.config, rfl, rfl, rfl, h.phases, h.pinmap, h.commands, ?_, h.held, h.unseen, h.inOrder, h.levels, h.noWildAccess⟩
  intro j hj
  cases hj
  exact ⟨Nat.zero_le _, Nat.zero_le _, rfl, fun p hp => (by cases hp), by decide⟩

theorem witness_BuffersEndInBoundedSteps :
    State.Inv { playing tone1k with mix := some (.start 4), events := [.mix .duty] } ∧
    State.Inv { playing tone1k with mix := some (.start 4), events := [.command 0 0x9000000200000000] } ∧
    (playing tone1k).fault = none ∧
    ∃ t, step { playing tone1k with mix := some (.start 4), events := [.command 0 0x9000000200000000] } = .next t :=
  ⟨mixing_inv _, mixing_inv _, rfl, _, rfl⟩

/-- A command taken and not yet begun, with any list of moves: a step of its agent, and another agent's command. -/
theorem commanded_inv (es : List Event) :
    State.Inv { playing tone1k with ctrls := [some (.start (.tone 2 1)), none], events := es } := by
  have h := playing_inv (ch := tone1k) (by decide)
  refine ⟨h.config, rfl, rfl, rfl, h.phases, h.pinmap, ?_, h.buffer, h.held, h.unseen, h.inOrder, h.levels, h.noWildAccess⟩
  intro j hj
  obtain rfl : j = .start (.tone 2 1) := by simpa using hj
  exact ⟨_, rest_start.trans rfl, commandProgram_staysIn (i := .tone 2 1) rfl, commandProgram_storesOwned (i := .tone 2 1) rfl⟩

theorem witness_CommandsEndInBoundedSteps :
    State.Inv { playing tone1k with ctrls := [some (.start (.tone 2 1)), none], events := [.ctrl 0] } ∧
    State.Inv { playing tone1k with ctrls := [some (.start (.tone 2 1)), none], events := [.issue 1 0x9000000200000000] } ∧
    State.jobOf { playing tone1k with ctrls := [some (.start (.tone 2 1)), none] } 0 = some (.start (.tone 2 1)) ∧
    (playing tone1k).fault = none ∧
    ∃ t, step { playing tone1k with
      ctrls := [some (.start (.tone 2 1)), none], events := [.issue 1 0x9000000200000000] } = .next t :=
  ⟨commanded_inv _, commanded_inv _, rfl, rfl, _, rfl⟩

end Sys2Proof.Tests
end

section
/-! O14: the configuration is fixed for the machine (00_scope.md R5, 10_state.md R32). What exec can answer, then that a
program run whole, each agent's single step and each move of the environment leaves the configuration as it was. -/

namespace Sys2Proof.Machine

open Sys2Proof

variable {s t : State}

/-- What exec answers as a next state: a command's program run for the agent State.cur, or an allowed buffer's for MIX. -/
theorem exec_cases {i : Instr} (h : exec i s = .next t) :
    (∃ p, commandProgram s.cfg i = some p ∧ t = s.runCommand p) ∨
    ∃ n, i = .bufreq n ∧ requestAllowed s = true ∧ t = (progBufreq s.cfg n).run (fun out u => u.deliver out) s := by
  cases hp : commandProgram s.cfg i with
  | some p =>
    rw [exec_command hp] at h
    exact .inl ⟨p, rfl, (Host.Outcome.next.inj h).symm⟩
  | none =>
    obtain ⟨n, rfl⟩ : ∃ n, i = .bufreq n := by
      cases i <;> simp [commandProgram] at hp ⊢
    by_cases hr : requestAllowed s = true
    · simp only [exec, execBufreq, hr, if_true] at h
      exact .inr ⟨n, rfl, hr, (Host.Outcome.next.inj h).symm⟩
    · simp [exec, execBufreq, hr] at h

/-- A program run whole keeps the configuration where what the agent does at its end keeps it. -/
theorem run_cfg {α : Type} {fin : α → State → State} (hfin : ∀ a u, (fin a u).cfg = u.cfg) (p : Prog α) (s : State) :
    (p.run fin s).cfg = s.cfg :=
  run_preserves (P := fun u => u.cfg = s.cfg)
    (fun _ _ _ _ h hst => (store_outside hst).1.trans h)
    (fun u h => u.answered_cfg.trans h)
    (fun _ _ h => h)
    (fun a u h => (hfin a u).trans h) p s rfl

theorem exec_cfg {i : Instr} (h : exec i s = .next t) : t.cfg = s.cfg := by
  rcases exec_cases h with ⟨p, -, rfl⟩ | ⟨n, -, -, rfl⟩
  · exact run_cfg (fun r u => u.reply_cfg s.cur r) p s
  · exact run_cfg (fun out u => u.deliver_cfg out) _ s

@[simp] theorem State.settled_cfg (a : Agent) : (s.settled a).cfg = s.cfg := (settled_outside s a).1

@[simp] theorem State.runFrames_cfg (j : MixJob) (f p : Nat) : (s.runFrames j f p).cfg = s.cfg := by
  unfold State.runFrames
  dsimp only
  split <;> rfl

theorem CtrlTicked.cfg_eq {k : Nat} (h : CtrlTicked k s t) : t.cfg = s.cfg := by
  cases h
  case store hs => exact (store_outside hs).1
  case draw => simp
  all_goals rfl

@[simp] theorem ctrlTick_cfg (k : Nat) : (ctrlTick k s).cfg = s.cfg := (ctrlTick_cases rfl).cfg_eq

theorem MixTicked.cfg_eq {g : Gate} (h : MixTicked g s t) : t.cfg = s.cfg := by
  cases h
  case store hs => exact (store_outside hs).1
  case frames => simp
  all_goals rfl

@[simp] theorem mixTick_cfg (g : Gate) : (mixTick g s).cfg = s.cfg := (mixTick_cases rfl).cfg_eq

@[simp] theorem drainTick_cfg (n : Nat) : (drainTick n s).cfg = s.cfg := by
  unfold drainTick
  split
  · exact (commit_outside s _).1
  · rfl

theorem movesTo_cfg {e : Event} (h : movesTo s t e) : t.cfg = s.cfg := by
  cases e with
  | command k w =>
    obtain ⟨-, -, ⟨i, -, hi⟩ | ⟨-, rfl⟩⟩ := h
    · simpa using exec_cfg hi
    · rfl
  | request n => simpa using exec_cfg h
  | issue k w => obtain ⟨-, -, ⟨i, -, rfl⟩ | ⟨-, rfl⟩⟩ := h <;> rfl
  | ask n => obtain ⟨-, rfl⟩ := h; rfl
  | ctrl k => subst h; exact ctrlTick_cfg k
  | drain n => subst h; exact drainTick_cfg n
  | see n => subst h; rfl
  | mix g => subst h; exact mixTick_cfg g

/-- Settles O14: a step is idle or one move of the environment, and each kind of move keeps the configuration. -/
theorem noStepChangesConfiguration : Obligations.NoStepChangesConfiguration := by
  unfold Obligations.NoStepChangesConfiguration
  intro s t h
  obtain ⟨-, ⟨-, rfl⟩ | ⟨e, es, -, hm⟩⟩ := step_cases h
  · rfl
  · exact (movesTo_cfg hm :)

end Sys2Proof.Machine
end

section
/-! O13: every step keeps the invariant. First what each update of the state owes the invariant, then the levels and phases
of a buffer, then each agent's single step, a whole operation, and the moves of the environment. -/

namespace Sys2Proof.Machine

open Sys2Proof

variable {s t : State} {cfg : Config}

/-! ### Updates of the state -/

/-- The invariant does not speak of the environment's moves nor of the current agent. -/
theorem State.Inv.withEnvironment (hi : s.Inv) (es : List Event) (k : Nat) :
    State.Inv { s with events := es, cur := k } := { hi with }

theorem State.Inv.putJob (hi : s.Inv) (k : Nat) {j : Option CtrlJob} (hj : ∀ i, j = some i → i.sound s.cfg) :
    (s.putJob k j).Inv :=
  { hi with
    agents := by simp [hi.agents]
    commands := fun i hm => (List.mem_or_eq_of_mem_set hm).elim (hi.commands i) fun e => hj i e.symm }

theorem State.Inv.withMix (hi : s.Inv) {m : Option MixJob} (hm : ∀ j, m = some j → j.sound s.cfg) :
    State.Inv { s with mix := m } := { hi with buffer := hm }

theorem State.Inv.withChans (hi : s.Inv) {chs : List Channel} (hl : chs.length = s.cfg.nCh)
    (hp : ∀ ch ∈ chs, ch.phase < s.cfg.modulus) : State.Inv { s with chans := chs } :=
  { hi with channels := hl, phases := hp }

/-- PhaseOverrange is a fault of the spec, not an access outside the machine. -/
theorem State.Inv.raiseOverrange (hi : s.Inv) (c i : Nat) : (s.raise (.phaseOverrange c i)).Inv :=
  { hi with noWildAccess := nofun }

/-- A buffer whose levels are at most N_CH in size may be delivered: each is its own word (42_mixing_engine.md R168). -/
theorem State.Inv.deliver (hi : s.Inv) {out : List Int} (ho : ∀ x ∈ out, x.natAbs ≤ s.cfg.nCh) : (s.deliver out).Inv :=
  { hi with
    levels := by
      intro b hb l hl
      rcases List.mem_append.mp hb with hb | hb
      · exact hi.levels b hb l hl
      · obtain rfl := List.mem_singleton.mp hb
        obtain ⟨x, hx, rfl⟩ := List.mem_map.mp hl
        have hn : s.cfg.nCh ≤ 16 := hi.config.1.2
        rw [levelWord_toInt ((ho x hx).trans hn)]
        exact ho x hx }

/-- Under PerCell an agent may hold one more store to a control agents' cell. -/
theorem State.Inv.hold (hi : s.Inv) (hc : s.cfg.consistency = .perCell) {h : Held} (hs : h.cell.sound s.cfg h.value) :
    State.Inv { s with held := s.held ++ [h] } :=
  { hi with
    held := fun g hg => (List.mem_append.mp hg).elim (hi.held g) fun e => List.mem_singleton.mp e ▸ hs
    inOrder := fun e => by cases hc.symm.trans e }

/-! ### Phases and levels of a buffer -/

theorem phaseAt_lt {m f n p : Nat} (h : inRangeFor m f n p) (hp : p < m) : phaseAt m f n p < m := by
  cases n with
  | zero => exact hp
  | succ k => exact h k (Nat.lt_succ_self k)

theorem squareWave_natAbs (m p : Nat) : (squareWave m p).natAbs = 1 := by unfold squareWave; split <;> rfl

/-- One more channel makes a level larger by one at most, whatever phases it goes through. -/
theorem natAbs_le_of_mem_mapIdx_squareWave {m b : Nat} {out : List Int} (phase : Nat → Nat)
    (ho : ∀ x ∈ out, x.natAbs ≤ b) :
    ∀ y ∈ out.mapIdx fun k x => x + squareWave m (phase k), y.natAbs ≤ b + 1 := by
  intro y hy
  obtain ⟨k, hk, rfl⟩ := List.mem_mapIdx.mp hy
  calc (out[k] + squareWave m (phase k)).natAbs
      ≤ (out[k]).natAbs + (squareWave m (phase k)).natAbs := Int.natAbs_add_le ..
    _ ≤ b + 1 := by rw [squareWave_natAbs]; exact Nat.add_le_add_right (ho _ (List.getElem_mem hk)) 1

theorem natAbs_le_of_mem_mixInto {m b : Nat} {out : List Int} {ch : Channel} (ho : ∀ x ∈ out, x.natAbs ≤ b) :
    ∀ y ∈ ch.mixInto m out, y.natAbs ≤ b + 1 := by
  unfold Channel.mixInto
  split
  · exact natAbs_le_of_mem_mapIdx_squareWave _ ho
  · exact fun y hy => Nat.le_succ_of_le (ho y hy)

/-- The levels of a buffer are at most as large as there are channels (42_mixing_engine.md R168). -/
theorem natAbs_le_of_mem_foldl_mixInto {m : Nat} {chs : List Channel} : ∀ {b : Nat} {out : List Int},
    (∀ x ∈ out, x.natAbs ≤ b) → ∀ y ∈ chs.foldl (fun o ch => ch.mixInto m o) out, y.natAbs ≤ b + chs.length := by
  induction chs with
  | nil => exact fun ho => ho
  | cons ch chs ih =>
    intro b out ho y hy
    rw [List.length_cons, Nat.add_comm chs.length, ← Nat.add_assoc]
    exact ih (natAbs_le_of_mem_mixInto ho) y hy

/-- A channel that can be mixed has its phase below M afterwards. -/
theorem mixed_phase_lt {m n : Nat} {ch : Channel} (hm : ch.mixable m n) (hp : ch.phase < m) : (ch.mixed m n).phase < m := by
  unfold Channel.mixed
  split
  · exact phaseAt_lt (hm ‹_›) hp
  · exact hp

/-! ### One step of a control agent -/

theorem CtrlJob.sound.of_rest {j : CtrlJob} {p : CmdProg} (hj : j.sound cfg) (hr : j.rest cfg = some p) :
    p.staysIn cfg ∧ p.storesOwned := by
  obtain ⟨q, hq, h⟩ := hj
  exact Option.some.inj (hr.symm.trans hq) ▸ h

/-- An agent that has just taken a command is as sound as every command's program. -/
theorem CtrlJob.start_sound {i : Instr} (hi : isCommand i = true) : (CtrlJob.start i).sound cfg := by
  obtain ⟨p, hp⟩ := Option.isSome_iff_exists.mp (commandProgram_isSome (cfg := cfg).trans hi)
  exact ⟨p, rest_start.trans hp, commandProgram_staysIn hp, commandProgram_storesOwned hp⟩

/-- One step of a control agent keeps the invariant: what is left of its program stays inside the machine, so the access
finds its cell, and stores a value the cell may hold. -/
theorem CtrlTicked.inv {k : Nat} (hi : s.Inv) (h : CtrlTicked k s t) : t.Inv := by
  have advance {j : CtrlJob} {p : CmdProg} {v : Nat} (hr : (j.advance v).rest s.cfg = some p)
      (h1 : p.staysIn s.cfg) (h2 : p.storesOwned) : ∀ i, some (j.advance v) = some i → i.sound s.cfg := by
    rintro _ ⟨⟩; exact ⟨p, hr, h1, h2⟩
  cases h with
  | idle | stuck => exact hi
  | respond j r hj hr => exact (hi.putJob k (by simp)).reply k r
  | load j x f v hj hr hl =>
    obtain ⟨⟨hx, hk⟩, ho⟩ := (hi.job hj).of_rest hr
    obtain ⟨w, hw, hm⟩ := hi.loadFor (k := k) hx
    obtain rfl := Option.some.inj (hl.symm.trans hw)
    exact hi.putJob k (advance (rest_ld hr) (hk v hm) (ho v))
  | loadNone j x f hj hr hl =>
    obtain ⟨⟨hx, -⟩, -⟩ := (hi.job hj).of_rest hr
    obtain ⟨w, hw, -⟩ := hi.loadFor (k := k) hx
    cases hl.symm.trans hw
  | store j x v p u hj hr hc hs =>
    obtain ⟨⟨-, hm, hk⟩, -, ho⟩ := (hi.job hj).of_rest hr
    refine (hi.store hm hs).putJob k ?_
    rw [(store_outside hs).1]
    exact advance (rest_st hr) hk ho
  | storeNone j x v p hj hr hc hs =>
    obtain ⟨⟨hx, -⟩, -⟩ := (hi.job hj).of_rest hr
    obtain ⟨u, hu⟩ := hi.store_some (v := v) hx
    cases hs.symm.trans hu
  | hold j x v p hj hr hc =>
    obtain ⟨⟨hx, hm, hk⟩, hown, ho⟩ := (hi.job hj).of_rest hr
    exact (hi.putJob k (advance (rest_st hr) hk ho)).hold (h := ⟨k, x, x.kept v⟩) hc ⟨hx, mayHold_kept hm, hown⟩
  | draw j f hj hr =>
    obtain ⟨hk, ho⟩ := (hi.job hj).of_rest hr
    refine hi.answered.putJob k ?_
    rw [State.answered_cfg]
    exact advance (rest_draw hr) (hk _) (ho _)
  | raise j f hj hr => exact ((hi.job hj).of_rest hr).2.elim

/-! ### One step of MIX -/

theorem MixJob.start_sound (n : Nat) : (MixJob.start n).sound cfg :=
  ⟨Nat.zero_le _, Nat.zero_le _, List.length_replicate, nofun, fun x hx => by simp [List.eq_of_mem_replicate hx]⟩

/-- MIX goes on to the next channel from a sound buffer. -/
theorem MixJob.sound.nextChannel {j : MixJob} (hj : j.sound cfg) (hc : j.c < cfg.nCh) : j.nextChannel.sound cfg := by
  obtain ⟨-, -, hl, -, ho⟩ := hj
  refine ⟨hc, Nat.zero_le _, hl, nofun, fun x hx => (ho x hx).trans ?_⟩
  split <;> simp [MixJob.nextChannel]

theorem MixJob.sound.latch {j : MixJob} (hj : j.sound cfg) (hc : j.c < cfg.nCh) (g : Gate) (v : Nat) :
    (j.latch g v).sound cfg := by
  unfold MixJob.latch
  split
  · exact hj.nextChannel hc
  · cases g <;> exact hj

/-- The cell of a gate load exists, for a channel that does. -/
theorem gateCell_inRange {c : Nat} (hc : c < cfg.nCh) (g : Gate) : (gateCell c g).inRange cfg := by cases g <;> exact hc

/-- The frames of a channel end with a sound buffer, or with PhaseOverrange. -/
theorem State.Inv.runFrames (hi : s.Inv) {j : MixJob} {f p : Nat} (hj : j.sound s.cfg) (hc : j.c < s.cfg.nCh)
    (hjp : j.p = none) (hp : p < s.cfg.modulus) : (s.runFrames j f p).Inv := by
  obtain ⟨hcn, -, hl, -, ho⟩ := hj
  unfold State.runFrames
  rcases inRangeFor_or s.cfg.modulus f j.out.length p with h | ⟨k, hk, hr, hover⟩
  · rw [mixFrames_of h]
    refine hi.withMix ?_
    rintro _ ⟨⟩
    refine ⟨hcn, by simp [hl], by simp [hl], ?_, ?_⟩
    · rintro _ ⟨⟩; exact ⟨phaseAt_lt h hp, hc⟩
    · exact natAbs_le_of_mem_mapIdx_squareWave _ fun x hx => by simpa [hjp] using ho x hx
  · dsimp only
    rw [if_pos (mixFrames_over hk hr hover).1]
    exact (hi.withMix (by simp)).raiseOverrange _ _

/-- One step of MIX keeps the invariant. -/
theorem MixTicked.inv {g : Gate} (hi : s.Inv) (h : MixTicked g s t) : t.Inv := by
  cases h with
  | idle => exact hi
  | deliver j hm hc =>
    obtain ⟨hcn, -, -, hp, ho⟩ := hi.buffer j hm
    have hnone : j.p = none := Option.eq_none_iff_forall_ne_some.mpr fun p e => absurd (hp p e).2 (Nat.not_lt.mpr hc)
    exact (hi.withMix (by simp)).deliver fun x hx => (ho x hx).trans (by simpa [hnone] using hcn)
  | store j p u hm hc hp hs =>
    obtain ⟨-, -, -, hphase, -⟩ := hi.buffer j hm
    refine (hi.store (x := .phase j.c) (hphase p hp).1 hs).withMix ?_
    rintro _ ⟨⟩
    rw [(store_outside hs).1]
    exact (hi.buffer j hm).nextChannel hc
  | storeNone j p hm hc hp hs =>
    obtain ⟨u, hu⟩ := hi.store_some (x := .phase j.c) (v := p) hc
    cases hs.symm.trans hu
  | gate j g v hm hc hp hg hl =>
    refine hi.withMix ?_
    rintro _ ⟨⟩
    exact (hi.buffer j hm).latch hc g v
  | gateNone j g hm hc hp hg hl =>
    obtain ⟨w, hw, -⟩ := hi.view (a := .mix) (gateCell_inRange hc g)
    cases hl.symm.trans hw
  | frames j p hm hc hp hg hl =>
    obtain ⟨w, hw, hlt⟩ := hi.load (x := .phase j.c) hc
    obtain rfl := Option.some.inj (hl.symm.trans hw)
    exact hi.runFrames (hi.buffer j hm) hc hp hlt
  | framesNone j hm hc hp hg hl =>
    obtain ⟨w, hw, -⟩ := hi.load (x := .phase j.c) hc
    cases hl.symm.trans hw

/-! ### Whole operations and moves -/

/-- A whole buffer keeps the invariant, delivered or ended by PhaseOverrange. -/
theorem State.Inv.bufreq (hi : s.Inv) {n : Nat} (hr : requestAllowed s = true) (h : exec (.bufreq n) s = .next t) :
    t.Inv := by
  rcases exec_bufreq_cases hi.channels hr n with ⟨hm, he⟩ | ⟨mid, bad, post, j, hs, hm, -, -, -, -, he⟩ <;>
    obtain rfl := Host.Outcome.next.inj (he.symm.trans h)
  · refine (hi.withChans (by simp [hi.channels]) ?_).deliver fun x hx => ?_
    · simp only [List.mem_map]
      rintro _ ⟨ch, hch, rfl⟩
      exact mixed_phase_lt (hm ch hch) (hi.phases ch hch)
    · have := natAbs_le_of_mem_foldl_mixInto (b := 0) (fun y hy => by simp [List.eq_of_mem_replicate hy]) x hx
      rwa [Nat.zero_add, hi.channels] at this
  · have hp := hi.phases
    have hl := hi.channels
    rw [hs] at hp hl
    refine (hi.withChans (by simpa using hl) fun ch hch => ?_).raiseOverrange _ _
    rcases List.mem_append.mp hch with hch | hch
    · obtain ⟨d, hd, rfl⟩ := List.mem_map.mp hch
      exact mixed_phase_lt (hm d hd) (hp d (List.mem_append_left _ hd))
    · exact hp ch (List.mem_append_right _ hch)

/-- An operation taken whole keeps the invariant. -/
theorem State.Inv.exec (hi : s.Inv) {i : Instr} (h : exec i s = .next t) : t.Inv := by
  rcases exec_cases h with ⟨p, hp, rfl⟩ | ⟨n, rfl, hr, -⟩
  · exact hi.run (fun r u hu => hu.reply s.cur r) (commandProgram_staysIn hp)
  · exact hi.bufreq hr h

/-- Every move of the environment keeps the invariant. -/
theorem State.Inv.movesTo (hi : s.Inv) {e : Event} (h : movesTo s t e) : t.Inv := by
  cases e with
  | command k w =>
    obtain ⟨-, -, ⟨i, -, he⟩ | ⟨-, rfl⟩⟩ := h
    · exact ((hi.withEnvironment s.events k).settled _).1.exec he
    · exact (hi.withEnvironment s.events k).reply _ _
  | request n => exact (hi.settled _).1.exec h
  | issue k w =>
    obtain ⟨-, -, ⟨i, hd, rfl⟩ | ⟨-, rfl⟩⟩ := h
    · refine (hi.withEnvironment s.events k).putJob k ?_
      rintro _ ⟨⟩
      exact CtrlJob.start_sound (decode_isCommand hd)
    · exact (hi.withEnvironment s.events k).reply _ _
  | ask n =>
    obtain ⟨-, rfl⟩ := h
    refine hi.withMix ?_
    rintro _ ⟨⟩
    exact MixJob.start_sound _
  | ctrl k => subst h; exact (ctrlTick_cases rfl).inv (hi.withEnvironment s.events k)
  | drain n => subst h; exact (hi.drainTick n).1
  | see n => subst h; exact hi.seeTick n
  | mix g => subst h; exact (mixTick_cases rfl).inv hi

/-- Settles O13: a step is idle or one move of the environment, and each kind of move keeps the invariant. -/
theorem everyStepKeepsInvariant : Obligations.EveryStepKeepsInvariant := by
  unfold Obligations.EveryStepKeepsInvariant
  intro s t hi h
  obtain ⟨-, ⟨-, rfl⟩ | ⟨e, es, -, hm⟩⟩ := step_cases h
  · exact hi
  · exact (hi.withEnvironment es s.cur).movesTo hm

end Sys2Proof.Machine
end

section
/-! What a program's stores can do: a program that stores to certain cells alone keeps what such stores keep. Then the
inversions of exec, one for each kind of command: what is answered before any channel is touched, and the stores made
otherwise. -/

namespace Sys2Proof.Machine

open Sys2Proof

variable {α : Type} {s t u : State} {S : Cell → Nat → Prop} {x y : Cell}

/-! ### The stores of a program -/

/-- Whatever its loads and draws return, every store of the program, of a value v to a cell x, is one of S. -/
def Prog.storesOnly (S : Cell → Nat → Prop) : Prog α → Prop
  | .done _ => True
  | .ld _ k => ∀ v, (k v).storesOnly S
  | .st x v k => S x v ∧ k.storesOnly S
  | .draw k => ∀ b, (k b).storesOnly S
  | .raise _ => True

/-- What the stores of S, a draw, a recorded fault and the end keep, a program with no other stores keeps. -/
theorem run_preserves_of_storesOnly {P : State → Prop} {fin : α → State → State}
    (hst : ∀ s x v t, S x v → P s → s.store x v = some t → P t) (hdraw : ∀ s, P s → P s.answered)
    (hraise : ∀ s f, P s → P (s.raise f)) (hfin : ∀ a s, P s → P (fin a s)) :
    ∀ (p : Prog α) (s : State), p.storesOnly S → P s → P (p.run fin s) := by
  intro p
  induction p with
  | done a => exact fun s _ h => hfin a s h
  | ld x k ih =>
    intro s hp h
    cases hl : s.load x with
    | some v => rw [run_ld hl]; exact ih v s (hp v) h
    | none => rw [run_ld_none hl]; exact hraise s _ h
  | st x v k ih =>
    intro s hp h
    cases hs : s.store x v with
    | some t => rw [run_st hs]; exact ih t hp.2 (hst s x v t hp.1 h hs)
    | none => rw [run_st_none hs]; exact hraise s _ h
  | draw k ih => exact fun s hp h => ih _ _ (hp _) (hdraw s h)
  | raise f => exact fun s _ h => hraise s f h

/-- A program leaves every cell alone that it does not store to. -/
theorem load_run_of_storesOnly {fin : α → State → State} (hfin : ∀ a u, (fin a u).load y = u.load y)
    (hy : ∀ x v, S x v → x ≠ y) {p : Prog α} (hp : p.storesOnly S) : (p.run fin s).load y = s.load y :=
  run_preserves_of_storesOnly (P := fun u => u.load y = s.load y)
    (fun _ _ _ _ hS h hs => (load_store_ne hs (hy _ _ hS).symm).trans h)
    (fun _ h => load_answered.trans h) (fun _ _ h => load_raise.trans h) (fun a u h => (hfin a u).trans h) p s hp rfl

/-- A command leaves every cell alone that it does not store to. -/
theorem load_runCommand_of_storesOnly {p : CmdProg} (hp : p.storesOnly S) (hy : ∀ x v, S x v → x ≠ y) (k : Nat) :
    (p.run (fun r u => u.reply k r) s).load y = s.load y :=
  load_run_of_storesOnly (fun _ _ => load_reply) hy hp

theorem storesOnly_of_storesOwned {p : Prog α} (h : p.storesOwned) :
    p.storesOnly fun x _ => x.controlOwned = true := by
  induction p with
  | done | raise => trivial
  | ld x k ih => exact fun v => ih v (h v)
  | st x v k ih => exact ⟨h.1, ih h.2⟩
  | draw k ih => exact fun b => ih b (h b)

theorem activateWhen_storesOnly {k : CmdProg} {z : Bool} (hb : ∀ v, S .backend v) (hk : k.storesOnly S) :
    (activateWhen z k).storesOnly S := by
  cases z
  · exact hk
  intro v
  dsimp only
  split
  · intro b
    dsimp only
    split
    exacts [⟨hb _, hk⟩, ⟨hb _, trivial⟩]
  split
  exacts [trivial, hk]

/-- MIX stores to phases alone (10_state.md R33). -/
theorem mixChannels_storesOnly {m : Nat} : ∀ (left c : Nat) (out : List Int),
    (mixChannels m left c out).storesOnly fun x _ => x.controlOwned = false := by
  intro left
  induction left with
  | zero => exact fun _ _ => trivial
  | succ n ih =>
    have skipOr {c : Nat} {out : List Int} {a : Nat} {p : Prog (List Int)}
        (hp : p.storesOnly fun x _ => x.controlOwned = false) :
        (if a = 0 then mixChannels m n (c + 1) out else p).storesOnly fun x _ => x.controlOwned = false := by
      split
      exacts [ih _ _, hp]
    refine fun c out a => skipOr fun d => skipOr fun f => skipOr fun p => ?_
    dsimp only
    split
    exacts [trivial, ⟨rfl, ih _ _⟩]

/-- A command touches nothing but the cells, the responses and the draws (20_memory.md R50). -/
theorem runCommand_sameOutside (s : State) (p : CmdProg) : s.sameOutside (s.runCommand p) := by
  refine run_preserves (fin := fun r u => u.reply s.cur r) ?_ ?_ (fun _ _ h => h) (fun _ _ h => h) p s ?_
  · rintro u x v t ⟨h1, h2, h3, h4, h5, h6, h7, h8⟩ hs
    obtain ⟨e1, e2, e3, -, e4, -, e5, e6, -, -, e7, e8⟩ := store_outside hs
    exact ⟨e1.trans h1, e2.trans h2, e3.trans h3, e4.trans h4, e5.trans h5, e6.trans h6, e7.trans h7, e8.trans h8⟩
  · intro u h
    simpa [State.sameOutside] using h
  · exact ⟨rfl, rfl, rfl, rfl, rfl, rfl, rfl, rfl⟩

theorem exec_command_sameOutside {i : Instr} (hi : isCommand i = true) (h : exec i s = .next t) : s.sameOutside t := by
  rcases exec_cases h with ⟨p, -, rfl⟩ | ⟨n, rfl, -⟩
  · exact runCommand_sameOutside s p
  · cases hi

/-! ### ATTACH and ATTACHCH -/

/-- The scan answers that the pool is full, meets a channel that does not exist, or goes on with the lowest Free one
(40_attach_detach.md R111). -/
theorem run_scanFree_cases {fin : Reply → State → State} {found : Nat → CmdProg} {full : CmdProg} :
    ∀ (left c : Nat), (∀ j < c, ∃ ch, s.chans[j]? = some ch ∧ ch.attached = true) →
      (scanFree found full left c).run fin s = full.run fin s ∨
      (∃ f, (scanFree found full left c).run fin s = s.raise f) ∨
      (scanFree found full left c).run fin s = (found s.lowestFree).run fin s := by
  intro left
  induction left with
  | zero => exact fun _ _ => .inl rfl
  | succ n ih =>
    intro c hlow
    rw [scanFree]
    cases hc : s.chans[c]? with
    | none => exact .inr (.inl ⟨_, run_ld_none (by simp [State.load, hc])⟩)
    | some ch =>
      rw [run_ld (load_attached hc)]
      cases ha : ch.attached with
      | true =>
        refine ih (c + 1) fun j hj => ?_
        rcases Nat.lt_succ_iff_lt_or_eq.mp hj with hj | rfl
        exacts [hlow j hj, ⟨ch, hc, ha⟩]
      | false =>
        have hfree : s.lowestFree = c := by
          obtain ⟨hlt, hget⟩ := List.getElem?_eq_some_iff.mp hc
          refine (List.findIdx_eq hlt).mpr ⟨by simp [hget, ha], fun j hj => ?_⟩
          obtain ⟨d, hd, hda⟩ := hlow j hj
          simp [(List.getElem?_eq_some_iff.mp hd).2, hda]
        exact .inr (.inr (by rw [hfree]; rfl))

/-- The stores by which the instruction takes a channel in s: ATTACH the lowest Free one, ATTACHCH the one it names. -/
def State.attachStoresOf (s : State) : Instr → Option CmdProg
  | .attach pin freq res => some (attachStores pin freq res s.lowestFree)
  | .attachch pin freq res ch => some (attachStores pin freq res ch)
  | _ => none

/-- What `gate_attach` makes of BACKEND where the command goes on (43_backend_stream.md R181). -/
def State.gateAttached (s u : State) : Prop :=
  u = s ∨ s.backend = .uninit ∧ s.answer = true ∧ u = s.answered.putBackend .ready

/-- How a command can end from u: by a response or a fault and nothing else changed, or by running q. -/
def State.endsBy (u : State) (k : Nat) (q : CmdProg) (t : State) : Prop :=
  (∃ r, t = u.reply k r) ∨ (∃ f, t = u.raise f) ∨ t = q.run (fun r v => v.reply k r) u

/-- Everything `gate_attach` and the command behind it can do. -/
theorem run_gateAttach_cases {fin : Reply → State → State} (p : CmdProg) :
    (s.backend = .uninit ∧ s.answer = false ∧
      (gateAttach p).run fin s = fin (.fail .deviceUnavailable) (s.answered.putBackend .failed)) ∨
    ∃ u, s.gateAttached u ∧
      ((gateAttach p).run fin s = fin (.fail .deviceUnavailable) u ∨ (gateAttach p).run fin s = p.run fin u) := by
  rw [run_gateAttach]
  by_cases hf : s.backend = .failed
  · exact .inr ⟨s, .inl rfl, .inl (if_pos hf)⟩
  rw [if_neg hf]
  by_cases hu : s.backend = .uninit
  · rw [if_pos hu]
    cases ha : s.answer with
    | false => exact .inl ⟨hu, rfl, rfl⟩
    | true => exact .inr ⟨_, .inr ⟨hu, ha, rfl⟩, .inr rfl⟩
  · exact .inr ⟨s, .inl rfl, .inr (if_neg hu)⟩

theorem State.gateAttached.chans_eq (h : s.gateAttached u) : u.chans = s.chans := by
  rcases h with rfl | ⟨-, -, rfl⟩ <;> simp

/-- Everything ATTACH and ATTACHCH can do (40_attach_detach.md R110, R115). -/
theorem exec_attach_cases {i : Instr} {q : CmdProg} (hq : s.attachStoresOf i = some q) (h : exec i s = .next t) :
    (s.backend = .uninit ∧ s.answer = false ∧
      t = (s.answered.putBackend .failed).reply s.cur (.fail .deviceUnavailable)) ∨
    ∃ u, s.gateAttached u ∧ u.endsBy s.cur q t := by
  cases i <;> simp only [State.attachStoresOf, Option.some.injEq, reduceCtorEq] at hq <;> subst hq <;>
    obtain rfl := Host.Outcome.next.inj h
  case attach pin freq res =>
    refine (run_gateAttach_cases _).imp_right fun ⟨u, hu, he⟩ => ⟨u, hu, ?_⟩
    rcases he with he | he
    · exact .inl ⟨_, he⟩
    rw [run_ite] at he
    by_cases hp : s.cfg.nPin ≤ pin
    · exact .inl ⟨_, he.trans (if_pos hp)⟩
    replace he := he.trans (if_neg hp)
    have hfree : u.lowestFree = s.lowestFree := by rw [State.lowestFree, hu.chans_eq]; rfl
    rcases run_scanFree_cases (s := u) (fin := fun r v => v.reply s.cur r) (found := attachStores pin freq res)
      (full := .done (.fail .resourceExhausted)) s.cfg.nCh 0 (by simp) with e | ⟨f, e⟩ | e
    · exact .inl ⟨_, he.trans e⟩
    · exact .inr (.inl ⟨f, he.trans e⟩)
    · exact .inr (.inr (he.trans (hfree ▸ e)))
  case attachch pin freq res ch =>
    refine (run_gateAttach_cases _).imp_right fun ⟨u, hu, he⟩ => ⟨u, hu, ?_⟩
    rcases he with he | he
    · exact .inl ⟨_, he⟩
    rw [run_ite, run_ite] at he
    by_cases hp : s.cfg.nPin ≤ pin
    · exact .inl ⟨_, he.trans (if_pos hp)⟩
    by_cases hc : s.cfg.nCh ≤ ch
    · exact .inl ⟨_, he.trans ((if_neg hp).trans (if_pos hc))⟩
    · exact .inr (.inr (he.trans ((if_neg hp).trans (if_neg hc))))

/-! ### DETACH -/

/-- The stores of DETACH (40_attach_detach.md R118). -/
def detachStores (pin m : Nat) : CmdProg :=
  .st (.duty m) 0 <| .st (.attached m) 0 <| .st (.pinmap pin) unassigned.toNat <| .done (.detached .none)

/-- Everything DETACH can do (40_attach_detach.md R118). -/
theorem exec_detach_cases {pin : Nat} (h : exec (.detach pin) s = .next t) :
    s.endsBy s.cur (detachStores pin (s.entry pin)) t := by
  obtain rfl := Host.Outcome.next.inj h
  show s.endsBy _ _ ((progDetach s.cfg pin).run _ s)
  rw [progDetach, run_ld load_backend, run_ite, run_ite]
  by_cases hb : s.backend.code = Backend.failed.code
  · exact .inl ⟨_, if_pos hb⟩
  rw [if_neg hb]
  by_cases hp : s.cfg.nPin ≤ pin
  · exact .inl ⟨_, if_pos hp⟩
  rw [if_neg hp]
  by_cases hl : pin < s.pins.length
  · rw [run_ld (load_pinmap hl), run_ite]
    by_cases hu : s.entry pin = unassigned.toNat
    · exact .inl ⟨_, if_pos hu⟩
    · exact .inr (.inr (if_neg hu))
  · exact .inr (.inl ⟨_, run_ld_none (by simp [State.load, Nat.not_lt.mp hl])⟩)

/-! ### The commands on an attached channel -/

/-- The stores of TONE and NOTE (41_mutators.md R136). -/
def toneStores (freq : Freq) (c : Nat) : CmdProg :=
  .st (.freq c) freq.toNat <|
  if freq != 0 then .ld (.resmax c) fun r => .st (.duty c) (halfDuty r) <| activate <| .done (.ok freq)
  else .st (.duty c) 0 <| .done (.ok freq)

/-- The stores of CHFREQ (41_mutators.md R144). -/
def chfreqStores (freq : Freq) (res c : Nat) : CmdProg :=
  .st (.freq c) freq.toNat <| .st (.resmax c) (resmaxOf res) <| activateWhen (freq != 0) <| .done (.ok freq)

/-- The channel a mutator or a reader names in s, and what it does to that channel once it has found it Attached. -/
def State.channelWork (s : State) : Instr → Option (Nat × CmdProg)
  | .write pin duty => some (s.entry pin, storeDuty (s.entry pin) duty)
  | .writech ch duty => some (ch, storeDuty ch duty)
  | .tone pin freq => some (s.entry pin, toneStores freq (s.entry pin))
  | .note pin nt oct => some (s.entry pin, toneStores (noteFreq s.cfg nt oct) (s.entry pin))
  | .read pin => some (s.entry pin, .ld (.duty (s.entry pin)) fun d => .done (.ok (BitVec.ofNat 32 d)))
  | .readf pin => some (s.entry pin, .ld (.freq (s.entry pin)) fun f => .done (.ok (BitVec.ofNat 32 f)))
  | .chfreq pin freq res => some (s.entry pin, chfreqStores freq res (s.entry pin))
  | _ => none

/-- Channel c exists and is Attached. -/
def State.attachedAt (s : State) (c : Nat) : Prop := ∃ ch, s.chans[c]? = some ch ∧ ch.attached = true

/-- How a mutator or a reader can end: as `endsBy` says, q being run only where channel c is Attached. -/
def State.worksOn (s : State) (c : Nat) (q : CmdProg) (t : State) : Prop :=
  (∃ r, t = s.reply s.cur r) ∨ (∃ f, t = s.raise f) ∨ s.attachedAt c ∧ t = q.run (fun r v => v.reply s.cur r) s

theorem State.worksOn.endsBy {c : Nat} {q : CmdProg} (h : s.worksOn c q t) : s.endsBy s.cur q t :=
  h.imp_right fun h => h.imp_right And.right

/-- A command behind `gate` is answered there, with nothing changed, or goes on (43_backend_stream.md R180). -/
theorem runCommand_gate_cases (p : CmdProg) :
    (∃ r, s.runCommand (gate p) = s.reply s.cur r) ∨ s.runCommand (gate p) = s.runCommand p := by
  unfold State.runCommand
  rw [run_gate]
  split
  exacts [.inl ⟨_, rfl⟩, .inr rfl]

theorem worksOn_gate {c : Nat} {p q : CmdProg} (h : s.worksOn c q (s.runCommand p)) :
    s.worksOn c q (s.runCommand (gate p)) := by
  rcases runCommand_gate_cases p with hr | he
  exacts [.inl hr, he ▸ h]

theorem worksOn_resolve {pin : Nat} (k : Nat → CmdProg) :
    s.worksOn (s.entry pin) (k (s.entry pin)) (s.runCommand (resolve s.cfg pin k)) := by
  rcases run_resolve_cases (s := s) (fin := fun r v => v.reply s.cur r) k pin with
    ⟨-, e⟩ | ⟨-, -, e⟩ | ⟨-, -, -, e⟩ | ⟨-, -, -, -, e⟩ | ⟨ch, -, -, -, -, -, e⟩ | ⟨ch, hr, e⟩
  · exact .inl ⟨_, e⟩
  · exact .inr (.inl ⟨_, e⟩)
  · exact .inl ⟨_, e⟩
  · exact .inr (.inl ⟨_, e⟩)
  · exact .inl ⟨_, e⟩
  · obtain ⟨-, -, -, -, hc, ha⟩ := hr
    exact .inr (.inr ⟨⟨ch, hc, ha⟩, e⟩)

/-- A NOTE that rejects its note answers and changes nothing (41_mutators.md R138). -/
theorem exec_note_rejected {pin nt oct : Nat} (hn : noteInvalid s.cfg nt oct = true)
    (h : exec (.note pin nt oct) s = .next t) : ∃ r, t = s.reply s.cur r := by
  obtain rfl := Host.Outcome.next.inj h
  rcases runCommand_gate_cases (s := s) (if noteInvalid s.cfg nt oct then .done (.fail .invalidNote)
    else toneBody s.cfg pin (noteFreq s.cfg nt oct)) with hr | he
  · exact hr
  · exact ⟨_, he.trans (by rw [if_pos hn]; rfl)⟩

/-- Everything the mutators and readers can do (41_mutators.md R130 to R144). -/
theorem exec_channelWork_cases {i : Instr} {c : Nat} {q : CmdProg} (hw : s.channelWork i = some (c, q))
    (h : exec i s = .next t) : s.worksOn c q t := by
  cases i <;> simp only [State.channelWork, Option.some.injEq, reduceCtorEq, Prod.mk.injEq] at hw <;>
    obtain ⟨rfl, rfl⟩ := hw
  case writech ch duty =>
    obtain rfl := Host.Outcome.next.inj h
    refine worksOn_gate ?_
    unfold State.runCommand
    rw [run_ite]
    by_cases hn : s.cfg.nCh ≤ ch
    · exact .inl ⟨_, if_pos hn⟩
    rw [if_neg hn]
    cases hc : s.chans[ch]? with
    | none => exact .inr (.inl ⟨_, run_ld_none (by simp [State.load, hc])⟩)
    | some d =>
      rw [run_ld (load_attached hc), run_ite]
      cases ha : d.attached with
      | false => exact .inl ⟨_, if_pos rfl⟩
      | true => exact .inr (.inr ⟨⟨d, hc, ha⟩, if_neg (by decide)⟩)
  case note pin nt oct =>
    by_cases hn : noteInvalid s.cfg nt oct = true
    · exact .inl (exec_note_rejected hn h)
    · obtain rfl := Host.Outcome.next.inj h
      exact worksOn_gate (by rw [if_neg hn]; exact worksOn_resolve _)
  all_goals
    obtain rfl := Host.Outcome.next.inj h
    exact worksOn_gate (worksOn_resolve _)

end Sys2Proof.Machine
end

section
/-! O22, O23: the frames of the commands that store to cells. Each stores to the cells of its column alone, and BACKEND is
the only cell it touches before those. -/

namespace Sys2Proof.Machine

open Sys2Proof

variable {s t u : State} {y : Cell} {i : Instr}

theorem load_putBackend_ne {b : Backend} (hy : y ≠ .backend) : (s.putBackend b).load y = s.load y := by
  cases y
  case backend => exact absurd rfl hy
  all_goals rfl

/-- A command that ends by stores to the cells of L leaves every other cell alone. -/
theorem State.endsBy.load_eq {k : Nat} {q : CmdProg} {L : List Cell} (h : u.endsBy k q t)
    (hq : q.storesOnly fun z _ => z ∈ L) (hy : y ∉ L) : t.load y = u.load y := by
  rcases h with ⟨r, rfl⟩ | ⟨f, rfl⟩ | rfl
  · exact load_reply
  · exact load_raise
  · exact load_runCommand_of_storesOnly hq (fun _ _ hz => ne_of_mem_of_not_mem hz hy) k

theorem State.gateAttached.load_eq (h : s.gateAttached u) (hy : y ≠ .backend) : u.load y = s.load y := by
  rcases h with rfl | ⟨-, -, rfl⟩
  · rfl
  · rw [load_putBackend_ne hy, load_answered]

theorem attachStoresOf_storesOnly {q : CmdProg} (hq : s.attachStoresOf i = some q) :
    q.storesOnly fun z _ => z ∈ cellsWritten s i := by
  cases i <;> simp only [State.attachStoresOf, Option.some.injEq, reduceCtorEq] at hq <;> subst hq <;>
    simp [attachStores, Prog.storesOnly, cellsWritten]

theorem detachStores_storesOnly (s : State) (pin : Nat) :
    (detachStores pin (s.entry pin)).storesOnly fun z _ => z ∈ cellsWritten s (.detach pin) := by
  simp [detachStores, Prog.storesOnly, cellsWritten]

theorem toneStores_storesOnly {S : Cell → Nat → Prop} {freq : Freq} {c : Nat} (hb : ∀ v, S .backend v)
    (hf : ∀ v, S (.freq c) v) (hd : ∀ v, S (.duty c) v) : (toneStores freq c).storesOnly S := by
  refine ⟨hf _, ?_⟩
  split
  · exact fun r => ⟨hd _, activateWhen_storesOnly (z := true) hb trivial⟩
  · exact ⟨hd _, trivial⟩

/-- The mutators store to the cells of their columns alone, the readers to none (10_state.md R37). -/
theorem channelWork_storesOnly {c : Nat} {q : CmdProg} (hw : s.channelWork i = some (c, q)) :
    q.storesOnly fun z _ => z ∈ cellsWritten s i := by
  cases i <;> simp only [State.channelWork, Option.some.injEq, reduceCtorEq, Prod.mk.injEq] at hw <;>
    obtain ⟨rfl, rfl⟩ := hw
  case write | writech =>
    exact ⟨by simp [cellsWritten], activateWhen_storesOnly (by simp [cellsWritten]) trivial⟩
  case tone | note =>
    exact toneStores_storesOnly (by simp [cellsWritten]) (by simp [cellsWritten]) (by simp [cellsWritten])
  case read | readf => exact fun _ => trivial
  case chfreq =>
    exact ⟨by simp [cellsWritten], by simp [cellsWritten], activateWhen_storesOnly (by simp [cellsWritten]) trivial⟩

/-- A command that takes a channel leaves every cell alone but BACKEND and those of its stores. -/
theorem exec_attach_load {q : CmdProg} (hq : s.attachStoresOf i = some q) (h : exec i s = .next t)
    (hb : y ≠ .backend) (hy : y ∉ cellsWritten s i) : t.load y = s.load y := by
  rcases exec_attach_cases hq h with ⟨-, -, rfl⟩ | ⟨u, hu, he⟩
  · rw [load_reply, load_putBackend_ne hb, load_answered]
  · exact (he.load_eq (attachStoresOf_storesOnly hq) hy).trans (hu.load_eq hb)

/-- Settles O22: ATTACH and ATTACHCH touch BACKEND in their gate, and all three make the stores of their columns. -/
theorem attachFamilyFrame : Obligations.AttachFamilyFrame := by
  unfold Obligations.AttachFamilyFrame
  intro s t i pin res ch freq hi h
  refine ⟨exec_command_sameOutside (by rcases hi with rfl | rfl | rfl <;> rfl) h, fun x hx => ?_⟩
  rcases hi with rfl | rfl | rfl
  · exact exec_attach_load rfl h (by rintro rfl; simp [cellsWritten] at hx) hx
  · exact exec_attach_load rfl h (by rintro rfl; simp [cellsWritten] at hx) hx
  · exact (exec_detach_cases h).load_eq (detachStores_storesOnly s pin) hx

/-- Settles O23: a mutator ends before it touches a cell, or makes the stores of its column. -/
theorem mutatorsFrame : Obligations.MutatorsFrame := by
  unfold Obligations.MutatorsFrame
  intro s t i pin res ch nt oct freq duty hi h
  refine ⟨exec_command_sameOutside (by rcases hi with rfl | rfl | rfl | rfl | rfl <;> rfl) h, fun x hx => ?_⟩
  obtain ⟨c, q, hw⟩ : ∃ c q, s.channelWork i = some (c, q) := by
    rcases hi with rfl | rfl | rfl | rfl | rfl <;> exact ⟨_, _, rfl⟩
  exact (exec_channelWork_cases hw h).endsBy.load_eq (channelWork_storesOnly hw) hx

end Sys2Proof.Machine
end

section
/-! O18: BACKEND in operations taken whole. A command that takes a channel moves BACKEND in its gate alone, one that works on
a channel in its last `activate` alone, and every other operation stores to other cells. -/

namespace Sys2Proof.Machine

open Sys2Proof

variable {s t u : State} {i : Instr}

theorem backend_eq_of_load (h : t.load .backend = s.load .backend) : t.backend = s.backend :=
  code_inj.mp (Option.some.inj h)

/-- A command that ends by stores to other cells leaves BACKEND as it was. -/
theorem State.endsBy.backend_eq {k : Nat} {q : CmdProg} (h : u.endsBy k q t)
    (hq : q.storesOnly fun z _ => z ≠ .backend) : t.backend = u.backend := by
  rcases h with ⟨r, rfl⟩ | ⟨f, rfl⟩ | rfl
  · rfl
  · rfl
  · exact backend_eq_of_load (load_runCommand_of_storesOnly hq (fun _ _ hz => hz) k)

/-- BACKEND is as it was, or, where z holds, the stream was started as the device answers (43_backend_stream.md R183). -/
def State.mayStart (s : State) (z : Prop) (t : State) : Prop :=
  t.backend = s.backend ∨ s.backend = .ready ∧ z ∧ t.backend = if s.answer then .running else .failed

theorem activate_mayStart (k : Nat) (r : Reply) :
    s.mayStart True ((activate (.done r)).run (fun r v => v.reply k r) s) := by
  rw [run_activate]
  by_cases hr : s.backend = .ready
  · refine .inr ⟨hr, trivial, ?_⟩
    rw [if_pos hr]
    cases s.answer <;> rfl
  · left
    rw [if_neg hr]
    split <;> rfl

theorem activateWhen_mayStart (z : Bool) (k : Nat) (r : Reply) :
    s.mayStart (z = true) ((activateWhen z (.done r)).run (fun r v => v.reply k r) s) := by
  cases z
  · exact .inl rfl
  · exact (activate_mayStart k r).imp_right fun ⟨h1, _, h2⟩ => ⟨h1, rfl, h2⟩

/-- A store to another cell comes before the start and changes neither BACKEND nor the device's answer. -/
theorem mayStart_st {x : Cell} {v : Nat} {p : CmdProg} {fin : Reply → State → State} {z : Prop} (hx : x ≠ .backend)
    (h : ∀ u : State, u.mayStart z (p.run fin u)) : s.mayStart z ((Prog.st x v p).run fin s) := by
  cases hs : s.store x v with
  | none => rw [run_st_none hs]; exact .inl rfl
  | some u =>
    have hb : u.backend = s.backend := backend_eq_of_load (load_store_ne hs hx.symm)
    have ha : u.answer = s.answer := by
      obtain ⟨-, -, -, -, -, -, -, -, h1, h2, -⟩ := store_outside hs
      rw [State.answer, h1, h2]; rfl
    rw [run_st hs]
    simpa only [State.mayStart, hb, ha] using h u

theorem toneStores_mayStart (k : Nat) (freq : Freq) (c : Nat) :
    s.mayStart (freq ≠ 0) ((toneStores freq c).run (fun r v => v.reply k r) s) := by
  refine mayStart_st nofun fun u => ?_
  by_cases hf : freq = 0
  · rw [if_neg (by simp [hf])]
    exact mayStart_st nofun fun _ => .inl rfl
  · rw [if_pos (by simpa using hf)]
    cases hl : u.load (.resmax c) with
    | none => rw [run_ld_none hl]; exact .inl rfl
    | some r =>
      rw [run_ld hl]
      exact mayStart_st nofun fun v => (activate_mayStart k _).imp_right fun ⟨h1, _, h2⟩ => ⟨h1, hf, h2⟩

/-- The work on a channel may start the stream where the command is an activating write (43_backend_stream.md R184). -/
theorem channelWork_mayStart {c : Nat} {q : CmdProg} (hw : s.channelWork i = some (c, q))
    (hn : noteAccepted s.cfg i = true) (k : Nat) :
    s.mayStart (activates s.cfg i = true) (q.run (fun r v => v.reply k r) s) := by
  cases i <;> simp only [State.channelWork, Option.some.injEq, reduceCtorEq, Prod.mk.injEq] at hw <;>
    obtain ⟨rfl, rfl⟩ := hw
  case write | writech => exact mayStart_st nofun fun _ => activateWhen_mayStart _ k _
  case tone => exact (toneStores_mayStart k _ _).imp_right fun ⟨h1, h2, h3⟩ => ⟨h1, by simpa [activates] using h2, h3⟩
  case note => exact (toneStores_mayStart k _ _).imp_right fun ⟨h1, _, h3⟩ => ⟨h1, hn, h3⟩
  case read | readf =>
    refine .inl (backend_eq_of_load (load_runCommand_of_storesOnly (S := fun _ _ => False) ?_ nofun k))
    exact fun _ => trivial
  case chfreq => exact mayStart_st nofun fun _ => mayStart_st nofun fun _ => activateWhen_mayStart _ k _

theorem exec_channelWork_mayStart {c : Nat} {q : CmdProg} (hw : s.channelWork i = some (c, q))
    (h : exec i s = .next t) : s.mayStart (activates s.cfg i = true) t := by
  by_cases hn : noteAccepted s.cfg i = true
  · rcases exec_channelWork_cases hw h with ⟨r, rfl⟩ | ⟨f, rfl⟩ | ⟨-, rfl⟩
    · exact .inl rfl
    · exact .inl rfl
    · exact channelWork_mayStart hw hn s.cur
  · obtain ⟨pin, nt, oct, rfl⟩ : ∃ pin nt oct, i = .note pin nt oct := by
      cases i <;> simp [noteAccepted] at hn ⊢
    obtain ⟨r, rfl⟩ := exec_note_rejected (by simpa [noteAccepted] using hn) h
    exact .inl rfl

/-- ATTACH and ATTACHCH move BACKEND from UNINIT as the device answers, or not at all (43_backend_stream.md R181). -/
theorem exec_attach_backend {q : CmdProg} (hq : s.attachStoresOf i = some q) (h : exec i s = .next t) :
    t.backend = s.backend ∨ s.backend = .uninit ∧ t.backend = if s.answer then .ready else .failed := by
  have hkeep : q.storesOnly fun z _ => z ≠ .backend := by
    cases i <;> simp only [State.attachStoresOf, Option.some.injEq, reduceCtorEq] at hq <;> subst hq <;>
      simp [attachStores, Prog.storesOnly]
  rcases exec_attach_cases hq h with ⟨hb, ha, rfl⟩ | ⟨u, rfl | ⟨hb, ha, rfl⟩, he⟩
  · exact .inr ⟨hb, by rw [ha]; rfl⟩
  · exact .inl (he.backend_eq hkeep)
  · exact .inr ⟨hb, by rw [ha, he.backend_eq hkeep]; rfl⟩

theorem exec_bufreq_backend {n : Nat} (h : exec (.bufreq n) s = .next t) : t.backend = s.backend := by
  rcases exec_cases h with ⟨p, hp, -⟩ | ⟨n, -, -, rfl⟩
  · cases hp
  · exact backend_eq_of_load (load_run_of_storesOnly (fun _ _ => load_deliver) (by rintro _ - hx rfl; cases hx)
      (mixChannels_storesOnly _ _ _))

/-- Settles O18: by the kind of the instruction, each moving BACKEND in the one place that may. -/
theorem backendMovesAsTheLifecycle : Obligations.BackendMovesAsTheLifecycle := by
  unfold Obligations.BackendMovesAsTheLifecycle
  intro i s t h
  cases i
  case attach p f r =>
    exact (exec_attach_backend rfl h).imp_right fun ⟨hu, hb⟩ => .inl ⟨hu, ⟨p, f, r, .inl rfl⟩, hb⟩
  case attachch p f r c =>
    exact (exec_attach_backend rfl h).imp_right fun ⟨hu, hb⟩ => .inl ⟨hu, ⟨p, f, r, .inr ⟨c, rfl⟩⟩, hb⟩
  case detach pin => exact .inl ((exec_detach_cases h).backend_eq (by simp [detachStores, Prog.storesOnly]))
  case bufreq n => exact .inl (exec_bufreq_backend h)
  all_goals exact (exec_channelWork_mayStart rfl h).imp_right .inr

end Sys2Proof.Machine
end

section
/-! O17: whole operations keep the duty of every Free channel at 0. Only a duty store and the store that frees a channel can
break it; the first is made to an Attached channel alone, the second right after the channel's duty is cleared. -/

namespace Sys2Proof.Machine

open Sys2Proof

variable {α : Type} {s t u : State} {c : Nat} {ch : Channel} {i : Instr}

theorem freeIsSilent_of_chans (hs : s.freeIsSilent) (h : t.chans = s.chans) : t.freeIsSilent := by
  unfold State.freeIsSilent
  rwa [h]

theorem freeIsSilent_putChan (hs : s.freeIsSilent) (hc : ch.attached = false → ch.duty = 0) :
    (s.putChan c ch).freeIsSilent := fun d hd =>
  (List.mem_or_eq_of_mem_set hd).elim (hs d) fun e => e ▸ hc

/-- A store that no Free channel's duty can be raised by: it is to no duty and frees no channel. -/
def Cell.quiet : Cell → Nat → Prop
  | .duty _, _ => False
  | .attached _, v => v ≠ 0
  | _, _ => True

theorem freeIsSilent_store {x : Cell} {v : Nat} (hq : x.quiet v) (hs : s.freeIsSilent) (h : s.store x v = some t) :
    t.freeIsSilent := by
  cases x <;> simp only [State.store, Option.map_eq_some_iff, Option.some.injEq] at h
  case duty => exact hq.elim
  case pinmap => obtain ⟨_, -, rfl⟩ := h; exact hs
  case backend => subst h; exact hs
  case attached =>
    obtain ⟨ch, -, rfl⟩ := h
    exact freeIsSilent_putChan hs fun (e : (v != 0) = false) => absurd (by simpa using e) hq
  case freq | phase | resmax =>
    obtain ⟨ch, hc, rfl⟩ := h
    exact freeIsSilent_putChan hs (hs ch (List.mem_of_getElem? hc))

/-- A program of quiet stores keeps every Free channel silent. -/
theorem run_freeIsSilent {fin : α → State → State} (hfin : ∀ a u, (fin a u).chans = u.chans) {p : Prog α}
    {S : Cell → Nat → Prop} (hS : ∀ x v, S x v → x.quiet v) (hp : p.storesOnly S) (hs : s.freeIsSilent) :
    (p.run fin s).freeIsSilent :=
  run_preserves_of_storesOnly (fun _ _ _ _ hx h hst => freeIsSilent_store (hS _ _ hx) h hst)
    (fun _ h => freeIsSilent_of_chans h (State.answered_chans _)) (fun _ _ h => h)
    (fun a u h => freeIsSilent_of_chans h (hfin a u)) p s hp hs

theorem runCommand_freeIsSilent {k : Nat} {p : CmdProg} (hp : p.storesOnly Cell.quiet) (hs : s.freeIsSilent) :
    (p.run (fun r v => v.reply k r) s).freeIsSilent :=
  run_freeIsSilent (fin := fun r v => v.reply k r) (fun _ _ => rfl) (fun _ _ h => h) hp hs

/-- A duty store to an Attached channel, with quiet stores after it. -/
theorem run_st_duty_freeIsSilent {k v : Nat} {p : CmdProg} (hc : s.attachedAt c) (hp : p.storesOnly Cell.quiet)
    (hs : s.freeIsSilent) : ((Prog.st (.duty c) v p).run (fun r v => v.reply k r) s).freeIsSilent := by
  obtain ⟨ch, hch, ha⟩ := hc
  rw [run_st (store_duty hch)]
  exact runCommand_freeIsSilent hp (freeIsSilent_putChan hs fun e => by cases ha.symm.trans e)

theorem storeDuty_freeIsSilent {k : Nat} {duty : Duty} (hc : s.attachedAt c) (hs : s.freeIsSilent) :
    ((storeDuty c duty).run (fun r v => v.reply k r) s).freeIsSilent :=
  run_st_duty_freeIsSilent hc (activateWhen_storesOnly (fun _ => trivial) trivial) hs

theorem toneStores_freeIsSilent {k : Nat} {freq : Freq} (hc : s.attachedAt c) (hs : s.freeIsSilent) :
    ((toneStores freq c).run (fun r v => v.reply k r) s).freeIsSilent := by
  obtain ⟨ch, hch, ha⟩ := hc
  have hst := store_freq (v := freq.toNat) hch
  have hget := putChan_getElem?_self (ch := { ch with freq := BitVec.ofNat 32 freq.toNat }) hch
  have hs' := freeIsSilent_store (x := .freq c) trivial hs hst
  rw [toneStores, run_st hst]
  split
  · rw [run_ld (load_resmax hget)]
    exact run_st_duty_freeIsSilent ⟨_, hget, ha⟩ (activateWhen_storesOnly (z := true) (fun _ => trivial) trivial) hs'
  · exact run_st_duty_freeIsSilent ⟨_, hget, ha⟩ trivial hs'

theorem channelWork_freeIsSilent {k : Nat} {q : CmdProg} (hw : s.channelWork i = some (c, q)) (hc : s.attachedAt c)
    (hs : s.freeIsSilent) : (q.run (fun r v => v.reply k r) s).freeIsSilent := by
  cases i <;> simp only [State.channelWork, Option.some.injEq, reduceCtorEq, Prod.mk.injEq] at hw <;>
    obtain ⟨rfl, rfl⟩ := hw
  case write | writech => exact storeDuty_freeIsSilent hc hs
  case tone | note => exact toneStores_freeIsSilent hc hs
  case read | readf => exact runCommand_freeIsSilent (fun _ => trivial) hs
  case chfreq =>
    exact runCommand_freeIsSilent ⟨trivial, trivial, activateWhen_storesOnly (fun _ => trivial) trivial⟩ hs

theorem exec_channelWork_freeIsSilent {q : CmdProg} (hw : s.channelWork i = some (c, q)) (hs : s.freeIsSilent)
    (h : exec i s = .next t) : t.freeIsSilent := by
  rcases exec_channelWork_cases hw h with ⟨r, rfl⟩ | ⟨f, rfl⟩ | ⟨hc, rfl⟩
  exacts [hs, hs, channelWork_freeIsSilent hw hc hs]

theorem exec_attach_freeIsSilent {q : CmdProg} (hq : s.attachStoresOf i = some q) (hs : s.freeIsSilent)
    (h : exec i s = .next t) : t.freeIsSilent := by
  have hquiet : q.storesOnly Cell.quiet := by
    cases i <;> simp only [State.attachStoresOf, Option.some.injEq, reduceCtorEq] at hq <;> subst hq <;>
      simp [attachStores, Prog.storesOnly, Cell.quiet]
  rcases exec_attach_cases hq h with ⟨-, -, rfl⟩ | ⟨u, hu, he⟩
  · exact freeIsSilent_of_chans hs (by simp)
  · have hsu := freeIsSilent_of_chans hs hu.chans_eq
    rcases he with ⟨r, rfl⟩ | ⟨f, rfl⟩ | rfl
    exacts [hsu, hsu, runCommand_freeIsSilent hquiet hsu]

/-- DETACH clears the duty before it frees the channel (40_attach_detach.md R118). -/
theorem exec_detach_freeIsSilent {pin : Nat} (hs : s.freeIsSilent) (h : exec (.detach pin) s = .next t) :
    t.freeIsSilent := by
  rcases exec_detach_cases h with ⟨r, rfl⟩ | ⟨f, rfl⟩ | rfl
  · exact hs
  · exact hs
  unfold detachStores
  cases hc : s.chans[s.entry pin]? with
  | none => rw [run_st_none (by simp [State.store, hc])]; exact hs
  | some ch =>
    rw [run_st (store_duty hc), run_st (store_attached (putChan_getElem?_self hc)), putChan_putChan]
    exact runCommand_freeIsSilent ⟨trivial, trivial⟩ (freeIsSilent_putChan hs fun _ => rfl)

/-- MIX stores to phases alone, which are quiet. -/
theorem exec_bufreq_freeIsSilent {n : Nat} (hs : s.freeIsSilent) (h : exec (.bufreq n) s = .next t) :
    t.freeIsSilent := by
  rcases exec_cases h with ⟨p, hp, -⟩ | ⟨n, -, -, rfl⟩
  · cases hp
  · refine run_freeIsSilent (fin := fun out u => u.deliver out) (fun _ _ => rfl) (fun x v hx => ?_) (mixChannels_storesOnly _ _ _) hs
    cases x <;> trivial

/-- Settles O17: by the kind of the instruction, no operation raises the duty of a Free channel or frees a sounding one. -/
theorem freeChannelsStaySilent : Obligations.FreeChannelsStaySilent := by
  unfold Obligations.FreeChannelsStaySilent
  intro i s t hs h
  cases i
  case attach | attachch => exact exec_attach_freeIsSilent rfl hs h
  case detach => exact exec_detach_freeIsSilent hs h
  case bufreq => exact exec_bufreq_freeIsSilent hs h
  all_goals exact exec_channelWork_freeIsSilent rfl hs h

end Sys2Proof.Machine
end

section
/-! O15: who writes which cell. Commands store to no phase, nor do the stores they hold under PerCell; MIX stores to phases
alone. -/

namespace Sys2Proof.Machine

open Sys2Proof

variable {s t : State} {y : Cell} {c : Nat} {i : Instr} {e : Event}

theorem owned_ne_phase {x : Cell} (hx : x.controlOwned = true) : x ≠ .phase c := by rintro rfl; cases hx

theorem owned_ne_unowned {x : Cell} (hx : x.controlOwned = false) (hy : y.controlOwned = true) : x ≠ y := by
  rintro rfl; cases hx.symm.trans hy

/-- Held stores that reach their cells leave every other cell alone. -/
theorem load_foldl_commit {hs : List Held} (hne : ∀ h ∈ hs, h.cell ≠ y) :
    (hs.foldl State.commit s).load y = s.load y := by
  induction hs generalizing s with
  | nil => rfl
  | cons h hs ih =>
    rw [List.foldl_cons, ih fun g hg => hne g (List.mem_cons_of_mem _ hg), load_commit_ne (hne h List.mem_cons_self).symm]

/-- Settling an agent leaves a cell alone that none of its held stores is to. -/
theorem load_settled {a : Agent} (hne : ∀ h ∈ s.held, Agent.ctrl h.agent = a → h.cell ≠ y) :
    (s.settled a).load y = s.load y := by
  have hu (u : State) (hs : List Held) (us : List Unseen) :
      State.load { u with held := hs, unseen := us } y = u.load y := by cases y <;> rfl
  exact (hu _ _ _).trans (load_foldl_commit fun h hh => by
    obtain ⟨hm, ha⟩ := List.mem_filter.mp hh
    exact hne h hm (by simpa using ha))

/-- The cells do not depend on the environment's moves nor on the current agent. -/
theorem load_withEnvironment (es : List Event) (k : Nat) : State.load { s with events := es, cur := k } y = s.load y := by
  cases y <;> rfl

theorem load_withMix (m : Option MixJob) : State.load { s with mix := m } y = s.load y := by cases y <;> rfl

/-! ### Commands -/

theorem exec_command_phase (hi : isCommand i = true) (h : exec i s = .next t) :
    t.load (.phase c) = s.load (.phase c) := by
  rcases exec_cases h with ⟨p, hp, rfl⟩ | ⟨n, rfl, -⟩
  · exact load_runCommand_of_storesOnly (storesOnly_of_storesOwned (commandProgram_storesOwned hp))
      (fun _ _ => owned_ne_phase) s.cur
  · cases hi

/-- Under the invariant one step of a control agent stores to no phase. -/
theorem CtrlTicked.phase {k : Nat} (hi : s.Inv) (h : CtrlTicked k s t) : t.load (.phase c) = s.load (.phase c) := by
  cases h with
  | store j x v p u hj hr hc hs =>
    obtain ⟨-, hown, -⟩ := (hi.job hj).of_rest hr
    exact load_putJob.trans (load_store_ne hs (owned_ne_phase hown).symm)
  | draw j f hj hr => exact load_putJob.trans load_answered
  | _ => rfl

theorem drainTick_phase (hi : s.Inv) (n : Nat) : (drainTick n s).load (.phase c) = s.load (.phase c) := by
  unfold drainTick
  cases hd : s.drainable n with
  | none => rfl
  | some g =>
    obtain ⟨-, -, hown⟩ := hi.held g (drainable_mem hd)
    exact load_commit_ne (owned_ne_phase hown).symm

/-- A move that is not MIX's changes no phase. -/
theorem movesTo_phase (hi : s.Inv) (he : isMixMove e = false) (h : movesTo s t e) :
    t.load (.phase c) = s.load (.phase c) := by
  cases e with
  | command k w =>
    obtain ⟨-, -, ⟨i, hd, hx⟩ | ⟨-, rfl⟩⟩ := h
    · refine (exec_command_phase (decode_isCommand hd) hx).trans (load_settled fun g hg _ => ?_)
      obtain ⟨-, -, hown⟩ := hi.held g hg
      exact owned_ne_phase hown
    · rfl
  | issue k w => obtain ⟨-, -, ⟨i, -, rfl⟩ | ⟨-, rfl⟩⟩ := h <;> rfl
  | ask n => obtain ⟨-, rfl⟩ := h; rfl
  | ctrl k => subst h; exact ((ctrlTick_cases rfl).phase (hi.withEnvironment s.events k) :)
  | drain n => subst h; exact drainTick_phase hi n
  | see n => subst h; rfl
  | request n => cases he
  | mix g => cases he

/-! ### MIX -/

theorem exec_bufreq_owned {n : Nat} (hy : y.controlOwned = true) (h : exec (.bufreq n) s = .next t) :
    t.load y = s.load y := by
  rcases exec_cases h with ⟨p, hp, -⟩ | ⟨n, -, -, rfl⟩
  · cases hp
  · exact load_run_of_storesOnly (fun _ _ => load_deliver) (fun _ _ hx => owned_ne_unowned hx hy)
      (mixChannels_storesOnly _ _ _)

theorem load_runFrames {j : MixJob} {f p : Nat} : (s.runFrames j f p).load y = s.load y := by
  unfold State.runFrames
  dsimp only
  split
  · rw [load_raise, load_withMix]
  · exact load_withMix _

/-- One step of MIX stores to no cell but a phase. -/
theorem MixTicked.owned {g : Gate} (hy : y.controlOwned = true) (h : MixTicked g s t) : t.load y = s.load y := by
  cases h with
  | idle => rfl
  | deliver j hm hc => rw [load_deliver, load_withMix]
  | store j p u hm hc hp hs => rw [load_withMix, load_store_ne hs (owned_ne_phase hy)]
  | gate j g v => exact load_withMix _
  | frames j p => exact load_runFrames
  | storeNone | gateNone | framesNone => exact load_raise

/-- A move of MIX changes phases alone. -/
theorem movesTo_owned (he : isMixMove e = true) (hy : y.controlOwned = true) (h : movesTo s t e) :
    t.load y = s.load y := by
  cases e with
  | request n => exact (exec_bufreq_owned hy h).trans (load_settled fun g _ => nofun)
  | mix g => subst h; exact (mixTick_cases rfl).owned hy
  | _ => cases he

/-- Settles O15: a step is the one move it takes, and each kind of move stores to its own side's cells alone. -/
theorem phasesBelongToTheMixer : Obligations.PhasesBelongToTheMixer := by
  unfold Obligations.PhasesBelongToTheMixer
  intro s t e es hi he h
  obtain ⟨-, ⟨hn, -⟩ | ⟨e', es', he', hm⟩⟩ := step_cases h
  · cases he.symm.trans hn
  · cases he.symm.trans he'
    exact ⟨fun hmix c => (movesTo_phase (hi.withEnvironment es s.cur) hmix hm).trans (load_withEnvironment es s.cur),
      fun hmix x hx => (movesTo_owned hmix hx hm).trans (load_withEnvironment es s.cur)⟩

end Sys2Proof.Machine
end

section
/-! O9, O10: the state after reset. -/

namespace Sys2Proof.Machine

open Sys2Proof

variable {cfg : Config}

theorem resetOf_getElem?_chans {c : Nat} (hc : c < cfg.nCh) : (State.resetOf cfg).chans[c]? = some Channel.reset :=
  List.getElem?_replicate_of_lt hc

theorem resetOf_jobOf (k : Nat) : (State.resetOf cfg).jobOf k = none := by
  unfold State.jobOf State.resetOf
  rw [List.getElem?_replicate]
  split <;> rfl

/-- Settles O9: every channel is the reset channel, every entry UNASSIGNED, every agent idle. -/
theorem resetStateIsTheSpecs : Obligations.ResetStateIsTheSpecs := by
  unfold Obligations.ResetStateIsTheSpecs
  refine fun cfg => ⟨fun c hc => ?_, fun p hp => ?_, rfl, rfl, resetOf_jobOf, rfl, rfl⟩
  · have h := resetOf_getElem?_chans hc
    exact ⟨load_freq h, load_phase h, load_duty h, load_resmax h, load_attached h⟩
  · simp [State.load, State.resetOf, List.getElem?_replicate_of_lt hp, unassigned]

/-- The phase modulus of a configuration in range is positive, so a phase of 0 is below it. -/
theorem modulus_pos (h : cfg.wf) : 0 < cfg.modulus := by
  obtain ⟨-, -, hrate, -⟩ := h
  exact Nat.mul_pos hrate (Nat.two_pow_pos _)

theorem resetOf_inv (h : cfg.wf) : (State.resetOf cfg).Inv where
  config := h
  channels := List.length_replicate
  entries := List.length_replicate
  agents := List.length_replicate
  phases ch hch := by rw [List.eq_of_mem_replicate hch]; exact modulus_pos h
  pinmap m hm := .inl (List.eq_of_mem_replicate hm)
  commands j hj := by cases List.eq_of_mem_replicate hj
  buffer := nofun
  held := nofun
  unseen := nofun
  inOrder _ := ⟨rfl, rfl⟩
  levels := nofun
  noWildAccess := nofun

/-- Settles O10: the defaults are checked one by one, and the reset state is idle and empty in every configuration. -/
theorem resetMeetsInvariant : Obligations.ResetMeetsInvariant := by
  unfold Obligations.ResetMeetsInvariant
  exact ⟨by decide, fun _ => resetOf_inv⟩

end Sys2Proof.Machine
end

section
/-! O57, O58: the litmus runs of 95_test_vectors.md V61 and V62, evaluated. -/

namespace Sys2Proof.Machine

open Sys2Proof

/-- Settles O57: the run is evaluated; each scan finds channel 0 Free before the other agent stores to it. -/
theorem twoAttachesMayTakeOneChannel : Obligations.TwoAttachesMayTakeOneChannel := by
  unfold Obligations.TwoAttachesMayTakeOneChannel
  exact ⟨_, rfl, rfl, rfl, rfl, rfl⟩

/-- Settles O58: the three runs are evaluated. -/
theorem perCellShowsDutyBeforeFrequency : Obligations.PerCellShowsDutyBeforeFrequency := by
  unfold Obligations.PerCellShowsDutyBeforeFrequency
  exact ⟨⟨_, rfl, rfl, rfl, rfl, rfl⟩, ⟨_, rfl, rfl, rfl⟩, ⟨_, rfl, rfl, rfl, rfl, rfl, rfl⟩⟩

end Sys2Proof.Machine
end

section
/-! O43: the failures of the pin router (20_memory.md R59). A command that is routed is `gate` and `resolve` before anything
else; each test of `resolve` that fails answers and touches no cell. -/

namespace Sys2Proof.Machine

open Sys2Proof

variable {s : State} {pin : Nat} {fin : Reply → State → State} {k : Nat → CmdProg}

/-- Where it is not inert and its note is accepted, a routed command starts with `resolve` of its pin. -/
theorem exec_routed {i : Instr} (hp : routedPin i = some pin) (hn : noteAccepted s.cfg i = true)
    (hb : s.backend ≠ .failed) : ∃ k, exec i s = .next (s.runCommand (resolve s.cfg pin k)) := by
  have hgate (p : CmdProg) : s.runCommand (gate p) = s.runCommand p := by
    rw [State.runCommand, run_gate, if_neg hb]; rfl
  cases i <;> simp only [routedPin, Option.some.injEq, reduceCtorEq] at hp <;> subst hp
  case note nt oct =>
    have hnote : ¬ noteInvalid s.cfg nt oct = true := by simpa [noteAccepted] using hn
    exact ⟨_, congrArg Host.Outcome.next ((hgate _).trans (congrArg s.runCommand (if_neg hnote)))⟩
  all_goals exact ⟨_, congrArg Host.Outcome.next (hgate _)⟩

theorem run_resolve_of_invalidPin (hp : s.cfg.nPin ≤ pin) :
    (resolve s.cfg pin k).run fin s = fin (.fail .invalidPin) s := by
  rw [resolve, if_pos hp, run_done]

theorem run_resolve_of_unassigned (hp : pin < s.cfg.nPin) (hl : pin < s.pins.length)
    (hu : s.entry pin = unassigned.toNat) : (resolve s.cfg pin k).run fin s = fin (.fail .pinNotAttached) s := by
  rw [resolve, if_neg (Nat.not_le.mpr hp), run_ld (load_pinmap hl), if_pos hu, run_done]

theorem run_resolve_of_free {ch : Channel} (hp : pin < s.cfg.nPin) (hl : pin < s.pins.length)
    (hu : s.entry pin ≠ unassigned.toNat) (hc : s.chans[s.entry pin]? = some ch) (ha : ch.attached = false) :
    (resolve s.cfg pin k).run fin s = fin (.fail .invalidChannel) s := by
  rw [resolve, if_neg (Nat.not_le.mpr hp), run_ld (load_pinmap hl), if_neg hu, run_ld (load_attached hc),
    if_pos (by rw [ha]; rfl), run_done]

/-- Settles O43: the three tests of `resolve`, in their order. -/
theorem pinRouterFailsInOrder : Obligations.PinRouterFailsInOrder := by
  unfold Obligations.PinRouterFailsInOrder
  intro i s pin hp hn hb
  obtain ⟨k, he⟩ := exec_routed hp hn hb
  rw [he]
  exact ⟨fun h => congrArg _ (run_resolve_of_invalidPin h), fun h hl hu => congrArg _ (run_resolve_of_unassigned h hl hu),
    fun ch h hl hu hc ha => congrArg _ (run_resolve_of_free h hl hu hc ha)⟩

end Sys2Proof.Machine
end

section
/-! What the moves of one agent leave of the others: the commands in progress, the buffer in progress and the ports. -/

namespace Sys2Proof.Machine

open Sys2Proof

variable {s t : State} {i : Instr} {k l : Nat} {e : Event}

/-- An operation taken whole leaves the commands in progress as they are. -/
theorem exec_ctrls (h : exec i s = .next t) : t.ctrls = s.ctrls := by
  rcases exec_cases h with ⟨p, -, rfl⟩ | ⟨n, -, -, rfl⟩
  · exact (runCommand_sameOutside s p).2.1
  · exact run_preserves (P := fun u => u.ctrls = s.ctrls) (fin := fun out u => u.deliver out)
      (fun _ _ _ _ h hst => (store_outside hst).2.1.trans h) (fun u h => u.answered_ctrls.trans h) (fun _ _ h => h)
      (fun _ _ h => h) _ s rfl

theorem exec_command_mix (hi : isCommand i = true) (h : exec i s = .next t) : t.mix = s.mix := by
  obtain ⟨-, -, hm, -⟩ := exec_command_sameOutside hi h
  exact hm

/-- No request is taken while a buffer is in progress (43_backend_stream.md R185). -/
theorem mix_of_requestAllowed (h : requestAllowed s = true) : s.mix = none := (of_decide_eq_true h).2

@[simp] theorem State.settled_ctrls (a : Agent) : (s.settled a).ctrls = s.ctrls := (settled_outside s a).2.1
@[simp] theorem State.settled_mix (a : Agent) : (s.settled a).mix = s.mix := (settled_outside s a).2.2.1

@[simp] theorem drainTick_ctrls (n : Nat) : (drainTick n s).ctrls = s.ctrls := by
  unfold drainTick
  split
  · exact (commit_outside s _).2.1
  · rfl

@[simp] theorem drainTick_mix (n : Nat) : (drainTick n s).mix = s.mix := by
  unfold drainTick
  split
  · exact (commit_outside s _).2.2.1
  · rfl

@[simp] theorem State.runFrames_ctrls (j : MixJob) (f p : Nat) : (s.runFrames j f p).ctrls = s.ctrls := by
  unfold State.runFrames
  dsimp only
  split <;> rfl

theorem jobOf_eq_of_ctrls (h : t.ctrls = s.ctrls) : t.jobOf k = s.jobOf k := by rw [State.jobOf, h]; rfl

theorem MixTicked.ctrls_eq {g : Gate} (h : MixTicked g s t) : t.ctrls = s.ctrls := by
  cases h with
  | store j p u hm hc hp hs => exact (store_outside hs).2.1
  | frames => exact State.runFrames_ctrls ..
  | _ => rfl

theorem CtrlTicked.mix_eq (h : CtrlTicked k s t) : t.mix = s.mix := by
  cases h with
  | store j x v p u hj hr hc hs => exact (store_outside hs).2.2.1
  | draw => simp
  | _ => rfl

/-- A control agent's step leaves the other agents' commands in progress as they are. -/
theorem CtrlTicked.jobOf_ne (h : CtrlTicked k s t) (hl : l ≠ k) : t.jobOf l = s.jobOf l := by
  cases h with
  | respond | load | hold => exact jobOf_putJob_ne hl
  | store j x v p u hj hr hc hs => exact (jobOf_putJob_ne hl).trans (jobOf_eq_of_ctrls (store_outside hs).2.1)
  | draw => exact (jobOf_putJob_ne hl).trans (jobOf_eq_of_ctrls s.answered_ctrls)
  | idle | stuck | loadNone | storeNone | raise => rfl

/-- A command in progress is left as it is by every move but its agent's steps. -/
theorem movesTo_jobOf {j : CtrlJob} (hj : s.jobOf k = some j) (he : e ≠ .ctrl k) (h : movesTo s t e) :
    t.jobOf k = some j := by
  rw [← hj]
  cases e with
  | command l w =>
    obtain ⟨-, -, ⟨i, -, hx⟩ | ⟨-, rfl⟩⟩ := h
    · exact jobOf_eq_of_ctrls ((exec_ctrls hx).trans (State.settled_ctrls _))
    · rfl
  | request n => exact jobOf_eq_of_ctrls ((exec_ctrls h).trans (State.settled_ctrls _))
  | issue l w =>
    obtain ⟨-, hidle, ⟨i, -, rfl⟩ | ⟨-, rfl⟩⟩ := h
    · exact jobOf_putJob_ne (by rintro rfl; cases hj.symm.trans hidle)
    · rfl
  | ask n => obtain ⟨-, rfl⟩ := h; rfl
  | ctrl l => subst h; exact (ctrlTick_cases rfl).jobOf_ne fun e => he (by rw [e])
  | drain n => subst h; exact jobOf_eq_of_ctrls (drainTick_ctrls n)
  | see n => subst h; rfl
  | mix g => subst h; exact jobOf_eq_of_ctrls (mixTick_cases rfl).ctrls_eq

/-- A buffer in progress is left as it is by every move but MIX's steps. -/
theorem movesTo_mix {j : MixJob} (hj : s.mix = some j) (he : ∀ g, e ≠ .mix g) (h : movesTo s t e) :
    t.mix = some j := by
  cases e with
  | command k w =>
    obtain ⟨-, -, ⟨i, hd, hx⟩ | ⟨-, rfl⟩⟩ := h
    · exact ((exec_command_mix (decode_isCommand hd) hx).trans (State.settled_mix _)).trans hj
    · exact hj
  | request n =>
    rcases exec_cases h with ⟨p, hp, -⟩ | ⟨n, -, hr, -⟩
    · cases hp
    · cases hj.symm.trans ((State.settled_mix _).symm.trans (mix_of_requestAllowed hr))
  | issue k w => obtain ⟨-, -, ⟨i, -, rfl⟩ | ⟨-, rfl⟩⟩ := h <;> exact hj
  | ask n =>
    obtain ⟨hr, -⟩ := h
    cases hj.symm.trans (mix_of_requestAllowed hr)
  | ctrl k => subst h; exact ((ctrlTick_cases rfl).mix_eq).trans hj
  | drain n => subst h; exact (drainTick_mix n).trans hj
  | see n => subst h; exact hj
  | mix g => exact absurd rfl (he g)

/-- The move a step takes is the first that the environment lists. -/
theorem step_movesTo {es : List Event} (he : s.events = e :: es) (h : step s = .next t) :
    s.fault = none ∧ movesTo { s with events := es } t e := by
  obtain ⟨hf, ⟨hn, -⟩ | ⟨e', es', he', hm⟩⟩ := step_cases h
  · cases he.symm.trans hn
  · cases he.symm.trans he'
    exact ⟨hf, hm⟩

end Sys2Proof.Machine
end

section
/-! O60: a command in progress. A step of its agent under the invariant finds the cell it accesses, and takes one from the
steps left, of which a program that still has an access to make has some. -/

namespace Sys2Proof.Machine

open Sys2Proof

variable {s t : State} {k : Nat} {j : CtrlJob}

theorem stepsLeft_start (cfg : Config) (i : Instr) : (CtrlJob.start i).stepsLeft cfg = cfg.nCh + 9 := rfl

theorem Prog.within.pos_of_ld {α : Type} {x : Cell} {f : Nat → Prog α} : ∀ {n : Nat}, (Prog.ld x f).within n → 0 < n
  | _ + 1, _ => Nat.succ_pos _

theorem Prog.within.pos_of_st {α : Type} {x : Cell} {v : Nat} {p : Prog α} :
    ∀ {n : Nat}, (Prog.st x v p).within n → 0 < n
  | _ + 1, _ => Nat.succ_pos _

theorem Prog.within.pos_of_draw {α : Type} {f : Bool → Prog α} : ∀ {n : Nat}, (Prog.draw f).within n → 0 < n
  | _ + 1, _ => Nat.succ_pos _

/-- The command of j is closer to its answer in t, which it has not given yet. -/
def CtrlJob.closer (j : CtrlJob) (k : Nat) (s t : State) : Prop :=
  ∃ j', t.jobOf k = some j' ∧ j'.instr = j.instr ∧ j'.stepsLeft s.cfg < j.stepsLeft s.cfg ∧ t.rsps = s.rsps

/-- An agent that keeps the value of an access it had left to make is closer to its answer. -/
theorem CtrlJob.closer_of_advance {v : Nat} (hn : 0 < longestCommand s.cfg - j.moved.length)
    (hj : t.jobOf k = some (j.advance v)) (hr : t.rsps = s.rsps) : j.closer k s t :=
  ⟨_, hj, rfl, by rw [← stepsLeft_advance (v := v) (Nat.lt_of_sub_pos hn)]; exact Nat.lt_succ_self _, hr⟩

/-- One step of an agent with a command in progress: no fault, and the command is closer to its answer or has given it. -/
theorem CtrlTicked.closer_or_answered (hi : s.Inv) (hf : s.fault = none) (hj : s.jobOf k = some j)
    (h : CtrlTicked k s t) :
    t.fault = none ∧ (j.closer k s t ∨ t.jobOf k = none ∧ ∃ r : Reply, t.rsps = s.rsps ++ [(k, r.word)]) := by
  have hk := jobOf_lt hj
  have left {p : CmdProg} (hr : j.rest s.cfg = some p) := rest_within hi.config.1.1 hr
  have hinv := h.inv hi
  cases h with
  | idle hj' => cases hj.symm.trans hj'
  | stuck j' hj' hr =>
    cases hj.symm.trans hj'
    obtain ⟨p, hp, -⟩ := hi.job hj
    cases hr.symm.trans hp
  | respond j' r hj' hr => exact ⟨hf, .inr ⟨jobOf_putJob_self hk, r, rfl⟩⟩
  | load j' x f v hj' hr hl =>
    cases hj.symm.trans hj'
    exact ⟨hf, .inl (CtrlJob.closer_of_advance (left hr).pos_of_ld (jobOf_putJob_self hk) rfl)⟩
  | store j' x v p u hj' hr hc hs =>
    cases hj.symm.trans hj'
    obtain ⟨-, hctrls, -, hrsps, -, hfault, -⟩ := store_outside hs
    exact ⟨hfault.trans hf,
      .inl (CtrlJob.closer_of_advance (left hr).pos_of_st (jobOf_putJob_self (hctrls ▸ hk)) hrsps)⟩
  | hold j' x v p hj' hr hc =>
    cases hj.symm.trans hj'
    exact ⟨hf, .inl (CtrlJob.closer_of_advance (left hr).pos_of_st (jobOf_putJob_self hk) rfl)⟩
  | draw j' f hj' hr =>
    cases hj.symm.trans hj'
    exact ⟨s.answered_fault.trans hf, .inl (CtrlJob.closer_of_advance (left hr).pos_of_draw
      (jobOf_putJob_self (s.answered_ctrls.symm ▸ hk)) s.answered_rsps)⟩
  | loadNone j' x => exact absurd rfl (hinv.noWildAccess x)
  | storeNone j' x => exact absurd rfl (hinv.noWildAccess x)
  | raise j' f hj' hr => exact ((hi.job hj').of_rest hr).2.elim

/-- Settles O60: the step of the command's agent by what it can do, every other move by what it leaves. -/
theorem commandsEndInBoundedSteps : Obligations.CommandsEndInBoundedSteps := by
  unfold Obligations.CommandsEndInBoundedSteps
  intro s k j hi hj
  refine ⟨stepsLeft_start s.cfg, fun es hf he => ⟨_, step_ctrl hf he, ?_⟩, fun t e es he hne h => ?_⟩
  · exact ((ctrlTick_cases rfl).closer_or_answered (hi.withEnvironment es k) hf hj :)
  · obtain ⟨-, hm⟩ := step_movesTo he h
    exact movesTo_jobOf (s := { s with events := es }) hj hne hm

end Sys2Proof.Machine
end

section
/-! O56: a buffer in progress. Each step of MIX latches one more gate value, the working phase among them, goes on to the next
channel, delivers, or records PhaseOverrange. -/

namespace Sys2Proof.Machine

open Sys2Proof

variable {s t : State} {j : MixJob} {cfg : Config}

/-- The accesses MIX has made for the channel it is at. -/
def MixJob.made (j : MixJob) : Nat :=
  j.attached.isSome.toNat + j.duty.isSome.toNat + j.freq.isSome.toNat + j.p.isSome.toNat

theorem MixJob.stepsLeft_eq : j.stepsLeft cfg = 5 * (cfg.nCh - j.c) + 1 - j.made := rfl

theorem MixJob.made_le : j.made ≤ 4 := by
  have h (b : Bool) : b.toNat ≤ 1 := b.toNat_le
  exact Nat.add_le_add (Nat.add_le_add (Nat.add_le_add (h _) (h _)) (h _)) (h _)

/-- MIX has fewer steps left once it has gone on to the next channel. -/
theorem MixJob.stepsLeft_nextChannel (hc : j.c < cfg.nCh) : j.nextChannel.stepsLeft cfg < j.stepsLeft cfg := by
  have hmade : j.made ≤ 4 := MixJob.made_le
  have hnext : j.nextChannel.made = 0 := rfl
  have hpos : j.nextChannel.c = j.c + 1 := rfl
  rw [MixJob.stepsLeft_eq, MixJob.stepsLeft_eq, hnext, hpos]
  omega

/-- MIX has fewer steps left once it has made one more access for the channel. -/
theorem MixJob.stepsLeft_made {j' : MixJob} (hc : j.c < cfg.nCh) (hpos : j'.c = j.c) (hmade : j'.made = j.made + 1) :
    j'.stepsLeft cfg < j.stepsLeft cfg := by
  have hmade' : j'.made ≤ 4 := MixJob.made_le
  rw [MixJob.stepsLeft_eq, MixJob.stepsLeft_eq, hpos]
  omega

/-- Latching a nonzero gate value is one more access made. -/
theorem MixJob.made_latch {g : Gate} {v : Nat} (hg : j.latched g = none) (hv : v ≠ 0) :
    (j.latch g v).made = j.made + 1 := by
  unfold MixJob.latch
  rw [if_neg hv]
  cases g <;>
  · rw [MixJob.latched] at hg
    simp only [MixJob.made, hg, Option.isSome_some, Option.isSome_none, Bool.toNat_true, Bool.toNat_false]
    omega

theorem MixJob.latch_c {g : Gate} {v : Nat} (hv : v ≠ 0) : (j.latch g v).c = j.c := by
  unfold MixJob.latch
  rw [if_neg hv]
  cases g <;> rfl

theorem MixJob.stepsLeft_latch {g : Gate} (hc : j.c < cfg.nCh) (hg : j.latched g = none) (v : Nat) :
    (j.latch g v).stepsLeft cfg < j.stepsLeft cfg := by
  by_cases hv : v = 0
  · unfold MixJob.latch
    rw [if_pos hv]
    exact MixJob.stepsLeft_nextChannel hc
  · exact MixJob.stepsLeft_made hc (MixJob.latch_c hv) (MixJob.made_latch hg hv)

theorem MixJob.latch_n (g : Gate) (v : Nat) : (j.latch g v).n = j.n := by
  unfold MixJob.latch
  split
  · rfl
  · cases g <;> rfl

/-- The buffer j goes on in t, with fewer steps left. -/
def MixJob.closer (j : MixJob) (s t : State) : Prop :=
  ∃ j', t.mix = some j' ∧ j'.n = j.n ∧ j'.stepsLeft s.cfg < j.stepsLeft s.cfg ∧ t.fault = none ∧ t.sink = s.sink

/-- The buffer j has been delivered in t, with as many levels as frames were requested. -/
def MixJob.delivered (j : MixJob) (s t : State) : Prop :=
  t.mix = none ∧ t.fault = none ∧ ∃ b : List Level, t.sink = s.sink ++ [b] ∧ b.length = j.n

/-- The buffer j has ended in t with PhaseOverrange at its channel. -/
def MixJob.overran (j : MixJob) (s t : State) : Prop :=
  t.mix = none ∧ t.sink = s.sink ∧ ∃ i, t.fault = some (.phaseOverrange j.c i)

/-- The frames of a channel leave the working copy of its phase, or PhaseOverrange. -/
theorem runFrames_closer_or_overran (hf : s.fault = none) (hc : j.c < s.cfg.nCh) (hp : j.p = none) (f p : Nat) :
    j.closer s (s.runFrames j f p) ∨ j.overran s (s.runFrames j f p) := by
  unfold State.runFrames
  dsimp only
  split
  · exact .inr ⟨rfl, rfl, _, rfl⟩
  · exact .inl ⟨_, rfl, rfl, MixJob.stepsLeft_made hc rfl (by simp [MixJob.made, hp]), hf, rfl⟩

/-- One step of MIX with a buffer in progress. -/
theorem MixTicked.closer_or_ended {g : Gate} (hi : s.Inv) (hf : s.fault = none) (hj : s.mix = some j)
    (h : MixTicked g s t) : j.closer s t ∨ j.delivered s t ∨ j.overran s t := by
  have hinv := h.inv hi
  cases h with
  | idle hm => cases hj.symm.trans hm
  | deliver j' hm hc =>
    cases hj.symm.trans hm
    obtain ⟨-, -, hlen, -⟩ := hi.buffer j hj
    exact .inr (.inl ⟨rfl, hf, _, rfl, (List.length_map _).trans hlen⟩)
  | store j' p u hm hc hp hs =>
    cases hj.symm.trans hm
    obtain ⟨-, -, -, -, hsink, hfault, -⟩ := store_outside hs
    exact .inl ⟨_, rfl, rfl, MixJob.stepsLeft_nextChannel hc, hfault.trans hf, hsink⟩
  | gate j' g v hm hc hp hg hl =>
    cases hj.symm.trans hm
    exact .inl ⟨_, rfl, MixJob.latch_n g v, MixJob.stepsLeft_latch hc (nextGate_latched hg) v, hf, rfl⟩
  | frames j' p hm hc hp hg hl =>
    cases hj.symm.trans hm
    exact (runFrames_closer_or_overran hf hc hp _ p).imp_right .inr
  | storeNone | gateNone | framesNone => exact absurd rfl (hinv.noWildAccess _)

/-- Settles O56: a step of MIX by what it can do, every other move by what it leaves. -/
theorem buffersEndInBoundedSteps : Obligations.BuffersEndInBoundedSteps := by
  unfold Obligations.BuffersEndInBoundedSteps
  intro s j hi hj
  refine ⟨by rw [MixJob.stepsLeft_eq]; omega, fun g es hf he => ⟨_, step_mix hf he, ?_⟩, fun t e es he hne h => ?_⟩
  · exact ((mixTick_cases rfl).closer_or_ended (hi.withEnvironment es s.cur) hf hj :)
  · obtain ⟨-, hm⟩ := step_movesTo he h
    exact movesTo_mix (s := { s with events := es }) hj hne hm

end Sys2Proof.Machine
end

section
/-! O16: the one cell a single step stores to, and what each agent sees of the cells. An agent's load of a cell depends on the
stores it holds to that cell, on those to the cell it has not seen, and on the cell. -/

namespace Sys2Proof.Machine

open Sys2Proof

variable {s t u : State} {a : Agent} {x y : Cell} {k n v : Nat} {e : Event}

/-! ### The cells -/

/-- No cell of s is changed in t but by the store made, if one is made. -/
def State.changesOnly (s t : State) : Option (Cell × Nat) → Prop
  | none => ∀ y : Cell, t.load y = s.load y
  | some (x, v) => (∀ y : Cell, y ≠ x → t.load y = s.load y) ∧ ∀ u : State, s.store x v = some u → t.load x = u.load x

theorem changesOnly_of_store (hs : s.store x v = some u) (hl : ∀ y, t.load y = u.load y) :
    s.changesOnly t (some (x, v)) :=
  ⟨fun y hy => (hl y).trans (load_store_ne hs hy), fun w hw => by cases hs.symm.trans hw; exact hl x⟩

theorem changesOnly_of_store_none (hs : s.store x v = none) (hl : ∀ y, t.load y = s.load y) :
    s.changesOnly t (some (x, v)) :=
  ⟨fun y _ => hl y, fun w hw => by cases hs.symm.trans hw⟩

/-- A store changes the cells and nothing else. -/
theorem eq_of_store (h : s.store x v = some t) :
    ∃ cs ps b, t = { s with chans := cs, pins := ps, backend := b } :=
  ⟨_, _, _, Option.some.inj (h.symm.trans (store_of_cells h rfl rfl rfl))⟩

theorem store_withEnvironment (es : List Event) (k : Nat) (h : s.store x v = some t) :
    State.store { s with events := es, cur := k } x v = some { t with events := es, cur := k } := by
  obtain ⟨cs, ps, b, rfl⟩ := eq_of_store h
  exact store_of_cells h rfl rfl rfl

theorem State.changesOnly.ofEnvironment {es : List Event} {m : Option (Cell × Nat)}
    (h : State.changesOnly { s with events := es, cur := k } t m) : s.changesOnly t m := by
  cases m with
  | none => exact fun y => (h y).trans (load_withEnvironment es k)
  | some m =>
    exact ⟨fun y hy => (h.1 y hy).trans (load_withEnvironment es k),
      fun u hu => (h.2 _ (store_withEnvironment es k hu)).trans (load_withEnvironment es k)⟩

/-- The store an agent's program stands before, under SC. -/
theorem storeMade_ctrl {j : CtrlJob} {p : CmdProg} (hj : s.jobOf k = some j) (hr : j.rest s.cfg = some p) :
    s.storeMade (.ctrl k) =
      match p with
      | .st x v _ => if s.cfg.consistency = .sc then some (x, v) else none
      | _ => none := by
  simp only [State.storeMade, hj, Option.bind_some, hr]
  cases p <;> rfl

theorem CtrlTicked.changesOnly (h : CtrlTicked k s t) : s.changesOnly t (s.storeMade (.ctrl k)) := by
  cases h with
  | idle hj => rw [State.storeMade, hj]; exact fun _ => rfl
  | stuck j hj hr => rw [State.storeMade, hj, Option.bind_some, hr]; exact fun _ => rfl
  | respond j r hj hr => rw [storeMade_ctrl hj hr]; exact fun _ => load_reply.trans load_putJob
  | load j x f v hj hr hl => rw [storeMade_ctrl hj hr]; exact fun _ => load_putJob
  | loadNone j x f hj hr hl => rw [storeMade_ctrl hj hr]; exact fun _ => load_raise
  | store j x v p u hj hr hc hs =>
    rw [storeMade_ctrl hj hr]
    dsimp only
    rw [if_pos hc]
    exact changesOnly_of_store hs fun _ => load_putJob
  | storeNone j x v p hj hr hc hs =>
    rw [storeMade_ctrl hj hr]
    dsimp only
    rw [if_pos hc]
    exact changesOnly_of_store_none hs fun _ => load_raise
  | hold j x v p hj hr hc =>
    rw [storeMade_ctrl hj hr]
    dsimp only
    rw [if_neg (by rw [hc]; decide)]
    exact fun y => by cases y <;> rfl
  | draw j f hj hr => rw [storeMade_ctrl hj hr]; exact fun _ => load_putJob.trans load_answered
  | raise j f hj hr => rw [storeMade_ctrl hj hr]; exact fun _ => load_raise

theorem load_withHeld (hs : List Held) : State.load { s with held := hs } y = s.load y := by cases y <;> rfl

/-- After a held store has reached its cell the cells are as the store leaves them. -/
theorem load_commit {h : Held} (hs : s.store h.cell h.value = some u) : (s.commit h).load y = u.load y := by
  rcases commit_cases s h with ⟨old, w, -, hw, he⟩ | ⟨hl, -⟩
  · cases hs.symm.trans hw
    rw [he]
    cases y <;> rfl
  · have := store_isSome (s := s) (x := h.cell) (v := h.value)
    rw [hs, hl] at this
    cases this

theorem storeMade_drain : s.storeMade (.drain n) = (s.drainable n).map fun h => (h.cell, h.value) := rfl

theorem drainTick_changesOnly (n : Nat) : s.changesOnly (drainTick n s) (s.storeMade (.drain n)) := by
  rw [storeMade_drain, drainTick]
  cases hd : s.drainable n with
  | none => exact fun _ => rfl
  | some h =>
    have hload (y : Cell) : State.load { s.commit h with held := s.held.eraseIdx n } y = (s.commit h).load y :=
      load_withHeld _
    cases hs : s.store h.cell h.value with
    | some u => exact changesOnly_of_store hs fun y => (hload y).trans (load_commit hs)
    | none =>
      refine changesOnly_of_store_none hs fun y => (hload y).trans ?_
      rw [State.commit, hs]
      split
      · contradiction
      · exact load_raise

theorem storeMade_mix {j : MixJob} {g : Gate} (hj : s.mix = some j) (hc : j.c < s.cfg.nCh) :
    s.storeMade (.mix g) = j.p.map fun p => (.phase j.c, p) := by
  rw [State.storeMade, hj, Option.bind_some, if_neg (Nat.not_le.mpr hc)]

theorem MixTicked.changesOnly {g : Gate} (h : MixTicked g s t) : s.changesOnly t (s.storeMade (.mix g)) := by
  cases h with
  | idle hm => rw [State.storeMade, hm]; exact fun _ => rfl
  | deliver j hm hc =>
    rw [State.storeMade, hm, Option.bind_some, if_pos hc]
    exact fun _ => load_deliver.trans (load_withMix _)
  | store j p u hm hc hp hs =>
    rw [storeMade_mix hm hc, hp]
    exact changesOnly_of_store hs fun _ => load_withMix _
  | storeNone j p hm hc hp hs =>
    rw [storeMade_mix hm hc, hp]
    exact changesOnly_of_store_none hs fun _ => load_raise
  | gate j g v hm hc hp hg hl => rw [storeMade_mix hm hc, hp]; exact fun _ => load_withMix _
  | frames j p hm hc hp hg hl => rw [storeMade_mix hm hc, hp]; exact fun _ => load_runFrames
  | gateNone j g hm hc hp hg hl => rw [storeMade_mix hm hc, hp]; exact fun _ => load_raise
  | framesNone j hm hc hp hg hl => rw [storeMade_mix hm hc, hp]; exact fun _ => load_raise

/-- A single step of an agent changes no cell but by the store it makes. -/
theorem movesTo_changesOnly (he : isSingleStep e = true) (h : movesTo s t e) : s.changesOnly t (s.storeMade e) := by
  cases e with
  | command k w => cases he
  | request n => cases he
  | issue k w => obtain ⟨-, -, ⟨i, -, rfl⟩ | ⟨-, rfl⟩⟩ := h <;> exact fun y => by cases y <;> rfl
  | ask n => obtain ⟨-, rfl⟩ := h; exact fun _ => load_withMix _
  | ctrl k =>
    subst h
    exact (ctrlTick_cases rfl).changesOnly.ofEnvironment
  | drain n => subst h; exact drainTick_changesOnly n
  | see n => subst h; exact fun y => by cases y <;> rfl
  | mix g => subst h; exact (mixTick_cases rfl).changesOnly

/-! ### What an agent sees -/

theorem view_congr (hu : (t.unseen.filter fun u => u.agent == a && u.cell == x) =
    s.unseen.filter fun u => u.agent == a && u.cell == x) (hl : t.load x = s.load x) : t.view a x = s.view a x := by
  rw [State.view, State.view, ← List.head?_filter, ← List.head?_filter, hu, hl]

theorem loadFor_congr (hh : (t.held.filter fun h => h.agent == k && h.cell == x) =
    s.held.filter fun h => h.agent == k && h.cell == x) (hv : t.view (.ctrl k) x = s.view (.ctrl k) x) :
    t.loadFor k x = s.loadFor k x := by
  rw [State.loadFor, State.loadFor, ← List.head?_filter, ← List.head?_filter, List.filter_reverse, List.filter_reverse,
    hh, hv]

theorem seenBy_congr (hh : t.held = s.held) (hu : t.unseen = s.unseen) (hl : t.load x = s.load x) :
    t.seenBy a x = s.seenBy a x := by
  have hv (b : Agent) : t.view b x = s.view b x := view_congr (by rw [hu]) hl
  cases a with
  | mix => exact hv .mix
  | ctrl k => exact loadFor_congr (by rw [hh]) (hv _)

/-- An element that fails a test may be removed before the test is applied to the rest. -/
theorem filter_eraseIdx_of_not {α : Type} {p : α → Bool} {l : List α} {n : Nat} (h : ∀ b, l[n]? = some b → p b = false) :
    (l.eraseIdx n).filter p = l.filter p := by
  by_cases hn : n < l.length
  · have hp : ¬ p l[n] = true := by simp [h _ (List.getElem?_eq_getElem hn)]
    conv_rhs => rw [← List.take_append_drop n l, List.drop_eq_getElem_cons hn]
    rw [List.eraseIdx_eq_take_drop_succ, List.filter_append, List.filter_append, List.filter_cons_of_neg hp]
  · rw [List.eraseIdx_of_length_le (Nat.not_lt.mp hn)]

/-- Another control agent's step changes nothing that an agent sees, its store being held. -/
theorem CtrlTicked.seenBy_eq (hc : s.cfg.consistency = .perCell) (ha : a ≠ .ctrl k) (h : CtrlTicked k s t) :
    t.seenBy a x = s.seenBy a x := by
  cases h with
  | idle | stuck => rfl
  | respond => exact seenBy_congr rfl rfl (load_reply.trans load_putJob)
  | load => exact seenBy_congr rfl rfl load_putJob
  | loadNone | storeNone | raise => exact seenBy_congr rfl rfl load_raise
  | store j x v p u hj hr hsc => cases hsc.symm.trans hc
  | hold j z v p =>
    have hv (b : Agent) : State.view { s.putJob k (some (j.advance v)) with held := s.held ++ [⟨k, z, z.kept v⟩] } b x =
        s.view b x := view_congr rfl ((load_withHeld _).trans load_putJob)
    cases a with
    | mix => exact hv .mix
    | ctrl l =>
      have hl : (k == l) = false := beq_false_of_ne fun e => ha (by rw [e])
      exact loadFor_congr (by simp [List.filter_append, hl]) (hv _)
  | draw => exact seenBy_congr (by simp) (by simp) (load_putJob.trans load_answered)

/-- A held store that reaches its cell changes nothing that its agent sees of the other cells. -/
theorem view_commit_own {h : Held} (hx : x ≠ h.cell) : (s.commit h).view (.ctrl h.agent) x = s.view (.ctrl h.agent) x := by
  refine view_congr ?_ (load_commit_ne hx)
  rcases commit_cases s h with ⟨old, u, -, -, he⟩ | ⟨-, he⟩
  · have hothers (u : Unseen) (hu : u ∈ ((allAgents s.cfg).filter fun a => a != .ctrl h.agent).map
        fun a => (⟨a, h.cell, old⟩ : Unseen)) : ¬ (u.agent == .ctrl h.agent && u.cell == x) = true := by
      obtain ⟨b, -, rfl⟩ := List.mem_map.mp hu
      simp [Ne.symm hx]
    rw [he]
    dsimp only
    rw [List.filter_append, List.filter_eq_nil_iff.mpr hothers, List.append_nil, List.filter_filter]
    refine List.filter_congr fun u _ => ?_
    by_cases e : u.cell = x
    · simp [e, hx]
    · simp [e]
  · rw [he]; rfl

theorem mem_allAgents {cfg : Config} (ha : a.exists cfg) : a ∈ allAgents cfg := by
  cases a with
  | mix => exact List.mem_cons_self
  | ctrl k => exact List.mem_cons_of_mem _ (List.mem_map_of_mem (List.mem_range.mpr ha))

/-- A held store that reaches its cell changes what its agent sees of that cell and nothing else. -/
theorem drainTick_seenBy (ha : a.exists s.cfg)
    (hne : ∀ h, s.held[n]? = some h → a = .ctrl h.agent → x ≠ h.cell) :
    (drainTick n s).seenBy a x = s.seenBy a x := by
  unfold drainTick
  cases hd : s.drainable n with
  | none => rfl
  | some h =>
    have hn : s.held[n]? = some h := (Option.filter_eq_some_iff.mp hd).1
    have hv : (s.commit h).view a x = s.view a x := by
      by_cases e : a = .ctrl h.agent
      · subst e
        exact view_commit_own (hne h hn rfl)
      · exact view_commit (mem_allAgents ha) e
    cases a with
    | mix => exact hv
    | ctrl l =>
      refine loadFor_congr (filter_eraseIdx_of_not fun g hg => ?_) hv
      cases hn.symm.trans hg
      by_cases e : h.agent = l
      · have hx : (h.cell == x) = false := beq_false_of_ne (hne h hn (by rw [e])).symm
        rw [hx, Bool.and_false]
      · rw [beq_false_of_ne e, Bool.false_and]

/-- A store that an agent sees changes what that agent sees of its cell and nothing else. -/
theorem seeTick_seenBy (hne : ∀ u, s.unseen[n]? = some u → a = u.agent → x ≠ u.cell) :
    (seeTick n s).seenBy a x = s.seenBy a x := by
  have hv : (seeTick n s).view a x = s.view a x := by
    refine view_congr (filter_eraseIdx_of_not fun u hu => ?_) (by cases x <;> rfl)
    by_cases e : u.agent = a
    · rw [beq_false_of_ne (hne u hu e.symm).symm, Bool.and_false]
    · rw [beq_false_of_ne e, Bool.false_and]
  cases a with
  | mix => exact hv
  | ctrl l => exact loadFor_congr rfl hv

/-- MIX's steps hold no store and see none. -/
theorem MixTicked.held_unseen_eq {g : Gate} (h : MixTicked g s t) : t.held = s.held ∧ t.unseen = s.unseen := by
  cases h with
  | store j p u hm hc hp hs =>
    obtain ⟨-, -, -, -, -, -, -, -, -, -, hheld, hunseen⟩ := store_outside hs
    exact ⟨hheld, hunseen⟩
  | frames j p =>
    unfold State.runFrames
    dsimp only
    split <;> exact ⟨rfl, rfl⟩
  | _ => exact ⟨rfl, rfl⟩

/-- MIX's steps change nothing that an agent sees of the control agents' cells. -/
theorem MixTicked.seenBy_eq {g : Gate} (hx : x.controlOwned = true) (h : MixTicked g s t) :
    t.seenBy a x = s.seenBy a x := by
  obtain ⟨hheld, hunseen⟩ := h.held_unseen_eq
  exact seenBy_congr hheld hunseen (h.owned hx)

/-- What an existing agent sees of a control agents' cell changes by its own step, by its own held store reaching that cell,
or by its seeing a store to that cell. -/
theorem movesTo_seenBy (hc : s.cfg.consistency = .perCell) (he : isSingleStep e = true) (h : movesTo s t e)
    (ha : a.exists s.cfg) (hx : x.controlOwned = true) (hne : t.seenBy a x ≠ s.seenBy a x) :
    (∃ k, e = .ctrl k ∧ a = .ctrl k) ∨
    (∃ n h, e = .drain n ∧ s.held[n]? = some h ∧ a = .ctrl h.agent ∧ x = h.cell) ∨
    ∃ n u, e = .see n ∧ s.unseen[n]? = some u ∧ a = u.agent ∧ x = u.cell := by
  by_contra hcon
  simp only [not_or, not_exists, not_and] at hcon
  obtain ⟨hctrl, hdrain, hsee⟩ := hcon
  refine hne ?_
  cases e with
  | command k w => cases he
  | request n => cases he
  | issue k w =>
    obtain ⟨-, -, ⟨i, -, rfl⟩ | ⟨-, rfl⟩⟩ := h <;> exact seenBy_congr rfl rfl (by cases x <;> rfl)
  | ask n => obtain ⟨-, rfl⟩ := h; exact seenBy_congr rfl rfl (load_withMix _)
  | ctrl k => subst h; exact ((ctrlTick_cases rfl).seenBy_eq (s := { s with cur := k }) hc (hctrl k rfl) :)
  | drain n => subst h; exact drainTick_seenBy ha (hdrain n · rfl)
  | see n => subst h; exact seeTick_seenBy (hsee n · rfl)
  | mix g => subst h; exact (mixTick_cases rfl).seenBy_eq hx

/-- An agent that has just made a store under PerCell sees what the cell keeps of it (20_memory.md R62 (b)). -/
theorem CtrlTicked.seenBy_store {j : CtrlJob} {p : CmdProg} (hc : s.cfg.consistency = .perCell) (hj : s.jobOf k = some j)
    (hr : j.rest s.cfg = some (.st x v p)) (h : CtrlTicked k s t) : t.seenBy (.ctrl k) x = some (x.kept v) := by
  cases h with
  | hold j' x' v' p' hj' hr' =>
    cases hj.symm.trans hj'
    cases hr.symm.trans hr'
    exact loadFor_hold rfl
  | idle hj' => cases hj.symm.trans hj'
  | store _ _ _ _ _ _ _ hsc => cases hsc.symm.trans hc
  | storeNone _ _ _ _ _ _ hsc => cases hsc.symm.trans hc
  | stuck _ hj' hr' | respond _ _ hj' hr' | load _ _ _ _ hj' hr' | loadNone _ _ _ hj' hr' | draw _ _ hj' hr'
  | raise _ _ hj' hr' =>
    cases hj.symm.trans hj'
    cases hr.symm.trans hr'

/-- Settles O16: the cells by the store each single step makes, the views by what each leaves an agent to see. -/
theorem singleStepTouchesOneCell : Obligations.SingleStepTouchesOneCell := by
  unfold Obligations.SingleStepTouchesOneCell
  intro s t e es he hsingle h
  obtain ⟨-, hm⟩ := step_movesTo he h
  refine ⟨?_, fun hc => ⟨?_, fun a x ha hx hne => ?_⟩⟩
  · exact (movesTo_changesOnly hsingle hm).ofEnvironment
  · rintro k j x v p rfl hj hr
    subst hm
    exact (ctrlTick_cases rfl).seenBy_store (s := { s with events := es, cur := k }) hc hj hr
  · exact movesTo_seenBy (s := { s with events := es }) hc hsingle hm ha hx hne

end Sys2Proof.Machine
end

section
/-! Runs of several moves, and the moves that settle an agent before a whole operation of its: its held stores reach their
cells in their order, then it sees what it has not seen (20_memory.md R62; log 2). -/

namespace Sys2Proof.Machine

open Sys2Proof

variable {s t : State} {a : Agent} {es : List Event} {k : Nat}

/-- A run that answers a next state goes on from it. -/
theorem runSteps_add {m : Nat} (n : Nat) (h : runSteps m s = .next t) : runSteps (m + n) s = runSteps n t := by
  induction m generalizing s with
  | zero => cases h; rw [Nat.zero_add]
  | succ m ih =>
    cases hs : step s with
    | next u =>
      rw [runSteps_succ hs] at h
      rw [Nat.add_right_comm, runSteps_succ hs, ih h]
    | fault f => rw [runSteps, hs] at h; cases h
    | refused r => rw [runSteps, hs] at h; cases h

/-! ### Seeing every store -/

theorem foldl_eraseIdx_map_succ {α : Type} (x : α) (l : List α) (ns : List Nat) :
    (ns.map (· + 1)).foldl List.eraseIdx (x :: l) = x :: ns.foldl List.eraseIdx l := by
  induction ns generalizing l with
  | nil => rfl
  | cons n ns ih => exact ih _

/-- The elements that fail a test can be removed one after another, by their positions. -/
theorem exists_foldl_eraseIdx {α : Type} (p : α → Bool) (l : List α) :
    ∃ ns : List Nat, ((∀ x ∈ l, p x = true) → ns = []) ∧ ns.foldl List.eraseIdx l = l.filter p := by
  induction l with
  | nil => exact ⟨[], fun _ => rfl, rfl⟩
  | cons x l ih =>
    obtain ⟨ns, hnil, hns⟩ := ih
    cases hx : p x with
    | true =>
      refine ⟨ns.map (· + 1), fun h => ?_, ?_⟩
      · rw [hnil fun y hy => h y (List.mem_cons_of_mem _ hy), List.map_nil]
      · rw [foldl_eraseIdx_map_succ, hns, List.filter_cons_of_pos hx]
    | false =>
      refine ⟨0 :: ns, fun h => absurd (h x List.mem_cons_self) (by rw [hx]; decide), ?_⟩
      rw [List.foldl_cons, List.eraseIdx_cons_zero, hns, List.filter_cons_of_neg (by rw [hx]; decide)]

theorem runSteps_map_see (hf : s.fault = none) (ns : List Nat) (us : List Unseen) :
    runSteps ns.length { s with unseen := us, events := ns.map .see ++ es } =
      .next { s with unseen := ns.foldl List.eraseIdx us, events := es } := by
  induction ns generalizing us with
  | nil => rfl
  | cons n ns ih =>
    have hstep := step_see (s := { s with unseen := us, events := .see n :: (ns.map .see ++ es) }) hf rfl
    exact (runSteps_succ hstep).trans (ih _)

/-- Some moves let an agent see every store, none where it has seen them all. -/
theorem exists_runSteps_see (hf : s.fault = none) (a : Agent) :
    ∃ ns : List Nat, ((∀ u ∈ s.unseen, u.agent ≠ a) → ns = []) ∧
      ∀ es, runSteps ns.length { s with events := ns.map .see ++ es } =
        .next { s with unseen := s.unseen.filter fun u => u.agent != a, events := es } := by
  obtain ⟨ns, hnil, hns⟩ := exists_foldl_eraseIdx (fun u : Unseen => u.agent != a) s.unseen
  exact ⟨ns, fun h => hnil fun u hu => bne_iff_ne.mpr (h u hu), fun es => hns ▸ runSteps_map_see hf ns s.unseen⟩

/-! ### Held stores that reach their cells -/

/-- s with other held stores, other moves to come and another current agent: no cell depends on them. -/
def State.beside (s : State) (hs : List Held) (es : List Event) (k : Nat) : State :=
  { s with held := hs, events := es, cur := k }

/-- A held store that reaches its cell does not touch the other held stores nor the environment. -/
theorem commit_beside (s : State) (h : Held) (hs : List Held) (es : List Event) (k : Nat) :
    (s.beside hs es k).commit h = (s.commit h).beside hs es k := by
  have hload : (s.beside hs es k).load h.cell = s.load h.cell := by cases h.cell <;> rfl
  unfold State.commit
  rw [hload]
  cases hl : s.load h.cell with
  | none => rfl
  | some old =>
    obtain ⟨u, hu⟩ : ∃ u, s.store h.cell h.value = some u :=
      Option.isSome_iff_exists.mp (by rw [store_isSome, hl]; rfl)
    have hu' : (s.beside hs es k).store h.cell h.value = some (u.beside hs es k) := by
      obtain ⟨cs, ps, b, rfl⟩ := eq_of_store hu
      exact store_of_cells hu rfl rfl rfl
    simp only [hu, hu']
    rfl

theorem foldl_commit_beside (gs : List Held) (s : State) (hs : List Held) (es : List Event) (k : Nat) :
    gs.foldl State.commit (s.beside hs es k) = (gs.foldl State.commit s).beside hs es k := by
  induction gs generalizing s with
  | nil => rfl
  | cons g gs ih => rw [List.foldl_cons, List.foldl_cons, commit_beside, ih]

/-- Settling an agent does not touch the environment. -/
theorem settled_withEnvironment (s : State) (a : Agent) (es : List Event) (k : Nat) :
    State.settled { s with events := es, cur := k } a = { s.settled a with events := es, cur := k } := by
  have h := foldl_commit_beside (s.held.filter fun h => Agent.ctrl h.agent == a) s s.held es k
  rw [State.beside] at h
  rw [State.settled, h]
  rfl

/-- Settling MIX, which holds no store, is its seeing every store. -/
theorem settled_mix_eq (s : State) : s.settled .mix = { s with unseen := s.unseen.filter fun u => u.agent != .mix } := by
  have hnone : (s.held.filter fun h => Agent.ctrl h.agent == .mix) = [] := List.filter_eq_nil_iff.mpr nofun
  have hall : (s.held.filter fun h => Agent.ctrl h.agent != .mix) = s.held := List.filter_eq_self.mpr fun _ _ => rfl
  rw [State.settled, hnone, hall]
  rfl

/-- The oldest store of its agent that is held may reach its cell. -/
theorem drainTick_oldest {pre post : List Held} {h : Held} (hs : s.held = pre ++ h :: post)
    (hpre : ∀ g ∈ pre, g.agent ≠ h.agent) :
    drainTick pre.length s = (s.commit h).beside (pre ++ post) s.events s.cur := by
  have hd : s.drainable pre.length = some h := by
    have hany : (pre.any fun o => o.agent == h.agent && o.cell == h.cell) = false :=
      List.any_eq_false.mpr fun o ho => by simp [hpre o ho]
    simp [State.drainable, hs, hany]
  obtain ⟨-, -, -, -, -, hcur, hevents, -⟩ := commit_outside s h
  rw [drainTick, hd, hs, State.beside, ← hcur, ← hevents]
  simp [List.eraseIdx_append_of_length_le]

/-- Some moves let the stores that an agent holds reach their cells, oldest first. -/
theorem exists_runSteps_drain {k : Nat} : ∀ (post pre : List Held) {s : State}, s.Inv → s.fault = none →
    s.held = pre ++ post → (∀ h ∈ pre, h.agent ≠ k) →
    ∃ ns : List Nat, ∀ es, runSteps ns.length (s.beside (pre ++ post) (ns.map .drain ++ es) s.cur) =
      .next (((post.filter fun h => Agent.ctrl h.agent == .ctrl k).foldl State.commit s).beside
        (pre ++ post.filter fun h => Agent.ctrl h.agent != .ctrl k) es s.cur) := by
  intro post
  induction post with
  | nil => exact fun pre s _ _ _ _ => ⟨[], fun es => rfl⟩
  | cons h post ih =>
    intro pre s hi hf hs hpre
    by_cases hk : h.agent = k
    · subst hk
      have htick := drainTick_oldest hs hpre
      obtain ⟨hi', hf'⟩ := hi.drainTick pre.length
      rw [htick] at hi' hf'
      obtain ⟨ns, hns⟩ := ih pre hi' (hf'.trans hf) rfl hpre
      refine ⟨pre.length :: ns, fun es => ?_⟩
      let u := s.beside (pre ++ h :: post) (.drain pre.length :: (ns.map .drain ++ es)) s.cur
      have hstep : step u = .next ((s.commit h).beside (pre ++ post) (ns.map .drain ++ es) s.cur) := by
        have hnext := drainTick_oldest (s := s.beside (pre ++ h :: post) (ns.map .drain ++ es) s.cur) rfl hpre
        rw [commit_beside] at hnext
        exact (step_drain (s := u) hf rfl).trans (congrArg _ hnext)
      have hrun := hns es
      rw [foldl_commit_beside] at hrun
      refine (runSteps_succ hstep).trans (hrun.trans ?_)
      rw [List.filter_cons_of_pos (by simp), List.filter_cons_of_neg (by simp)]
      rfl
    · obtain ⟨ns, hns⟩ := ih (pre ++ [h]) hi hf (by rw [hs, List.append_assoc]; rfl)
        (by simpa [or_imp, forall_and] using ⟨hpre, hk⟩)
      refine ⟨ns, fun es => ?_⟩
      have hrun := hns es
      rw [List.append_assoc, List.append_assoc, List.singleton_append, List.singleton_append] at hrun
      rw [List.filter_cons_of_neg (by simpa using hk), List.filter_cons_of_pos (by simpa using hk)]
      exact hrun

/-- Some moves settle a control agent, none under SC. -/
theorem exists_runSteps_settle (hi : s.Inv) (hf : s.fault = none) (k : Nat) :
    ∃ ps : List Event, (∀ e ∈ ps, s.cfg.consistency = .perCell ∧ ∃ n, e = .drain n ∨ e = .see n) ∧
      ∀ es, runSteps ps.length { s with events := ps ++ es } =
        .next { s.settled (.ctrl k) with events := es, cur := s.cur } := by
  cases hc : s.cfg.consistency with
  | sc => exact ⟨[], nofun, fun es => by rw [hi.settled_sc hc]; rfl⟩
  | perCell =>
    let t := ((s.held.filter fun h => Agent.ctrl h.agent == .ctrl k).foldl State.commit s).beside
      (s.held.filter fun h => Agent.ctrl h.agent != .ctrl k) s.events s.cur
    have hfault : t.fault = none :=
      (hi.commits (fun _ => hc) fun g hg => hi.held g (List.mem_of_mem_filter hg)).2.1.trans hf
    obtain ⟨ns, hns⟩ := exists_runSteps_drain (k := k) s.held [] hi hf rfl nofun
    obtain ⟨ms, -, hms⟩ := exists_runSteps_see hfault (.ctrl k)
    refine ⟨ns.map .drain ++ ms.map .see, ?_, fun es => ?_⟩
    · intro e he
      rcases List.mem_append.mp he with he | he <;> obtain ⟨n, -, rfl⟩ := List.mem_map.mp he
      exacts [⟨rfl, n, .inl rfl⟩, ⟨rfl, n, .inr rfl⟩]
    · rw [List.length_append, List.length_map, List.length_map, List.append_assoc]
      exact (runSteps_add _ (hns _)).trans (hms es)

end Sys2Proof.Machine
end

section
/-! O54: a command taken step by step with no other agent between. From a settled agent each access reads and stores the cells
themselves, a store of PerCell reaching its cell and being seen at once, so the steps are Prog.run, access by access. -/

namespace Sys2Proof.Machine

open Sys2Proof

variable {s t u : State} {k : Nat} {es : List Event} {j : CtrlJob}

/-- Agent k's steps, and under PerCell moves by which stores reach their cells and are seen, lead from s to t, where the moves
es are still to come. -/
def State.runsTo (s : State) (k : Nat) (es : List Event) (t : State) : Prop :=
  ∃ ms : List Event, (∀ e ∈ ms, e = .ctrl k ∨ s.cfg.consistency = .perCell ∧ ∃ n, e = .drain n ∨ e = .see n) ∧
    runSteps ms.length { s with events := ms ++ es } = .next t

theorem State.runsTo.trans (h : ∀ fs, s.runsTo k fs { t with events := fs }) (hcfg : t.cfg = s.cfg)
    (h' : t.runsTo k es u) : s.runsTo k es u := by
  obtain ⟨ns, hns, hrun'⟩ := h'
  obtain ⟨ms, hms, hrun⟩ := h (ns ++ es)
  refine ⟨ms ++ ns, fun e he => (List.mem_append.mp he).elim (hms e) (hcfg ▸ hns e), ?_⟩
  rw [List.length_append, List.append_assoc, runSteps_add _ hrun, hrun']

theorem runsTo_ctrlTick (hf : s.fault = none) : s.runsTo k es (ctrlTick k { s with events := es, cur := k }) :=
  ⟨[.ctrl k], fun _ he => .inl (List.mem_singleton.mp he), runSteps_succ (step_ctrl hf rfl)⟩

/-! ### Each access -/

/-- Agent k has nothing held and has seen every store. -/
def State.calm (s : State) (k : Nat) : Prop := (∀ h ∈ s.held, h.agent ≠ k) ∧ ∀ u ∈ s.unseen, u.agent ≠ .ctrl k

theorem State.calm.loadFor (hc : s.calm k) (x : Cell) : s.loadFor k x = s.load x :=
  (loadFor_of_notHeld hc.1).trans (view_of_seen hc.2)

/-- Agent k has made one more access, which left the cells as in t and moved v. -/
def State.accessed (t : State) (k : Nat) (j : CtrlJob) (v : Nat) : State :=
  { t.putJob k (some (j.advance v)) with cur := k }

theorem runsTo_done {r : Reply} (hf : s.fault = none) (hj : s.jobOf k = some j) (hr : j.rest s.cfg = some (.done r)) :
    s.runsTo k es ((State.putJob { s with events := es, cur := k } k none).reply k r) := by
  have h := runsTo_ctrlTick (k := k) (es := es) hf
  have hj' : State.jobOf { s with events := es, cur := k } k = some j := hj
  simpa only [ctrlTick, hj', hr, State.stepProgram] using h

theorem runsTo_ld {x : Cell} {f : Nat → CmdProg} {v : Nat} (hf : s.fault = none) (hj : s.jobOf k = some j)
    (hr : j.rest s.cfg = some (.ld x f)) (hl : s.loadFor k x = some v) (es : List Event) :
    s.runsTo k es { s.accessed k j v with events := es } := by
  have h := runsTo_ctrlTick (k := k) (es := es) hf
  have hj' : State.jobOf { s with events := es, cur := k } k = some j := hj
  have hl' : State.loadFor { s with events := es, cur := k } k x = some v := by rw [← hl]; cases x <;> rfl
  simp only [ctrlTick, hj', hr, State.stepProgram, hl'] at h
  exact h

theorem runsTo_draw {f : Bool → CmdProg} (hf : s.fault = none) (hj : s.jobOf k = some j)
    (hr : j.rest s.cfg = some (.draw f)) (es : List Event) :
    s.runsTo k es { s.answered.accessed k j s.answer.toNat with events := es } := by
  have h := runsTo_ctrlTick (k := k) (es := es) hf
  have hj' : State.jobOf { s with events := es, cur := k } k = some j := hj
  have ha : State.answered { s with events := es, cur := k } = { s.answered with events := es, cur := k } := by
    unfold State.answered
    cases s.answers <;> rfl
  simp only [ctrlTick, hj', hr, State.stepProgram, ha] at h
  exact h

theorem runsTo_st {x : Cell} {v : Nat} {p : CmdProg} (hf : s.fault = none) (hj : s.jobOf k = some j)
    (hr : j.rest s.cfg = some (.st x v p)) (hs : s.store x v = some t) (hc : s.calm k) (es : List Event) :
    s.runsTo k es { t.accessed k j v with events := es } := by
  cases hcons : s.cfg.consistency with
  | sc =>
    have h := runsTo_ctrlTick (k := k) (es := es) hf
    have hj' : State.jobOf { s with events := es, cur := k } k = some j := hj
    simp only [ctrlTick, hj', hr, State.stepProgram, State.storeFor, hcons, store_withEnvironment es k hs] at h
    exact h
  | perCell =>
    obtain ⟨ms, hms, hrun⟩ := runSteps_store (es := es) hf hcons hj hr hs hc.1 hc.2
    exact ⟨ms, fun e he => (hms e he).imp_right fun h => ⟨hcons, h⟩, hrun⟩

/-! ### The whole program -/

/-- The state from which the rest of agent k's command is run: s with the agent idle and the moves es still to come. -/
def State.idleAt (s : State) (k : Nat) (es : List Event) : State := State.putJob { s with events := es, cur := k } k none

theorem accessed_idleAt {v : Nat} : (s.accessed k j v).idleAt k es = s.idleAt k es := by
  simp [State.idleAt, State.accessed, State.putJob]

theorem load_idleAt {x : Cell} : (s.idleAt k es).load x = s.load x := by cases x <;> rfl

theorem store_idleAt {x : Cell} {v : Nat} (hs : s.store x v = some t) : (s.idleAt k es).store x v = some (t.idleAt k es) :=
  store_putJob (store_withEnvironment es k hs)

theorem answered_idleAt : (s.idleAt k es).answered = s.answered.idleAt k es := by
  unfold State.answered State.idleAt
  cases s.answers <;> rfl

/-- An agent whose command goes on soundly after an access keeps the invariant. -/
theorem State.Inv.accessed {p : CmdProg} {v : Nat} (hi : t.Inv) (hr : (j.advance v).rest t.cfg = some p)
    (h1 : p.staysIn t.cfg) (h2 : p.storesOwned) : (t.accessed k j v).Inv :=
  (hi.putJob k (by rintro _ ⟨⟩; exact ⟨p, hr, h1, h2⟩)).withEnvironment t.events k

/-- A calm agent's steps run the rest of its command to the response. -/
theorem runsTo_run (p : CmdProg) : ∀ {s : State} {j : CtrlJob}, s.Inv → s.fault = none → s.jobOf k = some j →
    j.rest s.cfg = some p → s.calm k → s.runsTo k es (p.run (fun r t => t.reply k r) (s.idleAt k es)) := by
  induction p with
  | done r => exact fun hi hf hj hr hc => runsTo_done hf hj hr
  | ld x f ih =>
    intro s j hi hf hj hr hc
    obtain ⟨⟨hx, hk⟩, ho⟩ := (hi.job hj).of_rest hr
    obtain ⟨v, hl, hm⟩ := hi.load hx
    rw [run_ld (load_idleAt.trans hl), ← accessed_idleAt (j := j) (v := v)]
    exact .trans (runsTo_ld hf hj hr ((hc.loadFor x).trans hl)) rfl
      (ih v (hi.accessed (rest_ld hr) (hk v hm) (ho v)) hf (jobOf_putJob_self (jobOf_lt hj)) (rest_ld hr) hc)
  | st x v p ih =>
    intro s j hi hf hj hr hc
    obtain ⟨⟨hx, hm, hk⟩, -, ho⟩ := (hi.job hj).of_rest hr
    obtain ⟨t, hs⟩ := hi.store_some (v := v) hx
    obtain ⟨hcfg, hctrls, -, -, -, hfault, -, -, -, -, hheld, hunseen⟩ := store_outside hs
    have hr' : (j.advance v).rest t.cfg = some p := hcfg ▸ rest_st hr
    rw [run_st (store_idleAt hs), ← accessed_idleAt (j := j) (v := v)]
    refine .trans (runsTo_st hf hj hr hs hc) hcfg
      (ih ((hi.store hm hs).accessed hr' (hcfg ▸ hk) ho) (hfault.trans hf)
        (jobOf_putJob_self (hctrls ▸ jobOf_lt hj)) hr' ?_)
    exact ⟨hheld ▸ hc.1, hunseen ▸ hc.2⟩
  | draw f ih =>
    intro s j hi hf hj hr hc
    obtain ⟨hk, ho⟩ := (hi.job hj).of_rest hr
    have hr' : (j.advance s.answer.toNat).rest s.answered.cfg = some (f s.answer) := s.answered_cfg.symm ▸ rest_draw hr
    show s.runsTo k es ((f s.answer).run _ (s.idleAt k es).answered)
    rw [answered_idleAt, ← accessed_idleAt (j := j) (v := s.answer.toNat)]
    refine .trans (runsTo_draw hf hj hr) s.answered_cfg
      (ih _ (hi.answered.accessed hr' (s.answered_cfg.symm ▸ hk _) (ho _)) (s.answered_fault.trans hf)
        (jobOf_putJob_self (s.answered_ctrls.symm ▸ jobOf_lt hj)) hr' ?_)
    exact ⟨s.answered_held.symm ▸ hc.1, s.answered_unseen.symm ▸ hc.2⟩
  | raise f => exact fun hi hf hj hr hc => ((hi.job hj).of_rest hr).2.elim

/-! ### The command from its delivery -/

theorem calm_settled (s : State) (k : Nat) : (s.settled (.ctrl k)).calm k := by
  refine ⟨fun h hh => ?_, fun u hu => ?_⟩
  · have := (List.mem_filter.mp hh).2
    rintro rfl
    simp at this
  · simpa using (List.mem_filter.mp hu).2

/-- An idle agent that takes a command and drops it is idle. -/
theorem putJob_none_of_idle (hk : k < s.ctrls.length) (hj : s.jobOf k = none) : s.putJob k none = s := by
  have hget : s.ctrls[k] = none := by simpa [State.jobOf, hk] using hj
  have hset : s.ctrls.set k none = s.ctrls := by rw [← hget, List.set_getElem_self]
  rw [State.putJob, hset]

theorem step_issue {w : CmdWord} {i : Instr} (hf : s.fault = none) (he : s.events = .issue k w :: es)
    (hk : k < s.cfg.nCtrl) (hj : s.jobOf k = none) (hd : decodeCommand w = .ok i) :
    step s = .next (State.putJob { s with events := es, cur := k } k (some (.start i))) := by
  have hfetch : fetch s = handleEvent { s with events := es } (.issue k w) := by simp [fetch, hf, he]
  have hj' : State.jobOf { s with events := es, cur := k } k = none := hj
  simp only [step, hfetch, handleEvent, deliverCommand, if_neg (Nat.not_le.mpr hk), hj', Option.isSome_none,
    Bool.false_eq_true, if_false, hd]

/-- A calm idle agent that takes a command leaves, by its steps, what exec of the command leaves. -/
theorem exists_runSteps_issue {w : CmdWord} {i : Instr} (es : List Event) (hi : s.Inv) (hf : s.fault = none)
    (hk : k < s.cfg.nCtrl) (hj : s.jobOf k = none) (hc : s.calm k) (hd : decodeCommand w = .ok i) :
    ∃ (ms : List Event) (t : State),
      (∀ e ∈ ms, e = .ctrl k ∨ s.cfg.consistency = .perCell ∧ ∃ n, e = .drain n ∨ e = .see n) ∧
      exec i { s with events := es, cur := k } = .next t ∧
      runSteps (ms.length + 1) { s with events := .issue k w :: (ms ++ es) } = .next t := by
  let v : State := State.putJob { s with events := es, cur := k } k (some (.start i))
  have hlen : k < s.ctrls.length := hi.agents ▸ hk
  have hv : v.Inv := (hi.withEnvironment es k).putJob k (by rintro _ ⟨⟩; exact CtrlJob.start_sound (decode_isCommand hd))
  obtain ⟨p, hp⟩ := Option.isSome_iff_exists.mp ((commandProgram_isSome (cfg := s.cfg)).trans (decode_isCommand hd))
  have hidle : v.idleAt k es = { s with events := es, cur := k } := by
    rw [show v.idleAt k es = State.putJob { s with events := es, cur := k } k none by simp [v, State.idleAt, State.putJob]]
    exact putJob_none_of_idle hlen hj
  obtain ⟨ms, hms, hrun⟩ := runsTo_run (es := es) p hv hf (jobOf_putJob_self hlen) (rest_start.trans hp) hc
  rw [hidle] at hrun
  have hstep := step_issue (s := { s with events := .issue k w :: (ms ++ es) }) hf rfl hk hj hd
  exact ⟨ms, _, hms, exec_command hp, (runSteps_succ hstep).trans hrun⟩

/-- Settles O54: some moves settle the agent, it takes the word, and its steps run the command's program. -/
theorem uninterruptedCommandIsExec : Obligations.UninterruptedCommandIsExec := by
  unfold Obligations.UninterruptedCommandIsExec
  intro s k w i es hi hf hk hj hd
  obtain ⟨ps, hps, hsettle⟩ := exists_runSteps_settle hi hf k
  obtain ⟨hui, huf⟩ := hi.settled (.ctrl k)
  have hcfg : (s.settled (.ctrl k)).cfg = s.cfg := s.settled_cfg (.ctrl k)
  obtain ⟨ms, t, hms, hexec, hrun⟩ := exists_runSteps_issue (s := { s.settled (.ctrl k) with cur := s.cur }) es
    (hui.withEnvironment _ _) (huf.trans hf) (hcfg.symm ▸ hk) ((jobOf_eq_of_ctrls (s.settled_ctrls _)).trans hj)
    (calm_settled s k) hd
  refine ⟨ps, ms, t, hps, fun e he => hcfg ▸ hms e he, ?_, ?_⟩
  · rw [settled_withEnvironment]
    exact hexec
  · exact (runSteps_add _ (hsettle _)).trans hrun

end Sys2Proof.Machine
end

section
/-! O55: a buffer mixed step by step with no other move between. What is left of a buffer in progress is run as a program; each
step of MIX leaves what that program leaves, and the gate loads of a channel, which change nothing, may come in any order. -/

namespace Sys2Proof.Machine

open Sys2Proof

variable {s t : State} {j : MixJob} {g : Gate}

/-! ### What is left of a buffer -/

/-- The program of what is left of a buffer. Gate values that are latched are loaded again. -/
def MixJob.rest (cfg : Config) (j : MixJob) : Prog (List Int) :=
  match j.p with
  | some p => .st (.phase j.c) p (mixChannels cfg.modulus (cfg.nCh - (j.c + 1)) (j.c + 1) j.out)
  | none => mixChannels cfg.modulus (cfg.nCh - j.c) j.c j.out

/-- What MIX leaves of s at the end of buffer j, where no other agent moves. -/
def State.bufferEnd (s : State) (j : MixJob) : State :=
  (j.rest s.cfg).run (fun out t => t.deliver out) { s with mix := none }

/-- The gate values that are latched are those of the cells, and let the channel through. -/
def MixJob.current (s : State) (j : MixJob) : Prop :=
  ∀ g v, j.latched g = some v → v ≠ 0 ∧ s.load (gateCell j.c g) = some v

/-- What the gate load g of a channel returns. -/
def Channel.gateValue (ch : Channel) : Gate → Nat
  | .attached => ch.attached.toNat
  | .duty => ch.duty.toNat
  | .freq => ch.freq.toNat

theorem load_gateCell {c : Nat} {ch : Channel} (hc : s.chans[c]? = some ch) (g : Gate) :
    s.load (gateCell c g) = some (ch.gateValue g) := by
  cases g
  exacts [load_attached hc, load_duty hc, load_freq hc]

/-- A channel is audible where no gate load of it returns 0 (42_mixing_engine.md R162). -/
theorem audible_iff (ch : Channel) : ch.audible = true ↔ ∀ g, ch.gateValue g ≠ 0 := by
  have hbits (v : BitVec 32) : v.toNat ≠ 0 ↔ v ≠ 0 := by rw [ne_eq, ne_eq, BitVec.toNat_eq]; rfl
  have hflag : ch.attached.toNat ≠ 0 ↔ ch.attached = true := by cases ch.attached <;> decide
  rw [Channel.audible, Bool.and_eq_true, Bool.and_eq_true, bne_iff_ne, bne_iff_ne, ← hbits, ← hbits, ← hflag]
  exact ⟨fun ⟨⟨h1, h2⟩, h3⟩ g => by cases g <;> assumption, fun h => ⟨⟨h .attached, h .duty⟩, h .freq⟩⟩

/-- One channel more to mix, from a state with the buffer put aside. -/
theorem run_mixChannels_succ {m left c : Nat} {out : List Int} {ch : Channel} (hc : s.chans[c]? = some ch) :
    (mixChannels m (left + 1) c out).run (fun out t => t.deliver out) s =
      if ch.audible then
        (let r := mixFrames m ch.freq.toNat 0 ch.phase out
         if r.overrange then s.raise (.phaseOverrange c r.i)
         else (Prog.st (.phase c) r.p (mixChannels m left (c + 1) r.out)).run (fun out t => t.deliver out) s)
      else (mixChannels m left (c + 1) out).run (fun out t => t.deliver out) s := by
  rw [mixChannels, run_mixChannel hc]
  congr 1
  rw [run_ld (load_phase hc)]
  dsimp only
  split <;> rfl

theorem rest_of_none (hp : j.p = none) (cfg : Config) :
    j.rest cfg = mixChannels cfg.modulus (cfg.nCh - j.c) j.c j.out := by rw [MixJob.rest, hp]

theorem rest_of_some {p : Nat} (hp : j.p = some p) (cfg : Config) :
    j.rest cfg = .st (.phase j.c) p (mixChannels cfg.modulus (cfg.nCh - (j.c + 1)) (j.c + 1) j.out) := by
  rw [MixJob.rest, hp]

/-- What is left of a buffer at a channel whose phase is still to be loaded. -/
theorem bufferEnd_of_gates {ch : Channel} (hc : j.c < s.cfg.nCh) (hp : j.p = none) (hch : s.chans[j.c]? = some ch) :
    s.bufferEnd j =
      if ch.audible then
        (let r := mixFrames s.cfg.modulus ch.freq.toNat 0 ch.phase j.out
         if r.overrange then ({ s with mix := none } : State).raise (.phaseOverrange j.c r.i)
         else s.bufferEnd { j with i := r.i, p := some r.p, out := r.out })
      else s.bufferEnd j.nextChannel := by
  have hleft : s.cfg.nCh - j.c = s.cfg.nCh - (j.c + 1) + 1 := by omega
  rw [State.bufferEnd, rest_of_none hp, hleft, run_mixChannels_succ (s := { s with mix := none }) hch]
  rfl

/-! ### One step -/

/-- The buffer j goes on in t with as much left to be done as in s, or t is its end. -/
def MixJob.goesOn (j : MixJob) (s t : State) : Prop :=
  (∃ j', t.mix = some j' ∧ j'.current t ∧ t.bufferEnd j' = s.bufferEnd j) ∨ t.mix = none ∧ t = s.bufferEnd j

theorem current_nextChannel (t : State) (j : MixJob) : j.nextChannel.current t := fun g v h => by cases g <;> cases h

theorem latched_latch {v : Nat} (hv : v ≠ 0) (g g' : Gate) :
    (j.latch g v).latched g' = if g' = g then some v else j.latched g' := by
  unfold MixJob.latch
  rw [if_neg hv]
  cases g <;> cases g' <;> rfl

theorem rest_latch {v : Nat} (hv : v ≠ 0) (cfg : Config) : (j.latch g v).rest cfg = j.rest cfg := by
  unfold MixJob.latch
  rw [if_neg hv]
  cases g <;> rfl

theorem current_latch {v : Nat} (hj : j.current s) (hv : v ≠ 0) (hl : s.load (gateCell j.c g) = some v) :
    (j.latch g v).current s := by
  intro g' v' h
  rw [latched_latch hv] at h
  rw [MixJob.latch_c hv]
  by_cases hg : g' = g
  · subst hg
    rw [if_pos rfl] at h
    exact Option.some.inj h ▸ ⟨hv, hl⟩
  · rw [if_neg hg] at h
    exact hj g' v' h

/-- Once every gate value is latched the channel is audible, and its frequency is the one latched. -/
theorem audible_of_current {ch : Channel} (hj : j.current s) (hch : s.chans[j.c]? = some ch)
    (hall : ∀ g, (j.latched g).isSome) : ch.audible = true ∧ j.freq.getD 0 = ch.freq.toNat := by
  have hgate (g : Gate) : ch.gateValue g ≠ 0 ∧ j.latched g = some (ch.gateValue g) := by
    obtain ⟨v, hv⟩ := Option.isSome_iff_exists.mp (hall g)
    obtain ⟨hne, hl⟩ := hj g v hv
    cases (load_gateCell hch g).symm.trans hl
    exact ⟨hne, hv⟩
  exact ⟨(audible_iff ch).mpr fun g => (hgate g).1, congrArg (Option.getD · 0) (hgate .freq).2⟩

/-- A step of MIX, alone with what it has seen, goes on with its buffer. -/
theorem MixTicked.goesOn (hi : s.Inv) (hj : s.mix = some j) (hcur : j.current s) (hu : ∀ u ∈ s.unseen, u.agent ≠ .mix)
    (h : MixTicked g s t) : j.goesOn s t := by
  have hinv := h.inv hi
  have hchan (hc : j.c < s.cfg.nCh) : ∃ ch, s.chans[j.c]? = some ch :=
    ⟨_, List.getElem?_eq_getElem (hi.channels.symm ▸ hc)⟩
  cases h with
  | idle hm => cases hj.symm.trans hm
  | deliver j' hm hc =>
    cases hj.symm.trans hm
    obtain ⟨-, -, -, hp, -⟩ := hi.buffer j hj
    have hnone : j.p = none := Option.eq_none_iff_forall_ne_some.mpr fun p e => absurd (hp p e).2 (Nat.not_lt.mpr hc)
    refine .inr ⟨rfl, ?_⟩
    rw [State.bufferEnd, rest_of_none hnone, Nat.sub_eq_zero_of_le hc]
    rfl
  | store j' p u hm hc hp hs =>
    cases hj.symm.trans hm
    refine .inl ⟨_, rfl, current_nextChannel _ _, ?_⟩
    obtain ⟨cs, ps, b, rfl⟩ := eq_of_store hs
    rw [State.bufferEnd, State.bufferEnd, rest_of_some hp,
      run_st (store_of_cells hs (u := { s with mix := none }) rfl rfl rfl)]
    rfl
  | gate j' g v hm hc hp hg hl =>
    cases hj.symm.trans hm
    obtain ⟨ch, hch⟩ := hchan hc
    rw [view_of_seen hu] at hl
    by_cases hv : v = 0
    · have ha : ¬ ch.audible = true := fun ha => (audible_iff ch).mp ha g
        (hv ▸ Option.some.inj ((load_gateCell hch g).symm.trans hl))
      have hlatch : j.latch g v = j.nextChannel := by unfold MixJob.latch; rw [if_pos hv]
      refine .inl ⟨_, rfl, hlatch ▸ current_nextChannel _ _, ?_⟩
      rw [bufferEnd_of_gates hc hp hch, if_neg ha, hlatch]
      rfl
    · refine .inl ⟨_, rfl, current_latch hcur hv hl, ?_⟩
      rw [State.bufferEnd, rest_latch hv]
      rfl
  | frames j' p hm hc hp hg hl =>
    cases hj.symm.trans hm
    obtain ⟨ch, hch⟩ := hchan hc
    obtain ⟨ha, hfreq⟩ := audible_of_current hcur hch (nextGate_none hg)
    obtain rfl : ch.phase = p := Option.some.inj ((load_phase hch).symm.trans hl)
    have hend := bufferEnd_of_gates hc hp hch
    rw [if_pos ha] at hend
    rw [MixJob.goesOn, hend, hfreq, State.runFrames]
    dsimp only
    by_cases hover : (mixFrames s.cfg.modulus ch.freq.toNat 0 ch.phase j.out).overrange = true
    · rw [if_pos hover, if_pos hover]
      exact .inr ⟨rfl, rfl⟩
    · rw [if_neg hover, if_neg hover]
      exact .inl ⟨_, rfl, hcur, rfl⟩
  | storeNone | gateNone | framesNone => exact absurd rfl (hinv.noWildAccess _)

/-! ### The whole buffer -/

/-- The inversion of MIX's step says all there is to it. -/
theorem MixTicked.eq (h : MixTicked g s t) : mixTick g s = t := by
  cases h with
  | idle hm => simp only [mixTick, hm]
  | deliver j hm hc => simp only [mixTick, hm, if_pos hc]
  | store j p u hm hc hp hs | storeNone j p hm hc hp hs => simp only [mixTick, hm, if_neg (Nat.not_le.mpr hc), hp, hs]
  | gate j g v hm hc hp hg hl | gateNone j g hm hc hp hg hl =>
    simp only [mixTick, hm, if_neg (Nat.not_le.mpr hc), hp, hg, hl]
  | frames j p hm hc hp hg hl | framesNone j hm hc hp hg hl =>
    simp only [mixTick, hm, if_neg (Nat.not_le.mpr hc), hp, hg, hl]

/-- A step of MIX does not touch the moves to come. -/
theorem MixTicked.withEvents (es : List Event) (h : MixTicked g s t) :
    MixTicked g { s with events := es } { t with events := es } := by
  have hload (x : Cell) : State.load { s with events := es } x = s.load x := by cases x <;> rfl
  have hview (x : Cell) : State.view { s with events := es } .mix x = s.view .mix x := by cases x <;> rfl
  cases h with
  | idle hm => exact .idle hm
  | deliver j hm hc => exact .deliver j hm hc
  | store j p u hm hc hp hs =>
    obtain ⟨cs, ps, b, rfl⟩ := eq_of_store hs
    exact MixTicked.store (s := { s with events := es }) j p _ hm hc hp (store_withEnvironment es s.cur hs)
  | storeNone j p hm hc hp hs =>
    refine .storeNone j p hm hc hp ?_
    rw [← Option.not_isSome_iff_eq_none, store_isSome] at hs ⊢
    rwa [hload]
  | gate j g v hm hc hp hg hl => exact .gate j g v hm hc hp hg ((hview _).trans hl)
  | gateNone j g hm hc hp hg hl => exact .gateNone j g hm hc hp hg ((hview _).trans hl)
  | frames j p hm hc hp hg hl =>
    have hframes : State.runFrames { s with events := es } j (j.freq.getD 0) p =
        { s.runFrames j (j.freq.getD 0) p with events := es } := by
      unfold State.runFrames
      dsimp only
      split <;> rfl
    exact hframes ▸ .frames j p hm hc hp hg ((hload _).trans hl)
  | framesNone j hm hc hp hg hl => exact .framesNone j hm hc hp hg ((hload _).trans hl)

theorem mixTick_withEvents (s : State) (g : Gate) (es : List Event) :
    mixTick g { s with events := es } = { mixTick g s with events := es } := by
  have h : MixTicked g s (mixTick g s) := mixTick_cases rfl
  exact (h.withEvents es).eq

/-- A buffer in progress whose gate values are current has a step left: where every channel is mixed, the delivery. -/
theorem stepsLeft_pos (hi : s.Inv) (hj : s.mix = some j) (hcur : j.current s) : 0 < j.stepsLeft s.cfg := by
  by_cases hc : j.c < s.cfg.nCh
  · have hmade : j.made ≤ 4 := MixJob.made_le
    rw [MixJob.stepsLeft_eq]
    omega
  · have hnone : s.chans[j.c]? = none := List.getElem?_eq_none (by rw [hi.channels]; omega)
    have hgate (g : Gate) : j.latched g = none := by
      refine Option.eq_none_iff_forall_ne_some.mpr fun v hv => ?_
      obtain ⟨-, hl⟩ := hcur g v hv
      cases g <;> simp [gateCell, State.load, hnone] at hl
    have hp : j.p = none := by
      obtain ⟨-, -, -, hp, -⟩ := hi.buffer j hj
      exact Option.eq_none_iff_forall_ne_some.mpr fun p e => hc (hp p e).2
    have hmade : j.made = 0 := by
      have h1 : j.attached = none := hgate .attached
      have h2 : j.duty = none := hgate .duty
      have h3 : j.freq = none := hgate .freq
      simp [MixJob.made, h1, h2, h3, hp]
    rw [MixJob.stepsLeft_eq, hmade]
    omega

/-- MIX's steps, whichever gates the environment names, lead to the end of the buffer as its program does. -/
theorem runSteps_buffer (gs : List Gate) : ∀ {s : State} {j : MixJob}, s.Inv → s.fault = none → s.mix = some j →
    j.current s → (∀ u ∈ s.unseen, u.agent ≠ .mix) → j.stepsLeft s.cfg ≤ gs.length →
    ∃ m ≤ gs.length, runSteps m { s with events := (gs.take m).map .mix ++ s.events } = .next (s.bufferEnd j) := by
  induction gs with
  | nil => exact fun hi _ hj hcur _ hlen => absurd (stepsLeft_pos hi hj hcur) (Nat.not_lt.mpr hlen)
  | cons g gs ih =>
    intro s j hi hf hj hcur hu hlen
    have hstep (es : List Event) :
        step { s with events := .mix g :: es } = .next { mixTick g s with events := es } := by
      rw [← mixTick_withEvents]
      exact step_mix hf rfl
    have hevents : (mixTick g s).events = s.events :=
      (congrArg State.events (mixTick_withEvents s g s.events) :)
    have htick : MixTicked g s (mixTick g s) := mixTick_cases rfl
    rcases htick.goesOn hi hj hcur hu with ⟨j', hj', hcur', hend⟩ | ⟨hnone, hend⟩
    · rcases htick.closer_or_ended hi hf hj with ⟨j'', hj'', -, hlt, hf', -⟩ | ⟨hn, -⟩ | ⟨hn, -⟩
      · cases hj'.symm.trans hj''
        obtain ⟨m, hm, hrun⟩ := ih (htick.inv hi) hf' hj' hcur' (htick.held_unseen_eq.2 ▸ hu)
          (by rw [mixTick_cfg]; simp only [List.length_cons] at hlen; omega)
        refine ⟨m + 1, Nat.succ_le_succ hm, (runSteps_succ (hstep _)).trans ?_⟩
        rw [hevents] at hrun
        rw [← hend]
        exact hrun
      · cases hj'.symm.trans hn
      · cases hj'.symm.trans hn
    · refine ⟨1, Nat.succ_le_succ (Nat.zero_le _), (runSteps_succ (hstep _)).trans ?_⟩
      rw [← hend, ← hevents]
      rfl

/-- A request delivered whole leaves the end of the buffer that MIX has just taken. -/
theorem exec_bufreq_eq_bufferEnd (hr : requestAllowed s = true) (n : Nat) :
    exec (.bufreq n) s = .next (State.bufferEnd { s with mix := some (.start n) } (.start n)) := by
  have hs : ({ s with mix := none } : State) = s := by rw [← mix_of_requestAllowed hr]
  calc exec (.bufreq n) s
      = .next ((progBufreq s.cfg n).run (fun out t => t.deliver out) s) := if_pos hr
    _ = .next ((progBufreq s.cfg n).run (fun out t => t.deliver out) { s with mix := none }) := by rw [hs]

theorem step_ask {n : SinkWord} {es : List Event} (hf : s.fault = none) (he : s.events = .ask n :: es)
    (hr : requestAllowed s = true) : step s = .next { s with events := es, mix := some (.start n.toNat) } := by
  have hfetch : fetch s = handleEvent { s with events := es } (.ask n) := by simp [fetch, hf, he]
  have hr' : requestAllowed { s with events := es } = true := hr
  simp only [step, hfetch, handleEvent, hr', if_true]

/-- Settles O55: MIX sees every store, takes the request, and its steps run what is left of the buffer to its end. -/
theorem uninterruptedBufferIsExec : Obligations.UninterruptedBufferIsExec := by
  unfold Obligations.UninterruptedBufferIsExec
  intro s n gs es hi hf hb hm hlen
  obtain ⟨ps, hnil, hsee⟩ := exists_runSteps_see hf .mix
  let u : State := { s with unseen := s.unseen.filter fun u => u.agent != .mix, events := es }
  let v : State := { u with mix := some (.start n.toNat) }
  have hu : u.Inv := (hi.fewer (List.Subset.refl s.held) (List.filter_subset_self _)).withEnvironment es s.cur
  have hv : v.Inv := hu.withMix (by rintro _ ⟨⟩; exact MixJob.start_sound _)
  have hseen : ∀ w ∈ v.unseen, w.agent ≠ .mix := fun w hw => by simpa using (List.mem_filter.mp hw).2
  have hallowed : requestAllowed u = true := decide_eq_true ⟨hb, hm⟩
  have hcur : (MixJob.start n.toNat).current v := fun g w h => by cases g <;> cases h
  obtain ⟨m, hle, hrun⟩ := runSteps_buffer gs hv hf rfl hcur hseen (le_of_eq hlen.symm)
  have hask := step_ask (s := { u with events := .ask n :: ((gs.take m).map .mix ++ es) }) hf rfl hallowed
  refine ⟨ps, m, v.bufferEnd (.start n.toNat), hle, hnil, ?_, ?_⟩
  · rw [settled_mix_eq]
    exact exec_bufreq_eq_bufferEnd hallowed _
  · exact (runSteps_add _ (hsee _)).trans ((runSteps_succ hask).trans hrun)

end Sys2Proof.Machine
end

section
/-! O5, O6, O7: the two halves of the round trip between instructions and words. What a word decodes to is said once, row by
row: the opcode and the reserved fields that select the row, and the operands taken from the others. -/

namespace Sys2Proof

variable {cfg : Config} {w : CmdWord} {i : Instr}

/-! ### Decoding a word -/

/-- What word w decodes to: the row it selects, with the row's reserved fields, and its operands (30_encoding.md R82 to
R85). -/
inductive Decodes (w : CmdWord) : Instr → Prop where
  | attach (hop : opField w = 1) (hch : chField w = 0) :
      Decodes w (.attach (pinField w).toNat (immField w) ((rnField w).toNat + 1))
  | attachch (hop : opField w = 2) :
      Decodes w (.attachch (pinField w).toNat (immField w) ((rnField w).toNat + 1) (chField w).toNat)
  | write (hop : opField w = 3) (hrn : rnField w = 0) (hch : chField w = 0) :
      Decodes w (.write (pinField w).toNat (immField w))
  | writech (hop : opField w = 4) (hrn : rnField w = 0) (hpin : pinField w = 0) :
      Decodes w (.writech (chField w).toNat (immField w))
  | tone (hop : opField w = 5) (hrn : rnField w = 0) (hch : chField w = 0) :
      Decodes w (.tone (pinField w).toNat (immField w))
  | note (hop : opField w = 6) (hch : chField w &&& 0xF0 = 0) (himm : immField w = 0) :
      Decodes w (.note (pinField w).toNat (rnField w).toNat (octaveField w).toNat)
  | read (hop : opField w = 7) (hrn : rnField w = 0) (hch : chField w = 0) (himm : immField w = 0) :
      Decodes w (.read (pinField w).toNat)
  | readf (hop : opField w = 8) (hrn : rnField w = 0) (hch : chField w = 0) (himm : immField w = 0) :
      Decodes w (.readf (pinField w).toNat)
  | detach (hop : opField w = 9) (hrn : rnField w = 0) (hch : chField w = 0) (himm : immField w = 0) :
      Decodes w (.detach (pinField w).toNat)
  | chfreq (hop : opField w = 0xA) (hch : chField w = 0) :
      Decodes w (.chfreq (pinField w).toNat (immField w) ((rnField w).toNat + 1))

/-- The inversion of the decoder. -/
theorem decodeCommand_cases (h : decodeCommand w = .ok i) : Decodes w i := by
  obtain ⟨r, hr, hs, rfl⟩ := decodeCommand_ok h
  simp only [opcodeTable, List.mem_cons, List.not_mem_nil, or_false] at hr
  rcases hr with rfl | rfl | rfl | rfl | rfl | rfl | rfl | rfl | rfl | rfl
  · obtain ⟨hop, hch⟩ := (selects_attach w).mp hs
    exact .attach hop hch
  · exact .attachch ((selects_attachch w).mp hs)
  · obtain ⟨hop, hrn, hch⟩ := (selects_write w).mp hs
    exact .write hop hrn hch
  · obtain ⟨hop, hrn, hpin⟩ := (selects_writech w).mp hs
    exact .writech hop hrn hpin
  · obtain ⟨hop, hrn, hch⟩ := (selects_tone w).mp hs
    exact .tone hop hrn hch
  · obtain ⟨hop, hch, himm⟩ := (selects_note w).mp hs
    exact .note hop hch himm
  · obtain ⟨hop, hrn, hch, himm⟩ := (selects_read w).mp hs
    exact .read hop hrn hch himm
  · obtain ⟨hop, hrn, hch, himm⟩ := (selects_readf w).mp hs
    exact .readf hop hrn hch himm
  · obtain ⟨hop, hrn, hch, himm⟩ := (selects_detach w).mp hs
    exact .detach hop hrn hch himm
  · obtain ⟨hop, hch⟩ := (selects_chfreq w).mp hs
    exact .chfreq hop hch

/-- Settles O5: each row takes its operands from the word's fields. -/
theorem operandsAreTheWordsFields : Obligations.OperandsAreTheWordsFields := by
  unfold Obligations.OperandsAreTheWordsFields
  intro w i hd pin ch imm rn op
  have hop {n : BitVec 4} (h : opField w = n) : op = n.toNat := congrArg BitVec.toNat h
  cases decodeCommand_cases hd with
  | attach h => exact .inl ⟨hop h, rfl⟩
  | attachch h => exact .inr (.inl ⟨hop h, rfl⟩)
  | write h => exact .inr (.inr (.inl ⟨hop h, rfl⟩))
  | writech h => exact .inr (.inr (.inr (.inl ⟨hop h, rfl⟩)))
  | tone h => exact .inr (.inr (.inr (.inr (.inl ⟨hop h, rfl⟩))))
  | note h => exact .inr (.inr (.inr (.inr (.inr (.inl ⟨hop h, rfl⟩)))))
  | read h => exact .inr (.inr (.inr (.inr (.inr (.inr (.inl ⟨hop h, rfl⟩))))))
  | readf h => exact .inr (.inr (.inr (.inr (.inr (.inr (.inr (.inl ⟨hop h, rfl⟩)))))))
  | detach h => exact .inr (.inr (.inr (.inr (.inr (.inr (.inr (.inr (.inl ⟨hop h, rfl⟩))))))))
  | chfreq h => exact .inr (.inr (.inr (.inr (.inr (.inr (.inr (.inr (.inr ⟨hop h, rfl⟩))))))))

/-! ### Encoding what was decoded -/

theorem packFields_eq_of_fields {op rn : BitVec 4} {ch : BitVec 8} {pin : BitVec 16} {imm : BitVec 32} (hop : opField w = op)
    (hrn : rnField w = rn) (hch : chField w = ch) (hpin : pinField w = pin) (himm : immField w = imm) :
    packFields op rn ch pin imm = w := by
  subst hop hrn hch hpin himm
  exact packFields_fields w

/-- A channel field whose reserved upper half is zero is its octave alone (30_encoding.md R82, format PN). -/
theorem ofNat_octaveField (h : chField w &&& 0xF0 = 0) : BitVec.ofNat 8 (octaveField w).toNat = chField w := by
  rw [octaveField_eq, BitVec.ofNat_toNat]
  generalize chField w = x at h
  apply BitVec.eq_of_getLsbD_eq
  intro j hj
  by_cases hlow : j < 4
  · simp [hj, hlow]
  · have hbit : (x &&& 0xF0).getLsbD j = false := by rw [h]; exact BitVec.getLsbD_zero
    have hhigh : 4 ≤ j := Nat.le_of_not_lt hlow
    interval_cases j <;> simpa using hbit

/-- Operands taken from a word's fields fit a word. -/
theorem Decodes.wf (hcfg : cfg.wf) (h : Decodes w i) : i.wf cfg = true := by
  obtain ⟨-, -, -, ⟨hmin, hmax, -⟩, -⟩ := hcfg
  have hpin : pinFits (pinField w).toNat := (pinField w).isLt
  have hch : chFits (chField w).toNat := (chField w).isLt
  have hres : resFits cfg ((rnField w).toNat + 1) := by
    have := (rnField w).isLt
    constructor <;> omega
  cases h with
  | note => exact decide_eq_true ⟨hpin, (rnField w).isLt, (octaveField w).isLt⟩
  | attach | chfreq => exact decide_eq_true ⟨hpin, hres⟩
  | attachch => exact decide_eq_true ⟨hpin, hres, hch⟩
  | writech => exact decide_eq_true hch
  | write | tone | read | readf | detach => exact decide_eq_true hpin

/-- The fields a row does not use are zero, and the encoder writes them as zero. -/
theorem Decodes.encode_eq (h : Decodes w i) : encode i = .command w := by
  have hofNat (n : Nat) (x : BitVec n) : x = BitVec.ofNat n x.toNat := by simp
  cases h with
  | attach hop hch => exact congrArg _ (packFields_eq_of_fields hop (hofNat ..) hch (hofNat ..) rfl)
  | attachch hop => exact congrArg _ (packFields_eq_of_fields hop (hofNat ..) (hofNat ..) (hofNat ..) rfl)
  | write hop hrn hch => exact congrArg _ (packFields_eq_of_fields hop hrn hch (hofNat ..) rfl)
  | writech hop hrn hpin => exact congrArg _ (packFields_eq_of_fields hop hrn (hofNat ..) hpin rfl)
  | tone hop hrn hch => exact congrArg _ (packFields_eq_of_fields hop hrn hch (hofNat ..) rfl)
  | note hop hch himm => exact congrArg _ (packFields_eq_of_fields hop (hofNat ..) (ofNat_octaveField hch).symm (hofNat ..) himm)
  | read hop hrn hch himm | readf hop hrn hch himm | detach hop hrn hch himm =>
    exact congrArg _ (packFields_eq_of_fields hop hrn hch (hofNat ..) himm)
  | chfreq hop hch => exact congrArg _ (packFields_eq_of_fields hop (hofNat ..) hch (hofNat ..) rfl)

/-- Settles O7: on the command port by the row the word selects; a request word is its frame count. -/
theorem encodeOfDecodeIsTheWord : Obligations.EncodeOfDecodeIsTheWord := by
  unfold Obligations.EncodeOfDecodeIsTheWord
  intro cfg w i hcfg hd
  cases w with
  | command w =>
    have h := decodeCommand_cases hd
    exact ⟨h.wf hcfg, h.encode_eq⟩
  | request n =>
    cases hd
    exact ⟨decide_eq_true n.isLt, congrArg PortWord.request (by simp)⟩

/-! ### Decoding what was encoded -/

theorem encode_selectsRow (i : Instr) : Laws.SelectsRow.Statement i := by
  cases i with
  | attach pin freq res => exact Laws.SelectsRow.attach pin freq res
  | attachch pin freq res ch => exact Laws.SelectsRow.attachch pin freq res ch
  | write pin duty => exact Laws.SelectsRow.write pin duty
  | writech ch duty => exact Laws.SelectsRow.writech ch duty
  | tone pin freq => exact Laws.SelectsRow.tone pin freq
  | note pin nt oct => exact Laws.SelectsRow.note pin nt oct
  | read pin => exact Laws.SelectsRow.read pin
  | readf pin => exact Laws.SelectsRow.readf pin
  | detach pin => exact Laws.SelectsRow.detach pin
  | chfreq pin freq res => exact Laws.SelectsRow.chfreq pin freq res
  | bufreq n => exact Laws.SelectsRow.bufreq n

theorem toNat_ofNat_of_fits {n v : Nat} (h : v < 2 ^ n) : (BitVec.ofNat n v).toNat = v :=
  (BitVec.toNat_ofNat v n).trans (Nat.mod_eq_of_lt h)

theorem octaveField_pack (op rn : BitVec 4) {oct : Nat} (pin : BitVec 16) (imm : BitVec 32) (h : nibbleFits oct) :
    (octaveField (packFields op rn (BitVec.ofNat 8 oct) pin imm)).toNat = oct := by
  rw [octaveField_eq, chField_pack, BitVec.extractLsb'_toNat, BitVec.toNat_ofNat, Nat.shiftRight_zero]
  omega

theorem toNat_ofNat_res {res : Nat} (hcfg : cfg.wf) (h : resFits cfg res) : (BitVec.ofNat 4 (res - 1)).toNat + 1 = res := by
  obtain ⟨-, -, -, ⟨hmin, hmax, -⟩, -⟩ := hcfg
  obtain ⟨h1, h2⟩ := h
  rw [BitVec.toNat_ofNat]
  omega

/-- The operands read from the word of a well-formed command are the command's own. -/
theorem assembleOperands_encode {o : Opcode} (hcfg : cfg.wf) (hwf : i.wf cfg = true) (hw : encode i = .command w)
    (ho : some o = Laws.SelectsRow.opcodeOf i) : assembleOperands o w = i := by
  have hpin {pin : Nat} (h : pinFits pin) : (BitVec.ofNat 16 pin).toNat = pin := toNat_ofNat_of_fits h
  have hch {ch : Nat} (h : chFits ch) : (BitVec.ofNat 8 ch).toNat = ch := toNat_ofNat_of_fits h
  have hnt {nt : Nat} (h : nibbleFits nt) : (BitVec.ofNat 4 nt).toNat = nt := toNat_ofNat_of_fits h
  cases i <;> cases ho <;> cases hw
  all_goals
    simp only [Instr.wf, decide_eq_true_eq] at hwf
    simp only [assembleOperands, rnField_pack, chField_pack, pinField_pack, immField_pack]
  case attach | chfreq =>
    obtain ⟨hp, hr⟩ := hwf
    rw [hpin hp, toNat_ofNat_res hcfg hr]
  case attachch =>
    obtain ⟨hp, hr, hc⟩ := hwf
    rw [hpin hp, toNat_ofNat_res hcfg hr, hch hc]
  case note =>
    obtain ⟨hp, hn, ho⟩ := hwf
    rw [hpin hp, hnt hn, octaveField_pack _ _ _ _ ho]
  case writech => rw [hch hwf]
  all_goals rw [hpin hwf]

/-- Settles O6: the encoded word selects the command's own row, whose operands are the command's; a request word is its
frame count. -/
theorem decodeOfEncodeIsTheInstruction : Obligations.DecodeOfEncodeIsTheInstruction := by
  unfold Obligations.DecodeOfEncodeIsTheInstruction
  intro cfg i hcfg hwf
  have hrow := encode_selectsRow i cfg hcfg hwf
  cases hw : encode i with
  | command w =>
    rw [hw] at hrow
    obtain ⟨r, hr, ho, hs⟩ := hrow
    exact (decodeCommand_of_selects hr hs).trans (congrArg _ (assembleOperands_encode hcfg hwf hw ho))
  | request n =>
    cases i with
    | bufreq m =>
      cases hw
      exact congrArg (Except.ok ∘ Instr.bufreq) (toNat_ofNat_of_fits (of_decide_eq_true hwf))
    | _ => cases hw

end Sys2Proof
end

section
/-! O1 to O4: delivery. A word delivered to an idle agent, whole or to be run step by step, is decoded first, and decoding
alone decides between the instruction and the illegal answer. -/

namespace Sys2Proof.Machine

open Sys2Proof

variable {s : State} {k : Nat} {w : CmdWord} {i : Instr} {es : List Event}

theorem fetch_event {e : Event} (hf : s.fault = none) (he : s.events = e :: es) :
    fetch s = handleEvent { s with events := es } e := by
  simp only [fetch, hf, he]

theorem step_of_run {t : State} (h : fetch s = .run i t) : step s = exec i t := by rw [step, h]

theorem step_of_settled {o : Host.Outcome State Fault Refusal} (h : fetch s = .settled o) : step s = o := by rw [step, h]

theorem step_request {n : SinkWord} (hf : s.fault = none) (he : s.events = .request n :: es) :
    step s = exec (.bufreq n.toNat) (State.settled { s with events := es } .mix) :=
  step_of_run (fetch_event hf he)

/-- A word delivered to an idle agent is decoded before anything else (30_encoding.md R92). -/
theorem deliverCommand_idle (hk : k < s.cfg.nCtrl) (hj : s.jobOf k = none) (accept : Instr → Fetched) :
    (∀ i, decodeCommand w = .ok i → deliverCommand k w s accept = accept i) ∧
    ∀ x, decodeCommand w = .error x → deliverCommand k w s accept = .settled (.next (answerIllegal k s)) := by
  unfold deliverCommand
  rw [if_neg (Nat.not_le.mpr hk), hj, if_neg (by simp)]
  constructor <;> intro _ hd <;> rw [hd]

theorem step_command (hf : s.fault = none) (he : s.events = .command k w :: es) (hk : k < s.cfg.nCtrl)
    (hj : s.jobOf k = none) (hd : decodeCommand w = .ok i) :
    step s = exec i (State.settled { s with events := es, cur := k } (.ctrl k)) :=
  step_of_run <| (fetch_event hf he).trans <|
    (deliverCommand_idle (s := { s with events := es, cur := k }) hk hj _).1 i hd

/-- A word that decodes to nothing is answered, whichever way it is delivered (30_encoding.md R86). -/
theorem step_illegal {e : Event} {x : DecodeError} (hd : decodeCommand w = .error x) (hf : s.fault = none)
    (he : s.events = e :: es) (hw : e = .command k w ∨ e = .issue k w) (hk : k < s.cfg.nCtrl) (hj : s.jobOf k = none) :
    step s = .next ({ s with events := es, cur := k }.reply k ⟨0, .illegalCommand⟩) := by
  refine step_of_settled ((fetch_event hf he).trans ?_)
  rcases hw with rfl | rfl <;>
    exact (deliverCommand_idle (s := { s with events := es, cur := k }) hk hj _).2 x hd

/-- Settles O1: where the agent holds no store and has seen every one, it is settled already. -/
theorem deliveredCommandRunsInstruction : Obligations.DeliveredCommandRunsInstruction := by
  unfold Obligations.DeliveredCommandRunsInstruction
  intro s k w i es hf he hk hj hd
  have hstep := step_command hf he hk hj hd
  refine ⟨hstep, fun hheld hseen => ?_⟩
  exact hstep.trans (congrArg (exec i) (settled_self (fun h hm e => hheld h hm (Agent.ctrl.inj e)) hseen))

/-- Settles O2: MIX holds no store, so where it has seen every store it is settled already. -/
theorem deliveredRequestRunsBufreq : Obligations.DeliveredRequestRunsBufreq := by
  unfold Obligations.DeliveredRequestRunsBufreq
  intro s n es hf he
  have hstep := step_request hf he
  refine ⟨hstep, fun hseen => ?_⟩
  exact hstep.trans (congrArg (exec _) (settled_self (fun _ _ e => by cases e) hseen))

/-- No word selects two rows (30_encoding.md R86). -/
theorem selects_unique {r q : OpRow} (hr : r ∈ opcodeTable) (hq : q ∈ opcodeTable) (hrw : r.selects w = true)
    (hqw : q.selects w = true) : q = r :=
  rows_inj q hq r hr ((pattern_of_selects hq hqw).trans (pattern_of_selects hr hrw).symm)

/-- Settles O3: a word that selects a row selects no other; one that selects none does not decode. -/
theorem illegalWordIsAnswered : Obligations.IllegalWordIsAnswered := by
  unfold Obligations.IllegalWordIsAnswered
  intro w
  by_cases h : ∃ r ∈ opcodeTable, r.selects w = true
  · obtain ⟨r, hr, hs⟩ := h
    exact .inl ⟨⟨r, hr, hs, fun q hq hqw => selects_unique hr hq hs hqw⟩, _, decodeCommand_of_selects hr hs⟩
  · have hnone : ∀ r ∈ opcodeTable, r.selects w = false := by simpa using h
    obtain ⟨x, hd⟩ := decodeCommand_none hnone
    exact .inr ⟨hnone, fun s k e es => step_illegal hd⟩

/-- Settles O4: by what the word decodes to. -/
theorem decodingReadsTheWordAlone : Obligations.DecodingReadsTheWordAlone := by
  unfold Obligations.DecodingReadsTheWordAlone
  intro w
  cases hd : decodeCommand w with
  | ok i =>
    exact .inl ⟨i, fun s k es hf hk hj =>
      ⟨fun he => step_command hf he hk hj hd, fun he => step_issue hf he hk hj hd⟩⟩
  | error x => exact .inr fun s k e es => step_illegal hd

end Sys2Proof.Machine
end

section
/-! O20: every command answers exactly once. A program that stays in the machine and raises no fault finds every cell it
accesses, so under the invariant it runs to its end. -/

namespace Sys2Proof.Machine

open Sys2Proof

/-- One response has left since s, on control agent k's port, and no fault was recorded. -/
def State.answeredOnce (s : State) (k : Nat) (t : State) : Prop :=
  ∃ r : Reply, t.rsps = s.rsps ++ [(k, r.word)] ∧ t.fault = s.fault

theorem State.answeredOnce.of_eq {s u t : State} {k : Nat} (h : u.answeredOnce k t) (hr : u.rsps = s.rsps)
    (hf : u.fault = s.fault) : s.answeredOnce k t := by
  obtain ⟨r, h1, h2⟩ := h
  exact ⟨r, hr ▸ h1, h2.trans hf⟩

theorem run_answeredOnce {k : Nat} {p : CmdProg} :
    ∀ {s : State}, s.Inv → p.staysIn s.cfg → p.storesOwned → s.answeredOnce k (p.run (fun r t => t.reply k r) s) := by
  induction p with
  | done r => exact fun _ _ _ => ⟨r, rfl, rfl⟩
  | ld x f ih =>
    rintro s hi ⟨hx, hin⟩ ho
    obtain ⟨v, hv, hm⟩ := hi.load hx
    rw [run_ld hv]
    exact ih v hi (hin v hm) (ho v)
  | st x v p ih =>
    rintro s hi ⟨hx, hv, hin⟩ ⟨-, ho⟩
    obtain ⟨t, ht⟩ := hi.store_some hx
    obtain ⟨hcfg, -, -, hrsps, -, hfault, -⟩ := store_outside ht
    rw [run_st ht]
    exact (ih (hi.store hv ht) (hcfg ▸ hin) ho).of_eq hrsps hfault
  | draw f ih =>
    intro s hi hin ho
    exact (ih s.answer hi.answered (s.answered_cfg ▸ hin _) (ho _)).of_eq s.answered_rsps s.answered_fault
  | raise f => exact fun _ _ ho => ho.elim

/-- Settles O20: every command has a program that stays in the machine and raises no fault. -/
theorem everyCommandAnswersOnce : Obligations.EveryCommandAnswersOnce := by
  unfold Obligations.EveryCommandAnswersOnce
  intro i s hi hc
  obtain ⟨p, hp⟩ := Option.isSome_iff_exists.mp ((commandProgram_isSome (cfg := s.cfg)).trans hc)
  obtain ⟨r, hrsps, hfault⟩ := run_answeredOnce (k := s.cur) hi (commandProgram_staysIn hp) (commandProgram_storesOwned hp)
  exact ⟨_, r, exec_command hp, hrsps, hfault⟩

end Sys2Proof.Machine
end

section
/-! O26, O27, O28: ATTACH and ATTACHCH where the device is there. Behind the gate only the scan, for ATTACH, and the
four stores are left (40_attach_detach.md R110, R115). -/

namespace Sys2Proof.Machine

open Sys2Proof

variable {s : State} {pin res c : Nat} {freq : Freq} {ch : Channel}

/-- ATTACH of a pin that exists goes on with the scan from channel 0 (40_attach_detach.md R111). -/
theorem exec_attach_scan (hd : s.deviceThere) (hp : pin < s.cfg.nPin) :
    exec (.attach pin freq res) s =
      .next ((scanFree (attachStores pin freq res) (.done (.fail .resourceExhausted)) s.cfg.nCh 0).run
        (fun r t => t.reply s.cur r) s.opened) :=
  congrArg Host.Outcome.next ((run_gateAttach_of hd).trans (by rw [if_neg (Nat.not_le.mpr hp)]))

/-- The stores of an attach behind the gate, and their response. -/
theorem run_attachStores_opened (hl : pin < s.pins.length) (hc : s.chans[c]? = some ch) :
    (attachStores pin freq res c).run (fun r t => t.reply s.cur r) s.opened =
      ((s.opened.putChan c (ch.taken freq res)).putPin pin (BitVec.ofNat 8 c)).reply s.cur ⟨1, .none⟩ :=
  run_attachStores (by rwa [s.opened_chans]) (by rwa [s.opened_pins])

/-- Settles O26: the scan goes on with the lowest Free channel. -/
theorem attachTakesLowestFreeChannel : Obligations.AttachTakesLowestFreeChannel := by
  unfold Obligations.AttachTakesLowestFreeChannel
  intro s pin res c freq ch hd hp hl hn hlow hc ha
  rw [← s.opened_chans] at hlow
  rw [exec_attach_scan hd hp, run_scanFree_found hlow (by rwa [s.opened_chans]) ha hn, run_attachStores_opened hl hc]

/-- Settles O27: the scan finds every channel Attached. -/
theorem attachFailsOnFullPool : Obligations.AttachFailsOnFullPool := by
  unfold Obligations.AttachFailsOnFullPool
  intro s pin res freq hd hp hfull
  rw [← s.opened_chans] at hfull
  rw [exec_attach_scan hd hp, run_scanFree_full hfull, run_done]
  rfl

/-- Settles O28: behind the gate and the two range tests ATTACHCH is the four stores. -/
theorem attachchTakesNamedChannel : Obligations.AttachchTakesNamedChannel := by
  unfold Obligations.AttachchTakesNamedChannel
  intro s pin res c freq ch hd hp hl hn hc
  refine congrArg Host.Outcome.next ((run_gateAttach_of hd).trans ?_)
  rw [if_neg (Nat.not_le.mpr hp), if_neg (Nat.not_le.mpr hn), run_attachStores_opened hl hc]

end Sys2Proof.Machine
end

section
/-! O30, O31: DETACH on every path (40_attach_detach.md R118). A second DETACH takes one of the paths that only answer:
the path of the first one where that only answered, and the unmapped pin's where it cleared the entry. -/

namespace Sys2Proof.Machine

open Sys2Proof

variable {s : State} {pin m : Nat} {ch : Channel}

/-! ### The pin map's entries -/

@[simp] theorem entry_putChan : (s.putChan m ch).entry pin = s.entry pin := rfl
@[simp] theorem entry_reply {k : Nat} {r : Reply} : (s.reply k r).entry pin = s.entry pin := rfl
@[simp] theorem entry_opened : s.opened.entry pin = s.entry pin := by simp [State.entry]

theorem entry_putPin_self {e : PinEntry} (hl : pin < s.pins.length) : (s.putPin pin e).entry pin = e.toNat := by
  simp [State.entry, hl]

theorem entry_putPin_ne {e : PinEntry} {q : Nat} (h : pin ≠ q) : (s.putPin pin e).entry q = s.entry q := by
  simp [State.entry, List.getElem?_set_ne h]

/-- Under the invariant every pin that exists has an entry. -/
theorem State.Inv.pin_lt (hi : s.Inv) (hp : pin < s.cfg.nPin) : pin < s.pins.length := hi.entries ▸ hp

/-- Under the invariant an entry that is not UNASSIGNED names a channel (10_state.md R27 (b)). -/
theorem State.Inv.mapped (hi : s.Inv) (hp : pin < s.cfg.nPin) (hm : s.entry pin ≠ 0xFF) :
    ∃ ch, s.chans[s.entry pin]? = some ch := by
  obtain ⟨v, hv, hmay⟩ := hi.load (x := .pinmap pin) hp
  rw [load_pinmap (hi.pin_lt hp), Option.some.injEq] at hv
  subst hv
  have hlt : s.entry pin < s.chans.length := by rw [hi.channels]; exact hmay.resolve_left hm
  exact ⟨_, List.getElem?_eq_getElem hlt⟩

/-! ### The paths of DETACH -/

theorem exec_detach_of_failed (hb : s.backend = .failed) :
    exec (.detach pin) s = .next (s.reply s.cur ⟨1, .deviceUnavailable⟩) :=
  congrArg Host.Outcome.next ((run_ld load_backend).trans (by rw [if_pos (code_inj.mpr hb)]; rfl))

theorem exec_detach_of_invalidPin (hb : s.backend ≠ .failed) (hp : s.cfg.nPin ≤ pin) :
    exec (.detach pin) s = .next (s.reply s.cur ⟨1, .invalidPin⟩) :=
  congrArg Host.Outcome.next ((run_ld load_backend).trans (by rw [if_neg (mt code_inj.mp hb), if_pos hp]; rfl))

/-- Behind the gate and the range test DETACH looks at the pin's entry. -/
theorem exec_detach_entry (hb : s.backend ≠ .failed) (hp : pin < s.cfg.nPin) (hl : pin < s.pins.length) :
    exec (.detach pin) s =
      .next ((if s.entry pin = 0xFF then .done (.detached .none) else detachStores pin (s.entry pin)).run
        (fun r t => t.reply s.cur r) s) :=
  congrArg Host.Outcome.next <| (run_ld load_backend).trans <| by
    rw [if_neg (mt code_inj.mp hb), if_neg (Nat.not_le.mpr hp), run_ld (load_pinmap hl)]
    rfl

theorem exec_detach_of_unmapped (hb : s.backend ≠ .failed) (hp : pin < s.cfg.nPin) (hl : pin < s.pins.length)
    (hu : s.entry pin = 0xFF) : exec (.detach pin) s = .next (s.reply s.cur ⟨1, .none⟩) := by
  rw [exec_detach_entry hb hp hl, if_pos hu, run_done]
  rfl

/-- The state in which DETACH has freed channel c, whose cells were ch, and cleared the pin's entry. -/
def State.freed (s : State) (pin c : Nat) (ch : Channel) : State :=
  (s.putChan c { ch with duty := 0, attached := false }).putPin pin unassigned

theorem run_detachStores {fin : Reply → State → State} (hc : s.chans[m]? = some ch) (hl : pin < s.pins.length) :
    (detachStores pin m).run fin s = fin (.detached .none) (s.freed pin m ch) := by
  rw [detachStores, run_st (store_duty hc), run_st (store_attached (putChan_getElem?_self hc)), putChan_putChan,
    run_st (store_pinmap (by simpa using hl)), run_done]
  rfl

theorem exec_detach_of_mapped (hb : s.backend ≠ .failed) (hp : pin < s.cfg.nPin) (hl : pin < s.pins.length)
    (hm : s.entry pin ≠ 0xFF) (hc : s.chans[s.entry pin]? = some ch) :
    exec (.detach pin) s = .next ((s.freed pin (s.entry pin) ch).reply s.cur ⟨1, .none⟩) := by
  rw [exec_detach_entry hb hp hl, if_neg hm, run_detachStores hc hl]
  rfl

/-- Settles O30: one lemma per path. -/
theorem detachFreesTheMappedChannel : Obligations.DetachFreesTheMappedChannel := by
  unfold Obligations.DetachFreesTheMappedChannel
  exact fun s pin => ⟨exec_detach_of_failed, exec_detach_of_invalidPin, exec_detach_of_unmapped,
    fun ch => exec_detach_of_mapped⟩

theorem entry_freed_self {c : Nat} (hl : pin < s.pins.length) : (s.freed pin c ch).entry pin = 0xFF :=
  entry_putPin_self hl

/-- Settles O31: by the path of the first DETACH. -/
theorem detachIsIdempotent : Obligations.DetachIsIdempotent := by
  unfold Obligations.DetachIsIdempotent
  intro s t pin hi h
  by_cases hb : s.backend = .failed
  · rw [exec_detach_of_failed hb] at h
    obtain rfl := Host.Outcome.next.inj h
    exact ⟨_, exec_detach_of_failed hb⟩
  by_cases hp : s.cfg.nPin ≤ pin
  · rw [exec_detach_of_invalidPin hb hp] at h
    obtain rfl := Host.Outcome.next.inj h
    exact ⟨_, exec_detach_of_invalidPin hb hp⟩
  replace hp := Nat.lt_of_not_le hp
  have hl := hi.pin_lt hp
  by_cases hu : s.entry pin = 0xFF
  · rw [exec_detach_of_unmapped hb hp hl hu] at h
    obtain rfl := Host.Outcome.next.inj h
    exact ⟨_, exec_detach_of_unmapped hb hp hl hu⟩
  · obtain ⟨ch, hc⟩ := hi.mapped hp hu
    rw [exec_detach_of_mapped hb hp hl hu hc] at h
    obtain rfl := Host.Outcome.next.inj h
    exact ⟨_, exec_detach_of_unmapped hb hp (by simpa [State.freed] using hl) (entry_freed_self hl)⟩

end Sys2Proof.Machine
end

section
/-! O32, O33: two pins on one channel. An attach to a busy channel leaves the other pin's entry
(40_attach_detach.md R116), and DETACH through either pin frees the channel under the other (R119). -/

namespace Sys2Proof.Machine

open Sys2Proof

variable {s : State} {p q c : Nat} {ch ch' : Channel}

/-- A channel index fits a pin-map entry. -/
theorem toNat_ofNat_channel (hcfg : s.cfg.wf) (hc : c < s.cfg.nCh) : (BitVec.ofNat 8 c).toNat = c := by
  obtain ⟨⟨-, hmax⟩, -⟩ := hcfg
  exact toNat_ofNat_of_fits (by omega)

theorem State.Inv.channel_lt (hi : s.Inv) (hc : s.chans[c]? = some ch) : c < s.cfg.nCh :=
  hi.channels ▸ (List.getElem?_eq_some_iff.mp hc).1

theorem opened_backend_ne_failed (hd : s.deviceThere) : s.opened.backend ≠ .failed := by
  unfold State.opened
  split
  · simp
  · exact hd.1

/-- READ of a pin the router translates answers the channel's duty (41_mutators.md R142). -/
theorem exec_read_of_resolves (hb : s.backend ≠ .failed) (h : s.resolves p c ch) :
    exec (.read p) s = .next (s.reply s.cur ⟨ch.duty, .none⟩) := by
  have ⟨_, _, _, _, hc, _⟩ := h
  refine congrArg Host.Outcome.next (run_gate.trans ?_)
  rw [if_neg hb, run_resolve_of h, run_ld (load_duty hc), run_done]
  simp [Reply.ok]

/-! ### What ATTACHCH leaves of the pin router -/

/-- The state an attach leaves before its response: channel c's cells are ch, and the pin names c. -/
def State.routed (s : State) (pin c : Nat) (ch : Channel) : State :=
  (s.opened.putChan c ch).putPin pin (BitVec.ofNat 8 c)

theorem routed_getElem? (hc : s.chans[c]? = some ch) : (s.routed p c ch').chans[c]? = some ch' :=
  putChan_getElem?_self (by rwa [s.opened_chans])

/-- The pin of the attach resolves to its channel. -/
theorem routed_resolves_self (hi : s.Inv) (hp : p < s.cfg.nPin) (hun : c ≠ unassigned.toNat)
    (hc : s.chans[c]? = some ch) (ha : ch'.attached = true) : (s.routed p c ch').resolves p c ch' := by
  have hl := hi.pin_lt hp
  have he : (s.routed p c ch').entry p = c :=
    (entry_putPin_self (by simpa using hl)).trans (toNat_ofNat_channel hi.config (hi.channel_lt hc))
  exact ⟨by simpa [State.routed] using hp, by simpa [State.routed] using hl, he, hun, routed_getElem? hc, ha⟩

/-- A pin that named the channel before still does (40_attach_detach.md R116). -/
theorem routed_resolves_other (hne : p ≠ q) (h : s.resolves q c ch) (ha : ch'.attached = true) :
    (s.routed p c ch').resolves q c ch' := by
  obtain ⟨hq, hl, he, hun, hc, -⟩ := h
  exact ⟨by simpa [State.routed] using hq, by simpa [State.routed] using hl,
    (entry_putPin_ne hne).trans (by simpa using he), hun, routed_getElem? hc, ha⟩

/-- Settles O32: both pins resolve to the channel as the attach leaves it, and READ answers the duty it kept. -/
theorem overrideLeavesAStaleMapping : Obligations.OverrideLeavesAStaleMapping := by
  unfold Obligations.OverrideLeavesAStaleMapping
  intro s p q res c freq ch hi hd hne hp hq
  have ⟨_, _, _, hun, hc, _⟩ := hq
  have hexec := attachchTakesNamedChannel s p res c freq ch hd hp (hi.pin_lt hp) (hi.channel_lt hc) hc
  have hself := routed_resolves_self (ch' := ch.taken freq res) hi hp hun hc rfl
  have hother := routed_resolves_other (ch' := ch.taken freq res) hne hq rfl
  have hread {r : Nat} := exec_read_of_resolves (s := (s.routed p c (ch.taken freq res)).reply s.cur ⟨1, .none⟩)
    (p := r) (c := c) (ch := ch.taken freq res) (opened_backend_ne_failed hd)
  exact ⟨_, hexec, hself, hother, hread hself, hread hother⟩

/-! ### What DETACH leaves of the pin router -/

theorem entry_freed_ne (hne : p ≠ q) : (s.freed p c ch).entry q = s.entry q := entry_putPin_ne hne

theorem freed_getElem? (hc : s.chans[c]? = some ch') :
    (s.freed p c ch).chans[c]? = some { ch with duty := 0, attached := false } := putChan_getElem?_self hc

/-- Settles O33: pin p still names the channel, and the channel is Free when WRITE p loads its `attached` cell. -/
theorem staleDetachFreesTheOtherPinsChannel : Obligations.StaleDetachFreesTheOtherPinsChannel := by
  unfold Obligations.StaleDetachFreesTheOtherPinsChannel
  rintro s p q c ch duty hi hb hne ⟨hp, hpl, hpc, hun, hc, -⟩ ⟨hq, hql, rfl, -⟩
  have hpe := (entry_freed_ne (c := s.entry q) (ch := ch) hne.symm).trans hpc
  have hct := freed_getElem? (p := q) (ch := ch) hc
  obtain ⟨-, -, hfree⟩ := pinRouterFailsInOrder (.write p duty)
    ((s.freed q (s.entry q) ch).reply s.cur ⟨1, .none⟩) p rfl rfl hb
  exact ⟨_, exec_detach_of_mapped hb hq hql hun hc, hpe, entry_freed_self hql, hct,
    hfree _ hp (by simpa [State.freed] using hpl) (hpe.trans_ne hun) (by rwa [entry_reply, hpe]) rfl⟩

end Sys2Proof.Machine
end

section
/-! O34: from reset with the device initialised the pool fills in order (40_attach_detach.md R111). By induction on the
pins attached so far: they hold the channels below their number, and every other channel is Free. -/

namespace Sys2Proof.Machine

open Sys2Proof

variable {cfg : Config} {s t : State} {ps : List Nat} {p res : Nat} {freq : Freq}

/-- ATTACHs of the pins in order, up to the first that does not answer a next state. -/
def attachAll (freq : Freq) (res : Nat) (ps : List Nat) (s : State) : Host.Outcome State Fault Refusal :=
  ps.foldl (fun (o : Host.Outcome State Fault Refusal) p =>
    match o with
    | .next u => exec (.attach p freq res) u
    | o => o) (.next s)

theorem attachAll_concat (h : attachAll freq res ps s = .next t) :
    attachAll freq res (ps ++ [p]) s = exec (.attach p freq res) t := by
  rw [attachAll] at h
  rw [attachAll, List.foldl_concat, h]

/-- The pins ps, in this order, hold the channels below their number, each ATTACH was answered (1, None), and the device
stays initialised. -/
structure State.filledBy (t : State) (cfg : Config) (ps : List Nat) : Prop where
  config : t.cfg = cfg
  ready : t.backend = .ready
  agent : t.cur = 0
  entries : t.pins.length = cfg.nPin
  pool : ∀ j < cfg.nCh, ∃ ch, t.chans[j]? = some ch ∧ (ch.attached = true ↔ j < ps.length)
  mapped : ∀ j (h : j < ps.length), t.entry ps[j] = j
  answers : t.rsps = List.replicate ps.length (0, (Reply.mk 1 .none).word)

theorem filledBy_nil (cfg : Config) : ((State.resetOf cfg).putBackend .ready).filledBy cfg [] where
  config := rfl
  ready := rfl
  agent := rfl
  entries := List.length_replicate
  pool j hj := ⟨Channel.reset, resetOf_getElem?_chans hj, by simp [Channel.reset]⟩
  mapped := nofun
  answers := rfl

theorem State.filledBy.deviceThere (h : t.filledBy cfg ps) : t.deviceThere := by simp [State.deviceThere, h.ready]

theorem State.filledBy.opened_eq (h : t.filledBy cfg ps) : t.opened = t := if_neg (by simp [h.ready])

/-- Every channel below the number of pins is Attached. -/
theorem State.filledBy.attached (h : t.filledBy cfg ps) (hle : ps.length ≤ cfg.nCh) :
    ∀ j < ps.length, ∃ d, t.chans[j]? = some d ∧ d.attached = true := by
  intro j hj
  obtain ⟨d, hd, ha⟩ := h.pool j (by omega)
  exact ⟨d, hd, ha.mpr hj⟩

/-- One more ATTACH takes the next channel. -/
theorem State.filledBy.attach (h : t.filledBy cfg ps) (hcfg : cfg.wf) (hlt : ps.length < cfg.nCh) (hp : p < cfg.nPin)
    (hnew : p ∉ ps) : ∃ u, exec (.attach p freq res) t = .next u ∧ u.filledBy cfg (ps ++ [p]) := by
  obtain ⟨ch, hc, ha⟩ := h.pool ps.length hlt
  have hpl : p < t.pins.length := h.entries ▸ hp
  have hexec := attachTakesLowestFreeChannel t p res ps.length freq ch h.deviceThere (h.config ▸ hp) hpl
    (h.config ▸ hlt) (h.attached hlt.le) hc (by simpa using ha)
  rw [h.opened_eq, h.agent] at hexec
  refine ⟨_, hexec, ?_⟩
  constructor
  case config => exact h.config
  case ready => exact h.ready
  case agent => exact h.agent
  case entries => simpa using h.entries
  case answers => simp [h.answers, List.replicate_succ']
  case pool =>
    intro j hj
    by_cases hlast : j = ps.length
    · subst hlast
      exact ⟨_, putChan_getElem?_self hc, by simp [Channel.taken]⟩
    · obtain ⟨d, hd, hda⟩ := h.pool j hj
      exact ⟨d, (putChan_getElem?_ne hlast).trans hd, by rw [hda, List.length_append, List.length_singleton]; omega⟩
  case mapped =>
    intro j hj
    rw [entry_reply]
    by_cases hlast : j = ps.length
    · subst hlast
      rw [List.getElem_concat_length rfl, entry_putPin_self (by simpa using hpl)]
      exact toNat_ofNat_channel (h.config ▸ hcfg) (h.config ▸ hlt)
    · have hj' : j < ps.length := by simp at hj; omega
      have hne : p ≠ ps[j] := fun e => hnew (e ▸ List.getElem_mem hj')
      rw [List.getElem_append_left hj', entry_putPin_ne hne]
      exact h.mapped j hj'

/-- The ATTACHs of distinct pins, at most as many as channels, fill the pool in order. -/
theorem attachAll_fills (hcfg : cfg.wf) (hnodup : ps.Nodup) (hpins : ∀ p ∈ ps, p < cfg.nPin)
    (hle : ps.length ≤ cfg.nCh) :
    ∃ t, attachAll freq res ps ((State.resetOf cfg).putBackend .ready) = .next t ∧ t.filledBy cfg ps := by
  induction ps using List.reverseRecOn with
  | nil => exact ⟨_, rfl, filledBy_nil cfg⟩
  | append_singleton ps p ih =>
    simp only [List.length_append, List.length_singleton] at hle
    obtain ⟨hnew, hps⟩ := (List.nodup_concat ps p).mp (by rwa [List.concat_eq_append])
    obtain ⟨t, ht, hfill⟩ := ih hps (fun q hq => hpins q (List.mem_append_left _ hq)) (by omega)
    rw [attachAll_concat ht]
    exact hfill.attach hcfg (by omega) (hpins p (by simp)) hnew

/-- A pool filled by as many pins as it has channels answers every further ATTACH with ResourceExhausted. -/
theorem State.filledBy.attach_full (h : t.filledBy cfg ps) (hfull : ps.length = cfg.nCh) (hp : p < cfg.nPin) :
    exec (.attach p freq res) t = .next (t.reply 0 ⟨0, .resourceExhausted⟩) := by
  have hall : ∀ j < t.cfg.nCh, ∃ d, t.chans[j]? = some d ∧ d.attached = true := by
    rw [h.config, ← hfull]
    exact h.attached hfull.le
  have hexec := attachFailsOnFullPool t p res freq h.deviceThere (h.config ▸ hp) hall
  rwa [h.opened_eq, h.agent] at hexec

/-- Settles O34: the filled state has the responses and the entries, and with every channel taken it is full. -/
theorem poolFillsInOrder : Obligations.PoolFillsInOrder := by
  unfold Obligations.PoolFillsInOrder
  intro cfg pins freq res hcfg hnodup hpins hle
  obtain ⟨t, ht, hfill⟩ := attachAll_fills (freq := freq) (res := res) hcfg hnodup hpins hle
  exact ⟨t, ht, hfill.answers, hfill.mapped, fun hfull p hp => hfill.attach_full hfull hp⟩

end Sys2Proof.Machine
end

section
/-! What a command on an Attached channel does: behind `gate` and `resolve` only its stores are left, which end by
`activate` where the value was nonzero (43_backend_stream.md R184). -/

namespace Sys2Proof.Machine

open Sys2Proof

variable {s : State} {pin c : Nat} {ch : Channel} {q : CmdProg} {fin : Reply → State → State}

theorem State.resolves.entry_eq (h : s.resolves pin c ch) : s.entry pin = c := by
  obtain ⟨-, -, he, -⟩ := h
  exact he

theorem State.resolves.getElem?_eq (h : s.resolves pin c ch) : s.chans[c]? = some ch := by
  obtain ⟨-, -, -, -, hc, -⟩ := h
  exact hc

theorem State.resolves.attached (h : s.resolves pin c ch) : ch.attached = true := by
  obtain ⟨-, -, -, -, -, ha⟩ := h
  exact ha

/-! ### The way to the stores -/

/-- A command behind `gate` goes on where BACKEND is not FAILED (43_backend_stream.md R180). -/
theorem runCommand_gate_of (hb : s.backend ≠ .failed) (p : CmdProg) : s.runCommand (gate p) = s.runCommand p :=
  run_gate.trans (if_neg hb)

/-- A routed command whose pin resolves makes its stores or loads (20_memory.md R58). -/
theorem exec_channelWork_of_resolves {i : Instr} (hi : routedPin i = some pin) (hn : noteAccepted s.cfg i = true)
    (hb : s.backend ≠ .failed) (h : s.resolves pin c ch) (hw : s.channelWork i = some (c, q)) :
    exec i s = .next (q.run (fun r t => t.reply s.cur r) s) := by
  cases i <;> simp only [routedPin, Option.some.injEq, reduceCtorEq] at hi <;> subst hi <;>
    simp only [State.channelWork, Option.some.injEq, Prod.mk.injEq] at hw <;> obtain ⟨rfl, rfl⟩ := hw
  case note nt oct =>
    have hnote : ¬ noteInvalid s.cfg nt oct = true := by simpa [noteAccepted] using hn
    refine congrArg Host.Outcome.next ((runCommand_gate_of hb _).trans ?_)
    rw [if_neg hnote]
    exact run_resolve_of h
  all_goals exact congrArg Host.Outcome.next ((runCommand_gate_of hb _).trans (run_resolve_of h))

/-! ### The stores -/

theorem run_storeDuty (hc : s.chans[c]? = some ch) (duty : Duty) :
    (storeDuty c duty).run fin s =
      (activateWhen (duty != 0) (.done (.ok 1))).run fin (s.putChan c { ch with duty := duty }) := by
  rw [storeDuty, run_st (store_duty hc), BitVec.ofNat_toNat, BitVec.setWidth_eq]

/-- TONE halves the resolution maximum it loads; with frequency 0 it loads none (41_mutators.md R136). -/
theorem run_toneStores (hc : s.chans[c]? = some ch) (freq : Freq) :
    (toneStores freq c).run fin s =
      (activateWhen (freq != 0) (.done (.ok freq))).run fin (s.putChan c (ch.toned freq)) := by
  have hc' (d : Channel) := putChan_getElem?_self (ch := d) hc
  rw [toneStores, run_st (store_freq hc), BitVec.ofNat_toNat, BitVec.setWidth_eq]
  by_cases hf : freq = 0
  · subst hf
    exact (run_st (store_duty (hc' _))).trans (by rw [putChan_putChan]; rfl)
  · have hz : (freq != 0) = true := bne_iff_ne.mpr hf
    rw [if_pos hz, run_ld (load_resmax (hc' _)), run_st (store_duty (hc' _)), putChan_putChan, hz, Channel.toned,
      if_neg hf]
    rfl

theorem run_chfreqStores (hc : s.chans[c]? = some ch) (freq : Freq) (res : Nat) :
    (chfreqStores freq res c).run fin s =
      (activateWhen (freq != 0) (.done (.ok freq))).run fin (s.putChan c (ch.retuned freq res)) := by
  rw [chfreqStores, run_st (store_freq hc), run_st (store_resmax (putChan_getElem?_self hc)), putChan_putChan,
    BitVec.ofNat_toNat, BitVec.setWidth_eq]
  rfl

/-- The end of a write path, where a nonzero value finds the stream running or starts it. -/
theorem run_activateWhen_putChan {w : BitVec 32} (hs : w ≠ 0 → s.streamStarts) (r : Reply) :
    (activateWhen (w != 0) (.done r)).run fin (s.putChan c ch) = fin r ((s.putChan c ch).startedWhen (w != 0)) :=
  run_activateWhen_of fun hw => hs (bne_iff_ne.mp hw)

end Sys2Proof.Machine
end

section
/-! O24: a reader's work is one load and its response, so it can end only by a response or a fault. -/

namespace Sys2Proof.Machine

open Sys2Proof

variable {s t : State}

/-- A reader answers or records a fault, and does nothing else (41_mutators.md R142, R143). -/
theorem exec_reader_cases {i : Instr} {pin : Nat} (hi : i = .read pin ∨ i = .readf pin) (h : exec i s = .next t) :
    (∃ r, t = s.reply s.cur r) ∨ ∃ f, t = s.raise f := by
  obtain ⟨c, x, g, hw⟩ : ∃ c x, ∃ g : Nat → Reply, s.channelWork i = some (c, .ld x fun v => .done (g v)) := by
    rcases hi with rfl | rfl <;> exact ⟨_, _, _, rfl⟩
  rcases exec_channelWork_cases hw h with hr | hf | ⟨-, rfl⟩
  · exact .inl hr
  · exact .inr hf
  · cases hl : s.load x with
    | some v => exact .inl ⟨g v, run_ld hl⟩
    | none => exact .inr ⟨_, run_ld_none hl⟩

/-- Settles O24: neither a response nor a recorded fault touches a cell or draws. -/
theorem readersFrame : Obligations.ReadersFrame := by
  unfold Obligations.ReadersFrame
  intro s t i pin hi h
  refine ⟨exec_command_sameOutside (by rcases hi with rfl | rfl <;> rfl) h, ?_⟩
  rcases exec_reader_cases hi h with ⟨r, rfl⟩ | ⟨f, rfl⟩
  · exact ⟨rfl, rfl, fun _ => load_reply⟩
  · exact ⟨rfl, rfl, fun _ => load_raise⟩

end Sys2Proof.Machine
end

section
/-! O35, O36, O37, O42: the mutators on an Attached channel make their stores and start the stream where the value is
nonzero (41_mutators.md R131 to R137, R144). -/

namespace Sys2Proof.Machine

open Sys2Proof

/-- Settles O35: behind the pin router WRITE is the duty store. -/
theorem writeStoresDuty : Obligations.WriteStoresDuty := by
  unfold Obligations.WriteStoresDuty
  intro s pin c duty ch hb h hs
  obtain rfl := h.entry_eq
  rw [exec_channelWork_of_resolves rfl rfl hb h rfl, run_storeDuty h.getElem?_eq, run_activateWhen_putChan hs]
  rfl

/-- Behind the gate and the range test WRITECH looks at the channel's `attached` cell (41_mutators.md R131). -/
theorem exec_writech_of_channel {s : State} {c : Nat} {duty : Duty} {ch : Channel} (hb : s.backend ≠ .failed)
    (hn : c < s.cfg.nCh) (hc : s.chans[c]? = some ch) :
    exec (.writech c duty) s =
      .next ((if ch.attached then storeDuty c duty else .done (.fail .invalidChannel)).run
        (fun r t => t.reply s.cur r) s) := by
  refine congrArg Host.Outcome.next ((runCommand_gate_of hb _).trans ?_)
  rw [if_neg (Nat.not_le.mpr hn)]
  refine (run_ld (load_attached hc)).trans ?_
  cases ch.attached <;> rfl

/-- Settles O36: the two tests of WRITECH, and the duty store behind them. -/
theorem writechStoresDutyOrFails : Obligations.WritechStoresDutyOrFails := by
  unfold Obligations.WritechStoresDutyOrFails
  intro s c duty hb
  refine ⟨fun hn => congrArg Host.Outcome.next ((runCommand_gate_of hb _).trans ?_), fun ch hn hc ha => ?_,
    fun ch hn hc ha hs => ?_⟩
  · rw [if_pos hn]
    rfl
  · rw [exec_writech_of_channel hb hn hc, if_neg (Bool.eq_false_iff.mp ha)]
    rfl
  · rw [exec_writech_of_channel hb hn hc, if_pos ha, run_storeDuty hc, run_activateWhen_putChan hs]
    rfl

/-- Settles O37: behind the pin router TONE is the two stores of tone_body. -/
theorem toneSetsFrequencyAndHalfDuty : Obligations.ToneSetsFrequencyAndHalfDuty := by
  unfold Obligations.ToneSetsFrequencyAndHalfDuty
  intro s pin c freq ch hb h hs
  obtain rfl := h.entry_eq
  rw [exec_channelWork_of_resolves rfl rfl hb h rfl, run_toneStores h.getElem?_eq, run_activateWhen_putChan hs]
  rfl

/-- Settles O42: behind the pin router CHFREQ is the stores of the frequency and the resolution maximum. -/
theorem chfreqKeepsDutyAndPhase : Obligations.ChfreqKeepsDutyAndPhase := by
  unfold Obligations.ChfreqKeepsDutyAndPhase
  intro s pin res c freq ch hb h hs
  obtain rfl := h.entry_eq
  rw [exec_channelWork_of_resolves rfl rfl hb h rfl, run_chfreqStores h.getElem?_eq, run_activateWhen_putChan hs]
  rfl

end Sys2Proof.Machine
end

section
/-! O38, O39: the notes. The frequency is the table's entry shifted down by the octaves below OCT_MAX, in whole Hz
(41_mutators.md R138, R139), and fits a frequency cell in every configuration in range. -/

namespace Sys2Proof.Machine

open Sys2Proof

variable {cfg : Config} {nt oct : Nat}

/-- NOTE's two limits, whatever the parameters (41_mutators.md R138). -/
theorem noteInvalid_iff_limits : noteInvalid cfg nt oct = true ↔ cfg.nNote ≤ nt ∨ cfg.octMax < oct := by
  rw [noteInvalid, decide_eq_true_eq]

theorem noteHz_of_entry {b : Nat} (h : cfg.noteBase[nt]? = some b) : noteHz cfg nt oct = b / 2 ^ (cfg.octMax - oct) := by
  rw [noteHz, List.getD_eq_getElem?_getD, h, Option.getD_some, Nat.shiftRight_eq_div_pow]

theorem noteFreq_of_entry {b : Nat} (h : cfg.noteBase[nt]? = some b) :
    noteFreq cfg nt oct = BitVec.ofNat 32 (b / 2 ^ (cfg.octMax - oct) * 2 ^ cfg.freqFrac) := by
  rw [noteFreq, noteHz_of_entry h, Nat.shiftLeft_eq]

/-- A note's raw frequency loses no bit in its cell (41_mutators.md R140). -/
theorem toNat_noteFreq (hcfg : cfg.wf) {b : Nat} (h : cfg.noteBase[nt]? = some b) :
    (noteFreq cfg nt oct).toNat = noteHz cfg nt oct * 2 ^ cfg.freqFrac := by
  obtain ⟨-, -, -, -, -, -, -, -, hfits⟩ := hcfg
  have hle : b / 2 ^ (cfg.octMax - oct) * 2 ^ cfg.freqFrac ≤ b * 2 ^ cfg.freqFrac :=
    Nat.mul_le_mul_right _ (Nat.div_le_self ..)
  rw [noteFreq_of_entry h, noteHz_of_entry h,
    toNat_ofNat_of_fits (hle.trans_lt (hfits b (List.mem_of_getElem? h)))]

/-- Settles O38: NOTE tests its note before its pin, and is then the stores of tone_body. -/
theorem noteSetsTheTablesFrequency : Obligations.NoteSetsTheTablesFrequency := by
  unfold Obligations.NoteSetsTheTablesFrequency
  intro s pin nt oct c ch hb
  refine ⟨fun hcfg => ?_, fun hn => ?_, fun b hn ho hbase h hs => ?_⟩
  · obtain ⟨-, -, -, hnote, hoct, -⟩ := fixedValues_of_wf hcfg
    exact ⟨hnote, hoct⟩
  · refine congrArg Host.Outcome.next ((runCommand_gate_of hb _).trans ?_)
    rw [if_pos (noteInvalid_iff_limits.mpr hn)]
    rfl
  · have hvalid : ¬ noteInvalid s.cfg nt oct = true := by
      rw [noteInvalid_iff_limits]
      omega
    have haccepted : noteAccepted s.cfg (.note pin nt oct) = true := by simpa [noteAccepted] using hvalid
    rw [← noteFreq_of_entry hbase] at hs ⊢
    obtain rfl := h.entry_eq
    rw [exec_channelWork_of_resolves rfl haccepted hb h rfl, run_toneStores h.getElem?_eq, run_activateWhen_putChan hs]
    rfl

/-- Settles O39: the table is evaluated; each raw frequency fits, as in every configuration in range. -/
theorem noteTableResults : Obligations.NoteTableResults := by
  unfold Obligations.NoteTableResults
  refine ⟨by decide, fun nt hn oct _ => ?_⟩
  exact toNat_noteFreq resetMeetsInvariant.1 (List.getElem?_eq_getElem (l := Config.default.noteBase) hn)

end Sys2Proof.Machine
end

section
/-! O40, O41, O45: the readers answer the cell of the channel the pin resolves to, and after a TONE the pin still resolves
to the channel as TONE left it (95_test_vectors.md E3). -/

namespace Sys2Proof.Machine

open Sys2Proof

variable {s : State} {pin c : Nat} {ch ch' : Channel} {z : Bool}

/-- Settles O40: READ behind the pin router. -/
theorem readAnswersTheDuty : Obligations.ReadAnswersTheDuty := by
  unfold Obligations.ReadAnswersTheDuty
  exact fun s pin c ch => exec_read_of_resolves

/-- Settles O41: behind the pin router READF is one load of the frequency cell. -/
theorem readfAnswersTheFrequency : Obligations.ReadfAnswersTheFrequency := by
  unfold Obligations.ReadfAnswersTheFrequency
  intro s pin c ch hb h
  obtain rfl := h.entry_eq
  rw [exec_channelWork_of_resolves rfl rfl hb h rfl, run_ld (load_freq h.getElem?_eq), run_done, BitVec.ofNat_toNat,
    BitVec.setWidth_eq]
  rfl

/-! ### What a started stream leaves of the pin router -/

theorem startedWhen_cases (s : State) (z : Bool) :
    s.startedWhen z = s ∨ s.startedWhen z = s.answered.putBackend .running := by
  unfold State.startedWhen State.started
  split
  · split
    exacts [.inr rfl, .inl rfl]
  · exact .inl rfl

theorem startedWhen_backend_ne_failed (hb : s.backend ≠ .failed) : (s.startedWhen z).backend ≠ .failed := by
  rcases startedWhen_cases s z with e | e <;> rw [e]
  · exact hb
  · simp

theorem State.resolves.startedWhen (h : s.resolves pin c ch) : (s.startedWhen z).resolves pin c ch := by
  rcases startedWhen_cases s z with e | e <;> rw [e]
  · exact h
  · simpa [State.resolves, State.entry] using h

/-- A change of the channel's cells that leaves it Attached leaves the pin's translation. -/
theorem State.resolves.putChan (h : s.resolves pin c ch) (ha : ch'.attached = true) :
    (s.putChan c ch').resolves pin c ch' := by
  obtain ⟨hp, hl, he, hun, hc, -⟩ := h
  exact ⟨hp, hl, he, hun, putChan_getElem?_self hc, ha⟩

/-- Settles O45: the readers' answers in the state TONE leaves. -/
theorem toneReadsBack : Obligations.ToneReadsBack := by
  unfold Obligations.ToneReadsBack
  intro s pin c freq ch hb h hs
  have hresolves : ((s.putChan c (ch.toned freq)).startedWhen (freq != 0)).resolves pin c (ch.toned freq) :=
    (h.putChan (ch' := ch.toned freq) h.attached).startedWhen
  have hbackend : ((s.putChan c (ch.toned freq)).startedWhen (freq != 0)).backend ≠ .failed :=
    startedWhen_backend_ne_failed hb
  exact ⟨_, toneSetsFrequencyAndHalfDuty s pin c freq ch hb h hs,
    readfAnswersTheFrequency (State.reply _ s.cur _) pin c _ hbackend hresolves,
    readAnswersTheDuty (State.reply _ s.cur _) pin c _ hbackend hresolves⟩

end Sys2Proof.Machine
end

section
/-! O25, O49: a buffer from any state. MIX goes on from channel to channel by what it sees of each, and stores to the
phases of audible ones alone (42_mixing_engine.md R160, R162, R165). -/

namespace Sys2Proof.Machine

open Sys2Proof

variable {s t : State} {m n c : Nat} {a b : Channel} {out : List Int}

/-! ### One channel at a time -/

theorem exec_bufreq_of_allowed (hr : requestAllowed s = true) :
    exec (.bufreq n) s = .next ((progBufreq s.cfg n).run (fun out u => u.deliver out) s) := if_pos hr

/-- A request answers a next state only where it is allowed. -/
theorem exec_bufreq_next (h : exec (.bufreq n) s = .next t) :
    requestAllowed s = true ∧ t = (progBufreq s.cfg n).run (fun out u => u.deliver out) s := by
  obtain ⟨p, hp, -⟩ | ⟨_, hn, hr, rfl⟩ := exec_cases h
  · cases hp
  · obtain rfl := Instr.bufreq.inj hn
    exact ⟨hr, rfl⟩

/-- The first gate load of a channel that is not in the table ends the buffer (log 6). -/
theorem run_mixChannels_none {left : Nat} {fin : List Int → State → State} (hc : s.chans[c]? = none) :
    (mixChannels m (left + 1) c out).run fin s = s.raise (.noSuchCell (.attached c)) :=
  run_ld_none (by rw [State.load, hc, Option.map_none])

/-- What the phase store of an audible channel, a recorded fault and the delivery keep, a buffer keeps. -/
theorem run_mixChannels_preserves {P : State → Prop}
    (hst : ∀ s c ch p, P s → s.chans[c]? = some ch → ch.audible = true → P (s.putChan c { ch with phase := p }))
    (hraise : ∀ s f, P s → P (s.raise f)) (hdeliver : ∀ s out, P s → P (s.deliver out)) :
    ∀ (left c : Nat) (out : List Int) (s : State), P s →
      P ((mixChannels m left c out).run (fun out u => u.deliver out) s) := by
  intro left
  induction left with
  | zero => exact fun _ out s h => hdeliver s out h
  | succ left ih =>
    intro c out s h
    cases hc : s.chans[c]? with
    | none => rw [run_mixChannels_none hc]; exact hraise s _ h
    | some ch =>
      rw [run_mixChannels_succ hc]
      dsimp only
      split
      · split
        · exact hraise s _ h
        · rw [run_st (store_phase hc)]
          exact ih _ _ _ (hst s c ch _ h hc ‹_›)
      · exact ih _ _ s h

/-! ### What a buffer leaves alone -/

/-- A buffer changes channels, delivers and records a fault, and does nothing else. -/
theorem exec_bufreq_outside (h : exec (.bufreq n) s = .next t) :
    ∃ chs sink fault, t = { s with chans := chs, sink := sink, fault := fault } := by
  obtain ⟨-, rfl⟩ := exec_bufreq_next h
  refine run_mixChannels_preserves
    (P := fun u => ∃ chs sink fault, u = { s with chans := chs, sink := sink, fault := fault })
    ?_ ?_ ?_ _ _ _ s ⟨_, _, _, rfl⟩
  · rintro _ c ch p ⟨chs, sink, fault, rfl⟩ - -
    exact ⟨_, _, _, rfl⟩
  · rintro _ f ⟨chs, sink, fault, rfl⟩
    exact ⟨_, _, _, rfl⟩
  · rintro _ out ⟨chs, sink, fault, rfl⟩
    exact ⟨_, _, _, rfl⟩

/-- A channel that is not audible is left as it is (42_mixing_engine.md R162). -/
theorem exec_bufreq_inaudible (hc : ∀ ch, s.chans[c]? = some ch → ch.audible = false)
    (h : exec (.bufreq n) s = .next t) : t.chans[c]? = s.chans[c]? := by
  obtain ⟨-, rfl⟩ := exec_bufreq_next h
  refine run_mixChannels_preserves (P := fun u => u.chans[c]? = s.chans[c]?) (fun u d ch p hu hd ha => ?_)
    (fun _ _ hu => hu) (fun _ _ hu => hu) _ _ _ s rfl
  have hne : c ≠ d := by
    rintro rfl
    exact absurd ha (Bool.eq_false_iff.mp (hc ch (hu.symm.trans hd)))
  exact (putChan_getElem?_ne hne).trans hu

/-- Settles O25: every cell but a phase is a control agent's, and the phase of an inaudible channel is kept with it. -/
theorem bufreqFrame : Obligations.BufreqFrame := by
  unfold Obligations.BufreqFrame
  intro s t n h
  have hload (x : Cell) (hx : ∀ c ch, x = .phase c → s.chans[c]? = some ch → ch.audible = false) :
      t.load x = s.load x := by
    cases x with
    | phase c => rw [State.load, State.load, exec_bufreq_inaudible (fun ch => hx c ch rfl) h]
    | _ => exact exec_bufreq_owned rfl h
  obtain ⟨chs, sink, fault, rfl⟩ := exec_bufreq_outside h
  exact ⟨rfl, rfl, rfl, rfl, rfl, rfl, rfl, rfl, rfl, rfl, hload⟩

/-! ### What MIX learns of a channel -/

/-- All that MIX learns of a channel: of the duty whether it is 0, of the resolution maximum nothing
(42_mixing_engine.md R165). -/
def Channel.heard (ch : Channel) : Freq × Nat × Bool × Bool := (ch.freq, ch.phase, ch.attached, ch.duty == 0)

theorem heard_eq_iff : a.heard = b.heard ↔
    a.freq = b.freq ∧ a.phase = b.phase ∧ a.attached = b.attached ∧ (a.duty = 0 ↔ b.duty = 0) := by
  have hz : (a.duty == 0) = (b.duty == 0) ↔ (a.duty = 0 ↔ b.duty = 0) := by
    rw [Bool.eq_iff_iff, beq_iff_eq, beq_iff_eq]
  rw [Channel.heard, Channel.heard, Prod.mk.injEq, Prod.mk.injEq, Prod.mk.injEq, hz]

theorem audible_of_heard (h : a.heard = b.heard) : a.audible = b.audible := by
  obtain ⟨hf, -, ha, hd⟩ := heard_eq_iff.mp h
  have hz : (a.duty != 0) = (b.duty != 0) := by rw [Bool.eq_iff_iff, bne_iff_ne, bne_iff_ne, ne_eq, ne_eq, hd]
  rw [Channel.audible, Channel.audible, ha, hf, hz]

/-- MIX learns the same of both machines' channels, which have delivered the same and recorded the same fault. -/
structure State.soundsLike (s t : State) : Prop where
  channels : s.chans.map Channel.heard = t.chans.map Channel.heard
  sink : s.sink = t.sink
  fault : s.fault = t.fault

theorem State.soundsLike.heard (h : s.soundsLike t) (c : Nat) :
    s.chans[c]?.map Channel.heard = t.chans[c]?.map Channel.heard := by
  rw [← List.getElem?_map, h.channels, List.getElem?_map]

theorem State.soundsLike.load_phase (h : s.soundsLike t) (c : Nat) : s.load (.phase c) = t.load (.phase c) := by
  have := congrArg (Option.map fun x : Freq × Nat × Bool × Bool => x.2.1) (h.heard c)
  rwa [Option.map_map, Option.map_map] at this

theorem State.soundsLike.raise (h : s.soundsLike t) (f : Fault) : (s.raise f).soundsLike (t.raise f) :=
  ⟨h.channels, h.sink, rfl⟩

theorem State.soundsLike.deliver (h : s.soundsLike t) (out : List Int) : (s.deliver out).soundsLike (t.deliver out) :=
  ⟨h.channels, by simp only [State.deliver_sink, h.sink], h.fault⟩

theorem State.soundsLike.putChan (h : s.soundsLike t) (hab : a.heard = b.heard) :
    (s.putChan c a).soundsLike (t.putChan c b) :=
  ⟨by simp only [State.putChan_chans, List.map_set, h.channels, hab], h.sink, h.fault⟩

/-- Machines that MIX cannot tell apart it leaves so. -/
theorem State.soundsLike.run_mixChannels (left : Nat) : ∀ {s t : State} (c : Nat) (out : List Int), s.soundsLike t →
    ((mixChannels m left c out).run (fun out u => u.deliver out) s).soundsLike
      ((mixChannels m left c out).run (fun out u => u.deliver out) t) := by
  induction left with
  | zero => exact fun _ out h => h.deliver out
  | succ left ih =>
    intro s t c out h
    have hheard := h.heard c
    cases hs : s.chans[c]? with
    | none =>
      rw [hs, Option.map_none, eq_comm, Option.map_eq_none_iff] at hheard
      rw [run_mixChannels_none hs, run_mixChannels_none hheard]
      exact h.raise _
    | some a =>
      rw [hs, Option.map_some, eq_comm, Option.map_eq_some_iff] at hheard
      obtain ⟨b, ht, hba⟩ := hheard
      obtain ⟨hf, hp, ha, hd⟩ := heard_eq_iff.mp hba.symm
      rw [run_mixChannels_succ hs, run_mixChannels_succ ht, audible_of_heard hba, hf, hp]
      dsimp only
      split
      · split
        · exact h.raise _
        · rw [run_st (store_phase hs), run_st (store_phase ht)]
          exact ih _ _ (h.putChan (heard_eq_iff.mpr ⟨hf, rfl, ha, hd⟩))
      · exact ih _ _ h

/-- Settles O49: a buffer leaves two machines that MIX cannot tell apart so. -/
theorem dutyIsOnlyAGate : Obligations.DutyIsOnlyAGate := by
  unfold Obligations.DutyIsOnlyAGate
  intro s t s' n h hcfg hbackend hmix hfault hsink hchans
  have hheard : s.chans.map Channel.heard = t.chans.map Channel.heard := by
    rw [← List.forall₂_eq_eq_eq, List.forall₂_map_left_iff, List.forall₂_map_right_iff]
    exact hchans.imp fun a b => heard_eq_iff.mpr
  obtain ⟨hr, rfl⟩ := exec_bufreq_next h
  have hr' : requestAllowed t = true := by rwa [requestAllowed, hbackend, hmix]
  have hlike : s.soundsLike t := ⟨hheard, hsink.symm, hfault.symm⟩
  have hend := hlike.run_mixChannels (m := s.cfg.modulus) s.cfg.nCh 0 (List.replicate n 0)
  refine ⟨_, exec_bufreq_of_allowed hr', ?_⟩
  rw [progBufreq, hcfg]
  exact ⟨hend.sink.symm, hend.fault.symm, fun c => (hend.load_phase c).symm⟩

end Sys2Proof.Machine
end

section
/-! What a taken request leaves, said once for each of its two ends: where every channel can be mixed a buffer of sums of
signs, delivered; where one cannot, the fault of its frame (42_mixing_engine.md R160, R167, R168). -/

namespace Sys2Proof.Machine

open Sys2Proof

variable {s t : State} {m n : Nat} {ch : Channel} {chs : List Channel}

/-! ### The buffer -/

/-- What the channel adds to frame k of a buffer, whatever its frequency (42_mixing_engine.md R164). -/
def Channel.signAt (m : Nat) (ch : Channel) (k : Nat) : Int :=
  if ch.audible then squareWave m (phaseAt m ch.freq.toNat k ch.phase) else 0

/-- The n levels the channels are mixed to (42_mixing_engine.md R168). -/
def mixedLevels (m n : Nat) (chs : List Channel) : List Int :=
  (List.range n).map fun k => (chs.map fun ch => ch.signAt m k).sum

theorem foldl_mixInto_zeros :
    chs.foldl (fun o ch => ch.mixInto m o) (List.replicate n 0) = mixedLevels m n chs := by
  refine List.ext_getElem (by simp [mixedLevels]) fun k hk _ => ?_
  rw [foldl_mixInto_getElem _ _ _ _ (by simpa using hk)]
  simp [mixedLevels, Channel.signAt]

@[simp] theorem mixedLevels_length : (mixedLevels m n chs).length = n := by simp [mixedLevels]

/-- The state after n frames of every channel. -/
def State.mixedFor (s : State) (n : Nat) : State := { s with chans := s.chans.map (Channel.mixed s.cfg.modulus n) }

/-- The state after a delivered buffer of n frames. -/
def State.mixedOut (s : State) (n : Nat) : State := (s.mixedFor n).deliver (mixedLevels s.cfg.modulus n s.chans)

/-! ### The two ends -/

theorem not_mixable_of_over {j : Nat} (ha : ch.audible = true) (hj : j < n)
    (ho : m ≤ phaseAt m ch.freq.toNat (j + 1) ch.phase) : ¬ ch.mixable m n :=
  fun h => Nat.not_le.mpr (h ha j hj) ho

/-- A request whose channels can all be mixed is delivered. -/
theorem exec_bufreq_of_mixable (hl : s.chans.length = s.cfg.nCh) (hr : requestAllowed s = true)
    (hm : ∀ ch ∈ s.chans, ch.mixable s.cfg.modulus n) : exec (.bufreq n) s = .next (s.mixedOut n) := by
  rcases exec_bufreq_cases hl hr n with ⟨-, he⟩ | ⟨mid, bad, post, j, hs, -, ha, hj, -, ho, -⟩
  · rw [he, foldl_mixInto_zeros]
    rfl
  · exact absurd (hm bad (by simp [hs])) (not_mixable_of_over ha hj ho)

/-- A request that ends with no fault has been delivered. -/
theorem exec_bufreq_delivered (hl : s.chans.length = s.cfg.nCh) (h : exec (.bufreq n) s = .next t)
    (hf : t.fault = none) :
    requestAllowed s = true ∧ (∀ ch ∈ s.chans, ch.mixable s.cfg.modulus n) ∧ t = s.mixedOut n := by
  obtain ⟨hr, -⟩ := exec_bufreq_next h
  rcases exec_bufreq_cases hl hr n with ⟨hm, -⟩ | ⟨mid, bad, post, j, -, -, -, -, -, -, he⟩
  · exact ⟨hr, hm, Host.Outcome.next.inj (h.symm.trans (exec_bufreq_of_mixable hl hr hm))⟩
  · obtain rfl := Host.Outcome.next.inj (h.symm.trans he)
    cases hf

/-- A request whose first channel that cannot be mixed is `bad`, at frame j, records the fault there. -/
theorem exec_bufreq_of_over {pre post : List Channel} {bad : Channel} {j : Nat} (hl : s.chans.length = s.cfg.nCh)
    (hr : requestAllowed s = true) (hs : s.chans = pre ++ bad :: post)
    (hpre : ∀ ch ∈ pre, ch.mixable s.cfg.modulus n) (ha : bad.audible = true) (hj : j < n)
    (hin : inRangeFor s.cfg.modulus bad.freq.toNat j bad.phase)
    (ho : s.cfg.modulus ≤ phaseAt s.cfg.modulus bad.freq.toNat (j + 1) bad.phase) :
    exec (.bufreq n) s =
      .next (({ s with chans := pre.map (Channel.mixed s.cfg.modulus n) ++ bad :: post } : State).raise
        (.phaseOverrange pre.length j)) := by
  have hrun := run_mixChannels_over (fin := fun out u => u.deliver out) (s := s) (post := post) pre []
    (List.replicate n 0) (by simpa using hpre) ha (by simpa using hj) hin ho
  have hlen : s.cfg.nCh = pre.length + (post.length + 1) := by rw [← hl, hs, List.length_append, List.length_cons]
  rw [exec_bufreq_of_allowed hr, progBufreq, hlen]
  simpa [← hs] using hrun

theorem requestAllowed_of (hb : s.backend = .running) (hm : s.mix = none) : requestAllowed s = true :=
  decide_eq_true ⟨hb, hm⟩

end Sys2Proof.Machine
end

section
/-! O48, O52: where no channel's phase moves, a delivered buffer leaves the cells as they were. -/

namespace Sys2Proof.Machine

open Sys2Proof

variable {s : State} {m n : Nat} {ch : Channel}

theorem mixedFor_eq_self (h : ∀ ch ∈ s.chans, ch.mixed s.cfg.modulus n = ch) : s.mixedFor n = s := by
  have hchans : s.chans.map (Channel.mixed s.cfg.modulus n) = s.chans := (List.map_congr_left h).trans s.chans.map_id
  rw [State.mixedFor, hchans]

/-- Settles O52: in no frames every channel can be mixed and no phase moves. -/
theorem emptyRequestChangesNoCell : Obligations.EmptyRequestChangesNoCell := by
  unfold Obligations.EmptyRequestChangesNoCell
  intro s hi hb hm
  have hmixable : ∀ ch ∈ s.chans, ch.mixable s.cfg.modulus 0 := fun _ _ _ k hk => absurd hk k.not_lt_zero
  have hself : s.mixedFor 0 = s := mixedFor_eq_self fun ch _ => ite_self ch
  rw [exec_bufreq_of_mixable hi.channels (requestAllowed_of hb hm) hmixable, State.mixedOut, hself]
  rfl

theorem audible_eq_false (h : ch.attached = false ∨ ch.duty = 0 ∨ ch.freq = 0) : ch.audible = false := by
  rcases h with h | h | h <;> simp [Channel.audible, h]

theorem mixed_of_inaudible (h : ch.audible = false) : ch.mixed m n = ch := if_neg (Bool.eq_false_iff.mp h)

theorem mixedLevels_of_inaudible {chs : List Channel} (h : ∀ ch ∈ chs, ch.audible = false) :
    mixedLevels m n chs = List.replicate n 0 := by
  refine List.eq_replicate_iff.mpr ⟨mixedLevels_length, fun x hx => ?_⟩
  obtain ⟨k, -, rfl⟩ := List.mem_map.mp hx
  refine List.sum_eq_zero fun y hy => ?_
  obtain ⟨ch, hch, rfl⟩ := List.mem_map.mp hy
  exact if_neg (Bool.eq_false_iff.mp (h ch hch))

/-- A buffer with no audible channel is zeros, and nothing else changes (42_mixing_engine.md R162). -/
theorem exec_bufreq_of_inaudible (hi : s.Inv) (hr : requestAllowed s = true)
    (h : ∀ ch ∈ s.chans, ch.audible = false) : exec (.bufreq n) s = .next (s.deliver (List.replicate n 0)) := by
  have hmixable : ∀ ch ∈ s.chans, ch.mixable s.cfg.modulus n :=
    fun ch hch ha => absurd ha (Bool.eq_false_iff.mp (h ch hch))
  rw [exec_bufreq_of_mixable hi.channels hr hmixable, State.mixedOut,
    mixedFor_eq_self fun ch hch => mixed_of_inaudible (h ch hch), mixedLevels_of_inaudible h]

/-- Settles O48: a channel that one of the three gates skips is not audible. -/
theorem inaudibleChannelsAreFrozen : Obligations.InaudibleChannelsAreFrozen := by
  unfold Obligations.InaudibleChannelsAreFrozen
  exact fun s n hi hb hm h =>
    exec_bufreq_of_inaudible hi (requestAllowed_of hb hm) fun ch hch => audible_eq_false (h ch hch)

end Sys2Proof.Machine
end

section
/-! O47: a level is a sum of as many signs as there are audible channels (42_mixing_engine.md R168). -/

namespace Sys2Proof.Machine

open Sys2Proof

variable {s : State} {m n : Nat}

/-- By induction on the channels: an audible one adds 1 or -1, any other nothing. -/
theorem natAbs_sum_signAt (m k : Nat) (chs : List Channel) :
    (chs.map fun ch : Channel => ch.signAt m k).sum.natAbs ≤ chs.countP Channel.audible ∧
      (chs.map fun ch : Channel => ch.signAt m k).sum.natAbs % 2 = chs.countP Channel.audible % 2 := by
  induction chs with
  | nil => exact ⟨le_rfl, rfl⟩
  | cons ch chs ih =>
    rw [List.map_cons, List.sum_cons, List.countP_cons, Channel.signAt]
    split
    · have := squareWave_natAbs m (phaseAt m ch.freq.toNat k ch.phase)
      omega
    · rwa [Int.zero_add, Nat.add_zero]

theorem countP_audible_le (hi : s.Inv) : s.chans.countP Channel.audible ≤ 16 := by
  obtain ⟨⟨-, hmax⟩, -⟩ := hi.config
  exact (List.countP_le_length.trans hi.channels.le).trans hmax

/-- Settles O47: a level of a delivered buffer is that of its word, since the pool has at most 16 channels. -/
theorem levelsAreSumsOfSigns : Obligations.LevelsAreSumsOfSigns := by
  unfold Obligations.LevelsAreSumsOfSigns
  intro s t n hi _ h hf
  obtain ⟨-, -, rfl⟩ := exec_bufreq_delivered hi.channels h hf
  have hlen : ((mixedLevels s.cfg.modulus n s.chans).map levelWord).length = n := by simp
  refine ⟨_, rfl, hlen, hlen.trans (sinkWords_eq hi.config n).symm, fun l hl => ?_⟩
  obtain ⟨x, hx, rfl⟩ := List.mem_map.mp hl
  obtain ⟨k, -, rfl⟩ := List.mem_map.mp hx
  have hsum := natAbs_sum_signAt s.cfg.modulus k s.chans
  rwa [levelWord_toInt (hsum.1.trans (countP_audible_le hi))]

end Sys2Proof.Machine
end

section
/-! O50: the second of two buffers begins where the first has left the phases (42_mixing_engine.md R170). -/

namespace Sys2Proof.Machine

open Sys2Proof

variable {m a b : Nat} {ch : Channel} {chs : List Channel}

/-- A channel that can be mixed for a frames, and from there for b, can be mixed for a + b. -/
theorem mixable_add (ha : ch.mixable m a) (hb : (ch.mixed m a).mixable m b) : ch.mixable m (a + b) := by
  intro h k hk
  by_cases hka : k < a
  · exact ha h k hka
  · have hr := hb ((mixed_audible m a ch).trans h) (k - a) (by omega)
    rw [Channel.mixed, if_pos h, ← phaseAt_add] at hr
    rwa [show a + (k - a + 1) = k + 1 by omega] at hr

theorem signAt_mixed (k : Nat) : (ch.mixed m a).signAt m k = ch.signAt m (a + k) := by
  unfold Channel.signAt
  rw [mixed_audible]
  split
  · rw [Channel.mixed, if_pos ‹_›, phaseAt_add]
  · rfl

theorem mixedLevels_add :
    mixedLevels m (a + b) chs = mixedLevels m a chs ++ mixedLevels m b (chs.map (Channel.mixed m a)) := by
  simp only [mixedLevels, List.range_add, List.map_append, List.map_map, Function.comp_def, signAt_mixed]

theorem map_mixed_add :
    chs.map (Channel.mixed m (a + b)) = (chs.map (Channel.mixed m a)).map (Channel.mixed m b) := by
  simp only [List.map_map, Function.comp_def, mixed_mixed]

/-- Settles O50: phases, levels and range of a + b frames are those of a frames and then b. -/
theorem buffersConcatenate : Obligations.BuffersConcatenate := by
  unfold Obligations.BuffersConcatenate
  intro s t u a b hi hfs ht hft hu hfu
  obtain ⟨hr, ha, rfl⟩ := exec_bufreq_delivered hi.channels ht hft
  obtain ⟨-, hb, rfl⟩ := exec_bufreq_delivered ((List.length_map _).trans hi.channels) hu hfu
  have hmixable : ∀ ch ∈ s.chans, ch.mixable s.cfg.modulus (a + b) :=
    fun ch hch => mixable_add (ha ch hch) (hb _ (List.mem_map_of_mem hch))
  refine ⟨_, _, _, exec_bufreq_of_mixable hi.channels hr hmixable, hfs, map_mixed_add, rfl, rfl, ?_⟩
  rw [← List.map_append]
  exact congrArg (fun out : List Int => s.sink ++ [out.map levelWord]) mixedLevels_add

end Sys2Proof.Machine
end

section
/-! O46, O51: while the climb of F - M a frame stays below M, a phase moves by F modulo M (42_mixing_engine.md R166,
R167, R171). A frequency of at most M does not climb. -/

namespace Sys2Proof.Machine

open Sys2Proof

variable {s : State} {m f n p : Nat} {ch : Channel}

theorem phaseAt_of_climb (h : p + n * (f - m) < m) : phaseAt m f n p = (p + n * f) % m := by
  rcases Nat.lt_or_ge m f with hf | hf
  · have hsum : p + n * f = p + n * (f - m) + n * m := by
      rw [Nat.add_assoc, ← Nat.mul_add, Nat.sub_add_cancel hf.le]
    rw [phaseAt_climb hf, hsum, Nat.add_mul_mod_self_right, Nat.mod_eq_of_lt h]
  · rw [Nat.sub_eq_zero_of_le hf, Nat.mul_zero] at h
    exact phaseAt_mod hf h n

theorem inRangeFor_of_climb (h : p + n * (f - m) < m) : inRangeFor m f n p := by
  intro k hk
  have hle : (k + 1) * (f - m) ≤ n * (f - m) := Nat.mul_le_mul_right _ hk
  rw [phaseAt_of_climb (by omega)]
  exact Nat.mod_lt _ (by omega)

/-- The channel is inaudible, or its phase stays below M for n frames, climbing by F - M in each. -/
def Channel.climbsBelow (m n : Nat) (ch : Channel) : Prop :=
  ch.audible = true → ch.phase + n * (ch.freq.toNat - m) < m

theorem Channel.climbsBelow.mixable (h : ch.climbsBelow m n) : ch.mixable m n := fun ha => inRangeFor_of_climb (h ha)

theorem Channel.climbsBelow.mixed (h : ch.climbsBelow m n) : ch.mixed m n = ch.afterFrames m n := by
  unfold Channel.mixed Channel.afterFrames
  split
  · rw [phaseAt_of_climb (h ‹_›)]
  · rfl

theorem Channel.climbsBelow.signAt (h : ch.climbsBelow m n) : ch.signAt m n = ch.contribution m n := by
  unfold Channel.signAt Channel.contribution
  split
  · rw [phaseAt_of_climb (h ‹_›)]
  · rfl

/-- With every audible frequency at most SAMPLE_RATE no phase climbs. -/
theorem State.tuned.climbsBelow (ht : s.tuned) (hi : s.Inv) (hch : ch ∈ s.chans) (n : Nat) :
    ch.climbsBelow s.cfg.modulus n := fun ha => by
  rw [Nat.sub_eq_zero_of_le (ht ch hch ha), Nat.mul_zero]
  exact hi.phases ch hch

/-- Settles O46: with every audible frequency at most SAMPLE_RATE the phases move modulo M in every frame. -/
theorem bufreqDeliversTheSumOfSquareWaves : Obligations.BufreqDeliversTheSumOfSquareWaves := by
  unfold Obligations.BufreqDeliversTheSumOfSquareWaves
  intro s n hi ht hb hm
  have hchans : s.chans.map (Channel.mixed s.cfg.modulus n) = s.chans.map (Channel.afterFrames s.cfg.modulus n) :=
    List.map_congr_left fun ch hch => (ht.climbsBelow hi hch n).mixed
  have hlevels : mixedLevels s.cfg.modulus n s.chans = (List.range n).map (levelAt s.cfg.modulus s.chans) :=
    List.map_congr_left fun k _ =>
      congrArg List.sum (List.map_congr_left fun ch hch => (ht.climbsBelow hi hch k).signAt)
  rw [exec_bufreq_of_mixable hi.channels (requestAllowed_of hb hm) fun ch hch => (ht.climbsBelow hi hch n).mixable,
    State.mixedOut, State.mixedFor, hchans, hlevels]

theorem step_of_fault {f : Fault} (h : s.fault = some f) : step s = .fault f := by rw [step, fetch, h]

/-- Settles O51: the channels before c climb below M in every frame, and c climbs to M at frame i. -/
theorem overrangeFaultsAtItsFrame : Obligations.OverrangeFaultsAtItsFrame := by
  unfold Obligations.OverrangeFaultsAtItsFrame
  intro s n c i ch hi _ hb hm hc ha hpre hin hlow hhigh
  obtain ⟨hlt, hget⟩ := List.getElem?_eq_some_iff.mp hc
  have hs : s.chans = s.chans.take c ++ ch :: s.chans.drop (c + 1) := by
    rw [← hget, ← List.drop_eq_getElem_cons hlt, List.take_append_drop]
  have hclimb : ∀ e ∈ s.chans.take c, e.climbsBelow s.cfg.modulus n := fun e he hea => by
    obtain ⟨d, hd, rfl⟩ := List.mem_take_iff_getElem.mp he
    exact hpre d (by omega) _ (List.getElem?_eq_getElem _) hea
  have hf : s.cfg.modulus < ch.freq.toNat := by
    by_contra hle
    rw [Nat.sub_eq_zero_of_le (Nat.not_lt.mp hle), Nat.mul_zero] at hlow hhigh
    omega
  have hexec := exec_bufreq_of_over hi.channels (requestAllowed_of hb hm) hs (fun e he => (hclimb e he).mixable) ha hin
    (inRangeFor_of_climb hlow) (hhigh.trans_eq (phaseAt_climb hf _ _).symm)
  have hchans : (s.chans.take c).map (Channel.mixed s.cfg.modulus n) =
      (s.chans.take c).map (Channel.afterFrames s.cfg.modulus n) :=
    List.map_congr_left fun e he => (hclimb e he).mixed
  rw [List.length_take_of_le hlt.le, hchans, ← hget, ← List.drop_eq_getElem_cons hlt] at hexec
  exact ⟨hexec, step_of_fault rfl⟩

end Sys2Proof.Machine
end

section
/-! O53, O19: requests. One is refused by name unless BACKEND is RUNNING and MIX idle (43_backend_stream.md R185), and a
silent stream goes on taking them (R187). -/

namespace Sys2Proof.Machine

open Sys2Proof

variable {s : State}

theorem exec_bufreq_of_not_allowed (hr : ¬ requestAllowed s = true) (n : Nat) :
    exec (.bufreq n) s = .refused .requestNotAllowed := if_neg hr

theorem step_ask_of_not_allowed {n : SinkWord} {es : List Event} (hf : s.fault = none) (he : s.events = .ask n :: es)
    (hr : ¬ requestAllowed s = true) : step s = .refused .requestNotAllowed :=
  step_of_settled ((fetch_event hf he).trans (if_neg hr))

/-- Settles O53: both ways of delivery make the one test of R185. -/
theorem requestsOnlyWhileRunning : Obligations.RequestsOnlyWhileRunning := by
  unfold Obligations.RequestsOnlyWhileRunning
  intro s n es hf h
  have hr : ¬ requestAllowed s = true := mt of_decide_eq_true h
  exact ⟨exec_bufreq_of_not_allowed hr _, step_ask_of_not_allowed hf rfl hr⟩

/-- No operation taken whole moves BACKEND from RUNNING: the lifecycle moves it from UNINIT and READY alone. -/
theorem exec_keeps_running {i : Instr} {t : State} (hb : s.backend = .running) (h : exec i s = .next t) :
    t.backend = .running := by
  rcases backendMovesAsTheLifecycle i s t h with he | ⟨hu, -⟩ | ⟨hu, -⟩
  · exact he.trans hb
  · exact absurd (hb.symm.trans hu) nofun
  · exact absurd (hb.symm.trans hu) nofun

/-- Settles O19: BACKEND stays RUNNING, and a buffer of inaudible channels changes nothing but the sink. -/
theorem streamNeverStops : Obligations.StreamNeverStops := by
  unfold Obligations.StreamNeverStops
  intro s hi hb
  refine ⟨fun _ _ => exec_keeps_running hb, fun n hm hq => ?_⟩
  have hr := requestAllowed_of hb hm
  refine ⟨_, exec_bufreq_of_inaudible hi hr hq, ?_, hr⟩
  rw [State.deliver_sink, List.map_replicate]
  rfl

end Sys2Proof.Machine
end

section
/-! O21: the inert state. Every command begins with its form of the gate, which answers DeviceUnavailable before anything
else (43_backend_stream.md R180, R181, R186; 40_attach_detach.md R118). -/

namespace Sys2Proof.Machine

open Sys2Proof

variable {s : State}

theorem runCommand_gate_of_failed (hb : s.backend = .failed) (p : CmdProg) :
    s.runCommand (gate p) = s.reply s.cur (.fail .deviceUnavailable) :=
  run_gate.trans (if_pos hb)

theorem runCommand_gateAttach_of_failed (hb : s.backend = .failed) (p : CmdProg) :
    s.runCommand (gateAttach p) = s.reply s.cur (.fail .deviceUnavailable) :=
  run_gateAttach.trans (if_pos hb)

/-- Settles O21: by the gate of each command; a request is refused as it is wherever BACKEND is not RUNNING. -/
theorem inertStateAnswersDeviceUnavailable : Obligations.InertStateAnswersDeviceUnavailable := by
  unfold Obligations.InertStateAnswersDeviceUnavailable
  intro i s hb
  have hr : ¬ requestAllowed s = true := by simp [requestAllowed, hb]
  refine ⟨fun hc => ?_, exec_bufreq_of_not_allowed hr⟩
  cases i
  case bufreq => cases hc
  case detach => exact exec_detach_of_failed hb
  case attach | attachch => exact congrArg Host.Outcome.next (runCommand_gateAttach_of_failed hb _)
  all_goals exact congrArg Host.Outcome.next (runCommand_gate_of_failed hb _)

end Sys2Proof.Machine
end

section
/-! O29: the failures of the attach path. `gate_attach` comes first, so the device is initialised, or has failed to be,
before an operand is tested (43_backend_stream.md R181). -/

namespace Sys2Proof.Machine

open Sys2Proof

variable {s : State}

theorem runCommand_gateAttach_of (h : s.deviceThere) (p : CmdProg) :
    s.runCommand (gateAttach p) = p.run (fun r t => t.reply s.cur r) s.opened := run_gateAttach_of h

/-- A first attach that does not find the device leaves BACKEND FAILED. -/
theorem runCommand_gateAttach_of_refused (hb : s.backend = .uninit) (ha : s.answer = false) (p : CmdProg) :
    s.runCommand (gateAttach p) = (s.answered.putBackend .failed).reply s.cur (.fail .deviceUnavailable) := by
  rw [State.runCommand, run_gateAttach, if_neg (by simp [hb]), if_pos hb, if_neg (Bool.eq_false_iff.mp ha)]

/-- Settles O29: the gate where the device is not there, and behind it the range tests in their order. -/
theorem attachPathFailures : Obligations.AttachPathFailures := by
  unfold Obligations.AttachPathFailures
  intro s pin res ch freq
  refine ⟨fun hb ha => ?_, fun hd hp => ?_, fun hd hp hc => ?_⟩
  · have hgate := runCommand_gateAttach_of_refused hb ha
    exact ⟨congrArg Host.Outcome.next (hgate _), congrArg Host.Outcome.next (hgate _)⟩
  · have hgate := runCommand_gateAttach_of hd
    constructor
    all_goals
      refine congrArg Host.Outcome.next ((hgate _).trans ?_)
      rw [if_pos hp]
      rfl
  · refine congrArg Host.Outcome.next ((runCommand_gateAttach_of hd _).trans ?_)
    rw [if_neg (Nat.not_le.mpr hp), if_pos hc]
    rfl

end Sys2Proof.Machine
end

section
/-! O44: a stream start the device refuses. A write path's stores come before its `activate`, so they have been made when
the command fails (43_backend_stream.md R183, R184). -/

namespace Sys2Proof.Machine

open Sys2Proof

variable {s : State} {fin : Reply → State → State}

theorem run_activate_of_refused (hb : s.backend = .ready) (ha : s.answer = false) (p : CmdProg) :
    (activate p).run fin s = fin (.fail .deviceUnavailable) (s.answered.putBackend .failed) := by
  rw [run_activate, if_pos hb, if_neg (Bool.eq_false_iff.mp ha)]

/-- The end of a write path whose value is nonzero, where the device refuses to start. -/
theorem run_activateWhen_putChan_of_refused {k c : Nat} {ch : Channel} {w : BitVec 32} (hb : s.backend = .ready)
    (ha : s.answer = false) (hw : w ≠ 0) (p : CmdProg) :
    (activateWhen (w != 0) p).run (fun r t => t.reply k r) (s.putChan c ch) =
      ((s.putChan c ch).answered.putBackend .failed).reply k ⟨0, .deviceUnavailable⟩ := by
  rw [bne_iff_ne.mpr hw]
  exact run_activate_of_refused (s := s.putChan c ch) hb ha p

theorem noteAccepted_of_limits {cfg : Config} {pin nt oct : Nat} (hn : nt < cfg.nNote) (ho : oct ≤ cfg.octMax) :
    noteAccepted cfg (.note pin nt oct) = true := by
  simp [noteAccepted, noteInvalid, hn, ho]

/-- Settles O44: each command's stores, and then the refused start. -/
theorem failedStartKeepsTheStores : Obligations.FailedStartKeepsTheStores := by
  unfold Obligations.FailedStartKeepsTheStores
  intro s pin res c freq duty ch hb ha h
  have hne : s.backend ≠ .failed := by simp [hb]
  have hc := h.getElem?_eq
  obtain rfl := h.entry_eq
  refine ⟨fun hd => ?_, fun hd hn => ?_, fun hf => ?_, fun hf => ?_, fun nt oct hn ho hf => ?_⟩
  · rw [exec_channelWork_of_resolves rfl rfl hne h rfl, run_storeDuty hc, run_activateWhen_putChan_of_refused hb ha hd]
  · rw [exec_writech_of_channel hne hn hc, if_pos h.attached, run_storeDuty hc,
      run_activateWhen_putChan_of_refused hb ha hd]
  · rw [exec_channelWork_of_resolves rfl rfl hne h rfl, run_toneStores hc,
      run_activateWhen_putChan_of_refused hb ha hf]
  · rw [exec_channelWork_of_resolves rfl rfl hne h rfl, run_chfreqStores hc,
      run_activateWhen_putChan_of_refused hb ha hf]
  · rw [exec_channelWork_of_resolves rfl (noteAccepted_of_limits hn ho) hne h rfl, run_toneStores hc,
      run_activateWhen_putChan_of_refused hb ha hf]

end Sys2Proof.Machine
end

section
/-! O12: a recorded fault (60_exceptions.md R194). `fetch` reads the fault field before the moves, so no pending
move is taken. -/

namespace Sys2Proof.Machine

open Sys2Proof

/-- Settles O12: the step answers the fault it finds recorded, whatever moves are pending. -/
theorem recordedFaultStopsTheRun : Obligations.RecordedFaultStopsTheRun := by
  unfold Obligations.RecordedFaultStopsTheRun
  intro s f hf
  exact step_of_fault hf

end Sys2Proof.Machine
end

section
/-! O11: with no move listed a step, and so a run of any length, does nothing (70_reset_and_hazards.md R221). -/

namespace Sys2Proof.Machine

open Sys2Proof

variable {s : State}

theorem step_of_silent (hf : s.fault = none) (he : s.events = []) : step s = .next s :=
  step_of_settled (by simp only [fetch, hf, he])

theorem runSteps_of_silent (hf : s.fault = none) (he : s.events = []) (n : Nat) : runSteps n s = .next s := by
  induction n with
  | zero => rfl
  | succ n ih => rw [runSteps_succ (step_of_silent hf he), ih]

/-- Settles O11: `fetch` finds neither a fault nor a move. -/
theorem silentEnvironmentChangesNothing : Obligations.SilentEnvironmentChangesNothing := by
  unfold Obligations.SilentEnvironmentChangesNothing
  intro s hf he
  exact step_of_silent hf he

end Sys2Proof.Machine
end

section
/-! O59: the interleaving of 95_test_vectors.md V64, in its three rows. Once MIX has run a channel's frames the working phase
waits in the buffer in progress, so the store and the delivery still to come load no cell that DETACH stores to. -/

namespace Sys2Proof.Machine.DetachRace

open Sys2Proof

/-- Channel 0 before the DETACH: it sounds. -/
def sounding : Channel := { freq := 256000, phase := 0, duty := 511, resmax := 1023, attached := true }

/-- Row 3 of V64: MIX stores its phase, skips channel 1 and delivers. -/
def finishing : List Event := [.mix .attached, .mix .attached, .mix .attached]

/-- Row 2 of V64, `DETACH 9`, and what follows. -/
def detaching : List Event := .command 0 0x9000000900000000 :: finishing

/-- Row 1 of V64: MIX takes a request and runs the frames of channel 0; and what follows. -/
def latching : List Event := [.ask 2, .mix .attached, .mix .attached, .mix .attached, .mix .attached] ++ detaching

/-- Pin 9 is routed to channel 0, which sounds, and MIX is idle. -/
def start : State :=
  { (smallMachine .sc .running 1).putPin 9 0 with chans := [sounding, Channel.reset], events := latching }

/-- The buffer in progress when MIX has run the frames of channel 0: the phase is still to be stored. -/
def framesRun : MixJob :=
  { n := 2, c := 0, i := 2, attached := some 1, duty := some 511, freq := some 256000, p := some 512000, out := [1, 1] }

/-- The state in which MIX has latched channel 0. -/
def latched : State := { start with mix := some framesRun, events := detaching }

/-- The state in which DETACH has freed channel 0 under MIX: the buffer in progress is the same. -/
def detached : State := (State.freed { latched with events := finishing } 9 0 sounding).reply 0 ⟨1, .none⟩

/-- The state after the delivery: MIX has stored its phase into the Free channel 0. -/
def delivered : State :=
  { detached.putChan 0 { sounding with duty := 0, attached := false, phase := 512000 } with
    mix := none, events := [], sink := [[1, 1]] }

theorem runSteps_latching : runSteps 5 start = .next latched := rfl

theorem step_detaching : step latched = .next detached := by
  have hdecode : decodeCommand 0x9000000900000000 = .ok (.detach 9) := by decide
  calc step latched
      = exec (.detach 9) { latched with events := finishing } :=
        step_command (s := latched) (k := 0) (es := finishing) rfl rfl Nat.zero_lt_one rfl hdecode
    _ = .next detached := exec_detach_of_mapped (ch := sounding) nofun (by decide) (by decide) (by decide) rfl

theorem runSteps_finishing : runSteps 3 detached = .next delivered := rfl

/-- Settles O59: the three rows of V64 one after the other, and two steps with no move left. -/
theorem detachDoesNotCutABufferShort : Obligations.DetachDoesNotCutABufferShort := by
  unfold Obligations.DetachDoesNotCutABufferShort
  refine ⟨delivered, ?_, rfl, rfl, rfl, rfl⟩
  calc runSteps 11 start
      = runSteps 6 latched := runSteps_add 6 runSteps_latching
    _ = runSteps 5 detached := runSteps_succ step_detaching
    _ = runSteps 2 delivered := runSteps_add 2 runSteps_finishing
    _ = .next delivered := runSteps_of_silent rfl rfl 2

end Sys2Proof.Machine.DetachRace
end

section
/-! O8: words the spec writes out (95_test_vectors.md 2.1). A legal one is the encoding of its command, so the round trip
decodes it; an illegal one selects no row, and its opcode tells why. -/

namespace Sys2Proof

variable {w : CmdWord} {i : Instr}

theorem decodeCommand_of_encode (hwf : i.wf Config.default = true) (he : encode i = .command w) : decodeCommand w = .ok i := by
  have h := decodeOfEncodeIsTheInstruction Config.default i Machine.resetMeetsInvariant.1 hwf
  rwa [he] at h

theorem decodeCommand_of_no_row (h : ∀ r ∈ opcodeTable, r.selects w = false) :
    decodeCommand w = .error (if opField w = 0x0#4 ∨ 0xB#4 ≤ opField w then .reservedOpcode else .reservedField) := by
  have hfind : opcodeTable.find? (fun r => r.selects w) = none := List.find?_eq_none.mpr (by simpa using h)
  rw [decodeCommand, hfind]
  exact (apply_ite Except.error ..).symm

/-- Settles O8: V2, V6 and V10 encode their commands; V13g and V13b select no row. -/
theorem specWordsDecode : Obligations.SpecWordsDecode := by
  unfold Obligations.SpecWordsDecode
  refine ⟨?v2, ?v6, ?v10, ?v13g, ?v13b⟩
  case v2 | v6 | v10 => exact decodeCommand_of_encode (by decide) (by decide)
  case v13g => rw [decodeCommand_of_no_row (by decide), if_neg (by decide)]
  case v13b => rw [decodeCommand_of_no_row (by decide), if_pos (by decide)]

end Sys2Proof
end
